-- ==== Sys2Proof/Word.lean ====
section
/-! DEFINITION. Words: the byte, and a memory as a list of (address, byte) cells. -/

namespace Sys2Proof

/-- One byte of IN, WIN or OUT (20_memory.md R54). -/
abbrev Byte := BitVec 8

/-- A byte memory: cells at strictly rising addresses, none equal to what an unlisted address reads as
(`Memory.wf` in Machine/Memory.lean). IN and WIN are the two memories of 20_memory.md R50. -/
abbrev Memory := List Host.Cell

end Sys2Proof
end

