-- ==== Sys2Proof/Config.lean ====
section
/-! DEFINITION. What is fixed for the machine: the parameters of 00_scope.md R8, and what an unlisted address of each
memory reads as. The spec leaves no result undefined, so there is no free value here. -/

namespace Sys2Proof.Config

/-- WSIZE, the window capacity in bytes (R8). -/
def windowSize : Nat := 32768

/-- Symbols of the literal/length alphabet (R8). -/
def litLenSymbols : Nat := 288

/-- Symbols of the distance alphabet (R8). -/
def distSymbols : Nat := 32

/-- Symbols of the code-length alphabet (R8). -/
def clSymbols : Nat := 19

/-- Entries of LENS: the largest HLIT + HDIST (10_state.md R21). -/
def lensEntries : Nat := 320

/-- What an address of IN that is not listed reads as, below N. DESIGN CHOICE, unsafe (log 1): the host supplies every
byte of IN, so a zero byte is simply not listed. -/
def inputUnlisted : Option Byte := some 0

/-- What a cell of WIN that is not listed reads as: no value, the spec's "unwritten" (10_state.md R21, D21; log 2). -/
def windowUnlisted : Option Byte := none

end Sys2Proof.Config
end

