-- ==== Sys2Proof/Machine/Memory.lean ====
section
/-! DEFINITION. A memory in canonical form (20_memory.md R50): read, write, and the form itself. `unl` is what an unlisted
address reads as (Config.inputUnlisted for IN, Config.windowUnlisted for WIN). -/

namespace Sys2Proof

/-- The byte at an address, or none where no value is held. -/
def Memory.read (unl : Option Byte) : Memory → Nat → Option Byte
  | [], _ => unl
  | (b, w) :: rest, a => if a = b then some w else Memory.read unl rest a

/-- Write one byte. Writing what an unlisted address reads as removes the entry. -/
def Memory.write (unl : Option Byte) : Memory → Nat → Byte → Memory
  | [], a, v => if some v = unl then [] else [(a, v)]
  | (b, w) :: rest, a, v =>
    if a < b then (if some v = unl then (b, w) :: rest else (a, v) :: (b, w) :: rest)
    else if a = b then (if some v = unl then rest else (a, v) :: rest)
    else (b, w) :: Memory.write unl rest a v

/-- The addresses rise strictly, from `low` on, and no entry holds what an unlisted address reads as. -/
def Memory.wfFrom (unl : Option Byte) : Nat → Memory → Bool
  | _, [] => true
  | low, (a, v) :: rest => decide (low ≤ a) && decide (some v ≠ unl) && Memory.wfFrom unl (a + 1) rest

/-- The canonical form. -/
def Memory.wf (unl : Option Byte) (m : Memory) : Bool :=
  Memory.wfFrom unl 0 m

/-- Every listed address is below a bound (N for IN, 32768 for WIN; R50). -/
def Memory.below (bound : Nat) (m : Memory) : Bool :=
  m.all (fun cell => decide (cell.1 < bound))

/-- A byte array as IN: byte i of the list at address `base + i`. -/
def Memory.ofBytes (base : Nat) : List Byte → Memory
  | [] => []
  | v :: rest => if some v = Config.inputUnlisted then Memory.ofBytes (base + 1) rest else (base, v) :: Memory.ofBytes (base + 1) rest

end Sys2Proof
end

