-- ==== Sys2Proof/Machine/BitCursor.lean ====
section
/-! DEFINITION. The bit cursor (40_bitcursor.md): a position in IN, and the reads that move it. A read answers none exactly
when it would raise UnexpectedEndOfStream (R103); the position is then the cursor's, unchanged. -/

namespace Sys2Proof

/-- IN, its length N in bytes, and POS. -/
structure Cursor where
  input : Memory
  len   : Nat
  pos   : Nat
  deriving DecidableEq, Repr

namespace Cursor

/-- InByte(i), for i < N (20_memory.md R51). -/
def inByte (c : Cursor) (i : Nat) : Byte :=
  (Memory.read Config.inputUnlisted c.input i).getD 0

/-- bit(p) (R100). -/
def bit (c : Cursor) (p : Nat) : Bool :=
  (c.inByte (p / 8)).getLsbD (p % 8)

/-- remainingBits() (R105). -/
def remainingBits (c : Cursor) : Nat := 8 * c.len - c.pos

/-- atEnd() (R105). -/
def atEnd (c : Cursor) : Bool := c.remainingBits == 0

/-- The cursor n bits further on. -/
def advance (c : Cursor) (n : Nat) : Cursor := { c with pos := c.pos + n }

/-- The n bits from position p on, packed with the first bit lowest (R102). -/
def packed (c : Cursor) : Nat → Nat → Nat
  | 0, _ => 0
  | n + 1, p => (c.bit p).toNat + 2 * c.packed n (p + 1)

/-- nextBits(n) (R102, R103): all n bits or none. -/
def nextBits (c : Cursor) (n : Nat) : Option (Nat × Cursor) :=
  if c.remainingBits < n then none else some (c.packed n c.pos, c.advance n)

/-- nextBit() (R101). -/
def nextBit (c : Cursor) : Option (Bool × Cursor) :=
  match c.nextBits 1 with
  | none => none
  | some (v, c') => some (v == 1, c')

/-- alignToByte() (R104): never raises, never examines a bit. -/
def alignToByte (c : Cursor) : Cursor :=
  if c.pos % 8 = 0 then c else c.advance (8 - c.pos % 8)

/-- nextByte() (R106): 8 bits at any position. -/
def nextByte (c : Cursor) : Option (Byte × Cursor) :=
  match c.nextBits 8 with
  | none => none
  | some (v, c') => some (BitVec.ofNat 8 v, c')

/-- nextBytes(n) (R106): n successive bytes; at the end of the stream, the cursor at the byte that is missing. -/
def nextBytes : Nat → Cursor → Except Cursor (List Byte × Cursor)
  | 0, c => .ok ([], c)
  | n + 1, c =>
    match c.nextByte with
    | none => .error c
    | some (b, c1) =>
      match nextBytes n c1 with
      | .error c2 => .error c2
      | .ok (bs, c2) => .ok (b :: bs, c2)

/-- The stream holds these bits from POS on, all of them before the end of IN. -/
def Holds (c : Cursor) (bits : List Bool) : Prop :=
  c.pos + bits.length ≤ 8 * c.len ∧ ∀ k, (h : k < bits.length) → c.bit (c.pos + k) = bits[k]

/-- IN with stream bit p set to b: how the HOST lays a stream into IN before a run (the core never writes IN, R61). -/
def putBit (input : Memory) (p : Nat) (b : Bool) : Memory :=
  let old : Byte := (Memory.read Config.inputUnlisted input (p / 8)).getD 0
  let mask : Byte := 1#8 <<< (p % 8)
  Memory.write Config.inputUnlisted input (p / 8) (if b then old ||| mask else old &&& ~~~mask)

/-- IN with a string of bits from stream bit p on. -/
def putBits (input : Memory) : Nat → List Bool → Memory
  | _, [] => input
  | p, b :: rest => putBits (putBit input p b) (p + 1) rest

/-- The cursor over an IN that the host has filled with these bits from POS on, N raised where they pass its end. -/
def store (c : Cursor) (bits : List Bool) : Cursor :=
  { c with input := putBits c.input c.pos bits, len := max c.len ((c.pos + bits.length + 7) / 8) }

end Cursor

/-- An n-bit field as the stream carries it, first bit lowest (R82). -/
def fieldBits : Nat → Nat → List Bool
  | 0, _ => []
  | n + 1, v => (v % 2 == 1) :: fieldBits n (v / 2)

/-- Whole bytes as the stream carries them. -/
def bytesBits (bytes : List Byte) : List Bool :=
  bytes.flatMap (fun b => fieldBits 8 b.toNat)

end Sys2Proof
end

