-- ==== Sys2Proof/Machine/Rom.lean ====
section
/-! DEFINITION. The constant ROM's tables (10_state.md R31): PERM, LBASE and LEXT, DBASE and DEXT, and the fixed code lengths.
The fixed trees FLT and FDT are built from the last two in Machine/Huffman.lean. -/

namespace Sys2Proof.Rom

/-- PERM, the transmission order of the code-length-code lengths (30_encoding.md R78). -/
def perm : List Nat := [16, 17, 18, 0, 8, 7, 9, 6, 10, 5, 11, 4, 12, 3, 13, 2, 14, 1, 15]

/-- PERM[i]; there is no entry past 18. -/
def permAt (i : Nat) : Option Nat := perm[i]?

/-- LBASE[257..285] (R84), from code 257 on. -/
def lengthBases : List Nat :=
  [3, 4, 5, 6, 7, 8, 9, 10, 11, 13, 15, 17] ++ [19, 23, 27, 31, 35, 43, 51, 59, 67, 83] ++ [99, 115, 131, 163, 195, 227, 258]

/-- LEXT[257..285] (R83, R84), from code 257 on. -/
def lengthExtras : List Nat :=
  [0, 0, 0, 0, 0, 0, 0, 0, 1, 1, 1, 1, 2, 2, 2] ++ [2, 3, 3, 3, 3, 4, 4, 4, 4, 5, 5, 5, 5, 0]

/-- DBASE[0..29] (R85). -/
def distanceBases : List Nat :=
  [1, 2, 3, 4, 5, 7, 9, 13, 17, 25, 33, 49] ++ [65, 97, 129, 193, 257, 385, 513, 769, 1025, 1537] ++ [2049, 3073, 4097, 6145, 8193, 12289, 16385, 24577]

/-- DEXT[0..29] (R83, R85). -/
def distanceExtras : List Nat :=
  [0, 0, 0, 0, 1, 1, 2, 2, 3, 3, 4, 4, 5, 5, 6] ++ [6, 7, 7, 8, 8, 9, 9, 10, 10, 11, 11, 12, 12, 13, 13]

/-- LBASE[c], for c in 257..285. -/
def lengthBase (c : Nat) : Nat := lengthBases.getD (c - 257) 0

/-- LEXT[c], for c in 257..285. -/
def lengthExtra (c : Nat) : Nat := lengthExtras.getD (c - 257) 0

/-- DBASE[c], for c in 0..29. -/
def distanceBase (c : Nat) : Nat := distanceBases.getD c 0

/-- DEXT[c], for c in 0..29. -/
def distanceExtra (c : Nat) : Nat := distanceExtras.getD c 0

/-- The literal/length code lengths of a FIXED block (41_huffman.md R131). -/
def fixedLitLenLengths : List Nat :=
  List.replicate 144 8 ++ List.replicate 112 9 ++ List.replicate 24 7 ++ List.replicate 8 8

/-- The distance code lengths of a FIXED block (R132). -/
def fixedDistLengths : List Nat := List.replicate 32 5

end Sys2Proof.Rom
end

