-- ==== Sys2Proof/Machine/Huffman.lean ====
section
/-! DEFINITION. The canonical Huffman tree (41_huffman.md): construction from code lengths, and bit-serial decode. -/

namespace Sys2Proof

/-- A Tree (10_state.md R29), as the node found at each path: `absent` where no node is mapped. Log 11. -/
inductive Tree where
  | absent
  | leaf (symbol : Nat)
  | internal (zero one : Tree)
  deriving DecidableEq, Repr

namespace Tree

/-- A root with no leaf: the tree of all-zero lengths (R121). -/
def emptyRoot : Tree := .internal .absent .absent

/-- Child b of a node (R29); a node that is not Internal has none. -/
def child : Tree → Bool → Tree
  | .internal z o, b => if b then o else z
  | _, _ => .absent

/-- The node at a path. -/
def nodeAt : Tree → List Bool → Tree
  | t, [] => t
  | t, b :: p => nodeAt (t.child b) p

/-- The root is Internal (R29, condition 1; the other two hold of every Tree). -/
def rooted : Tree → Bool
  | .internal _ _ => true
  | _ => false

/-- Every leaf's symbol is below a bound (R21's legal trees). -/
def symbolsBelow (bound : Nat) : Tree → Bool
  | .absent => true
  | .leaf s => decide (s < bound)
  | .internal z o => z.symbolsBelow bound && o.symbolsBelow bound

end Tree

/-- A construction error (R125, R126). -/
inductive BuildError where
  | duplicateCode
  | invalidTreeShape
  deriving DecidableEq, Repr

namespace Huffman

/-- insert(T, path, s) (R125, R126): proper path positions first, shortest first, then the end of the path. -/
def insert (s : Nat) : List Bool → Tree → Except BuildError Tree
  | [], .absent => .ok (.leaf s)
  | [], .leaf _ => .error .duplicateCode
  | [], .internal _ _ => .error .invalidTreeShape
  | _ :: _, .leaf _ => .error .invalidTreeShape
  | b :: p, t =>
    match insert s p (t.child b) with
    | .error e => .error e
    | .ok sub => .ok (if b then .internal (t.child false) sub else .internal sub (t.child true))

/-- The low l bits of c, most significant first (R124). -/
def codePath (c : Nat) : Nat → List Bool
  | 0 => []
  | l + 1 => (c / 2 ^ l % 2 == 1) :: codePath c l

/-- count[l] (R122). -/
def count (lengths : List Nat) (l : Nat) : Nat :=
  lengths.countP (fun x => x == l)

/-- code[l], the smallest code of length l (R123); code[1] = 0. -/
def firstCode (lengths : List Nat) : Nat → Nat
  | 0 => 0
  | 1 => 0
  | l + 2 => (firstCode lengths (l + 1) + count lengths (l + 1)) * 2

/-- code[0..15], the starting value of next[] (R124); a register's code length has 4 bits. -/
def firstCodes (lengths : List Nat) : List Nat :=
  (List.range 16).map (firstCode lengths)

/-- The assignment loop (R124) over the symbols from s on. `next` is next[]. -/
def assign : List Nat → Nat → List Nat → Tree → Except BuildError Tree
  | [], _, _, t => .ok t
  | l :: rest, s, next, t =>
    if l = 0 then assign rest (s + 1) next t
    else
      match insert s (codePath (next.getD l 0) l) t with
      | .error e => .error e
      | .ok t' => assign rest (s + 1) (next.set l (next.getD l 0 + 1)) t'

/-- build(L) (R120 to R128). -/
def build (lengths : List Nat) : Except BuildError Tree :=
  assign lengths 0 (firstCodes lengths) .emptyRoot

/-- How a decode ends (R129): a symbol, or an error with the cursor where it was found. -/
inductive Decoded where
  | symbol (s : Nat) (c : Cursor)
  | endOfStream (c : Cursor)
  | incomplete (c : Cursor)
  deriving DecidableEq, Repr

/-- R129's loop once a node has been reached: a leaf answers, a missing node is IncompleteTree, Internal reads on. -/
def arrive : Tree → Cursor → Decoded
  | .leaf s, c => .symbol s c
  | .absent, c => .incomplete c
  | .internal z o, c =>
    match c.nextBit with
    | none => .endOfStream c
    | some (b, c') => if b then arrive o c' else arrive z c'

/-- decode(T) (R129): a bit is consumed before the child it selects is examined. -/
def decode (t : Tree) (c : Cursor) : Decoded :=
  match c.nextBit with
  | none => .endOfStream c
  | some (b, c') => arrive (t.child b) c'

/-- All 2^d codes below a node, for the symbols s, s+1, … in order. -/
def complete : Nat → Nat → Tree
  | 0, s => .leaf s
  | d + 1, s => .internal (complete d s) (complete d (s + 2 ^ d))

/-- FLT, the fixed literal/length tree (R131), as the ROM holds it: the code table of 30_encoding.md R86. That it is
build(L_fixed) is proved in Laws/Huffman.lean (`fixedLitLen_eq_build`). -/
def fixedLitLen : Tree :=
  .internal
    (.internal (.internal (complete 4 256) (.internal (complete 3 272) (complete 4 0))) (complete 6 16))
    (.internal (complete 6 80)
      (.internal (.internal (.internal (complete 3 280) (complete 4 144)) (complete 5 160)) (complete 6 192)))

/-- FDT, the fixed distance tree (R132): the code of s is s in 5 bits. It is build(L_fdist) (`fixedDist_eq_build`). -/
def fixedDist : Tree := complete 5 0

/-- The path of a symbol's leaf, where the tree holds one. -/
def pathOf (s : Nat) : Tree → Option (List Bool)
  | .absent => none
  | .leaf t => if t = s then some [] else none
  | .internal z o =>
    match pathOf s z with
    | some p => some (false :: p)
    | none =>
      match pathOf s o with
      | some p => some (true :: p)
      | none => none

/-- A symbol's code under a tree, in consumption order (R52 item 4). -/
def codeOf (t : Tree) (s : Nat) : Option (List Bool) :=
  if t.rooted then pathOf s t else none

end Huffman

end Sys2Proof
end

