-- ==== Sys2Proof/Syntax.lean ====
section
/-! DEFINITION. Syntax: one constructor of Instr for each row of spec/opcode_table.json. An instruction is one element of
the stream (30_encoding.md R71) with the operand bits it was read with. -/

namespace Sys2Proof

/-- ST, the control state (10_state.md R22). It stands here because the opcode table's `state` column is part of the
encoding: an element is selected by ST and its selecting value (R88). -/
inductive Ctrl where
  | hdr | storedHdr | storedCopy | dynHdr | dynClcl | dynClTree | dynLens | dynTrees | sym | dist | copy | done | error
  deriving DecidableEq, Repr

/-- Why the front end rejects a header (42_gzip_front_end.md R160). -/
inductive HeaderReason where
  | badMagic | badMethod | reservedFlags | badXfl
  deriving DecidableEq, Repr

/-- The `fields` of a parsed gzip member header (R151). A field whose flag is clear is absent. -/
structure GzipHeader where
  flg     : BitVec 8
  mtime   : BitVec 32
  xfl     : BitVec 8
  os      : BitVec 8
  extra   : Option (List Byte)
  name    : Option (List Byte)
  comment : Option (List Byte)
  hcrc    : Option (BitVec 16)
  deriving DecidableEq, Repr

/-- One element of the stream. `bfinal` is the block header's first bit (R72). `extra` is an element's extra bits, first
bit lowest (R82). A LIT carries its symbol as the byte it emits (R231); a reserved symbol carries its number. -/
inductive Instr where
  -- F_BLOCK_HEADER (R72)
  | blkStored (bfinal : Bool)
  | blkFixed (bfinal : Bool)
  | blkDynamic (bfinal : Bool)
  | blkReserved (bfinal : Bool)
  -- F_STORED_HEADER, F_STORED_BYTE (R73)
  | storedHdr (len nlen : BitVec 16)
  | storedByte (data : Byte)
  -- F_DYN_HEADER: the fields HLIT-257, HDIST-1, HCLEN-4 (R74); F_CLCL (R75)
  | dynHdr (hlit hdist : BitVec 5) (hclen : BitVec 4)
  | dynClcl (len : BitVec 3)
  -- F_CL_SYMBOL (R77)
  | clLen (len : BitVec 4)
  | clRepPrev (extra : BitVec 2)
  | clRepZero3 (extra : BitVec 3)
  | clRepZero11 (extra : BitVec 7)
  -- F_LITLEN_LITERAL, F_LITLEN_EOB, F_LITLEN_LENGTH (R79, R84)
  | lit (byte : Byte)
  | eob
  | len257
  | len258
  | len259
  | len260
  | len261
  | len262
  | len263
  | len264
  | len265 (extra : BitVec 1)
  | len266 (extra : BitVec 1)
  | len267 (extra : BitVec 1)
  | len268 (extra : BitVec 1)
  | len269 (extra : BitVec 2)
  | len270 (extra : BitVec 2)
  | len271 (extra : BitVec 2)
  | len272 (extra : BitVec 2)
  | len273 (extra : BitVec 3)
  | len274 (extra : BitVec 3)
  | len275 (extra : BitVec 3)
  | len276 (extra : BitVec 3)
  | len277 (extra : BitVec 4)
  | len278 (extra : BitVec 4)
  | len279 (extra : BitVec 4)
  | len280 (extra : BitVec 4)
  | len281 (extra : BitVec 5)
  | len282 (extra : BitVec 5)
  | len283 (extra : BitVec 5)
  | len284 (extra : BitVec 5)
  | len285
  | lenReserved (symbol : Nat)
  -- F_DIST (R80, R85)
  | dist0
  | dist1
  | dist2
  | dist3
  | dist4 (extra : BitVec 1)
  | dist5 (extra : BitVec 1)
  | dist6 (extra : BitVec 2)
  | dist7 (extra : BitVec 2)
  | dist8 (extra : BitVec 3)
  | dist9 (extra : BitVec 3)
  | dist10 (extra : BitVec 4)
  | dist11 (extra : BitVec 4)
  | dist12 (extra : BitVec 5)
  | dist13 (extra : BitVec 5)
  | dist14 (extra : BitVec 6)
  | dist15 (extra : BitVec 6)
  | dist16 (extra : BitVec 7)
  | dist17 (extra : BitVec 7)
  | dist18 (extra : BitVec 8)
  | dist19 (extra : BitVec 8)
  | dist20 (extra : BitVec 9)
  | dist21 (extra : BitVec 9)
  | dist22 (extra : BitVec 10)
  | dist23 (extra : BitVec 10)
  | dist24 (extra : BitVec 11)
  | dist25 (extra : BitVec 11)
  | dist26 (extra : BitVec 12)
  | dist27 (extra : BitVec 12)
  | dist28 (extra : BitVec 13)
  | dist29 (extra : BitVec 13)
  | distReserved (symbol : Nat)
  -- F_GZIP_HEADER (R150)
  | gzipHdr (header : GzipHeader)
  deriving DecidableEq, Repr

end Sys2Proof
end

