-- ==== Sys2Proof/Machine/State.lean ====
section
/-! DEFINITION. The state of the machine (10_state.md R21), the reasons a step can stop, and reset (70_reset_and_hazards.md R310). -/

namespace Sys2Proof.Machine

/-- ERRK's error kinds (60_exceptions.md R281); `none` is code 0. Their codes are `ErrKind.code` in Ops.lean. -/
inductive ErrKind where
  | none
  | corruptHeader
  | corruptBlock
  | lengthCheckFailed
  | invalidTreeShape
  | duplicateCode
  | incompleteTree
  | invalidRunLength
  | corruptLengthCode
  | invalidDistance
  | unexpectedEndOfStream
  deriving DecidableEq, Repr

/-- The gzip front end (42_gzip_front_end.md): not asked for; asked for by the host on an array of its own, `frontEnd(IN, N)`,
and not yet run; or its result (R151, R160). `unused` and `requested` are the model's own (log 4). The array is not the core's
IN: that is latched by reset alone (R158, 20_memory.md R55). -/
inductive FrontEnd where
  | unused
  | requested (input : Memory) (len : Nat)
  | accepted (fields : GzipHeader) (start : Nat)
  | failed (kind : ErrKind) (reason : Option HeaderReason) (errpos : Nat)
  deriving DecidableEq, Repr

/-- Every register of R21, IN and its two launch parameters (00_scope.md R9), the output port, and the front end's result.
POS, ERRPOS and EMITTED are unbounded naturals (R9; log 10). -/
structure State where
  input    : Memory
  inLen    : Nat
  start    : Nat
  st       : Ctrl
  pos      : Nat
  bfinal   : Bool
  btype    : BitVec 2
  srem     : BitVec 16
  hlit     : BitVec 9
  hdist    : BitVec 6
  hclen    : BitVec 5
  clcl     : Vector (BitVec 3) 19
  ci       : BitVec 5
  lens     : Vector (BitVec 4) 320
  li       : BitVec 9
  clt      : Option Tree
  llt      : Option Tree
  dt       : Option Tree
  cplen    : BitVec 9
  cpdist   : BitVec 16
  emitted  : Nat
  win      : Memory
  errk     : ErrKind
  errpos   : Nat
  out      : List Byte
  frontEnd : FrontEnd
  deriving DecidableEq, Repr

/-- The machine's own faults: each stands for a state outside R21's legal values, which the spec proves no run reaches, and
to which it gives no effect. Every one is safe: the model stops where it says nothing of the hardware. Log 2, log 7. -/
inductive Fault where
  /-- A COPY step read a WIN cell that holds no value (R21, R266). Raised by `stepCopy`. Safe. -/
  | windowUnwritten
  /-- A decode with a tree register that is NONE (R30, R39). Raised by the fetch in DYN_LENS, SYM and DIST. Safe. -/
  | treeNotLoaded
  /-- CLT held a symbol above 18 (R203). Raised by the fetch in DYN_LENS. Safe. -/
  | noSuchSymbol
  /-- CI above 18: PERM has no such entry (R78). Raised by DYN_CLCL. Safe. -/
  | permIndex
  /-- An index of LENS above 319 (R28). Raised by the code-length symbols and by DYN_TREES. Safe. -/
  | lensIndex
  /-- SREM or CPLEN was 0 where a step lowers it by 1 (R21). Raised by STORED_BYTE and by COPY. Safe. -/
  | counterEmpty
  deriving DecidableEq, Repr

/-- Why the model gives no next state. -/
inductive Refusal where
  /-- exec's arm of an instruction with no meaning yet; no arm uses it. Safe. -/
  | notModelled (mnemonic : String)
  /-- A launch with S > N, a precondition of the model (R310; 93_implementation_defined.md U20). Raised by `hostReset`, and
  by GZIP_HDR on a header longer than the front end's array, which no parse yields. Safe. Log 9. -/
  | startBeyondInput
  deriving DecidableEq, Repr

/-- The three outcomes of a step. -/
abbrev Result := Host.Outcome State Fault Refusal

/-- The register values of reset(IN, N, S) (R310). The bound S ≤ N is `hostReset`'s, in Ops.lean. -/
def State.atReset (input : Memory) (len start : Nat) : State where
  input := input
  inLen := len
  start := start
  st := .hdr
  pos := 8 * start
  bfinal := false
  btype := 0
  srem := 0
  hlit := 0
  hdist := 0
  hclen := 0
  clcl := Vector.replicate 19 0
  ci := 0
  lens := Vector.replicate 320 0
  li := 0
  clt := none
  llt := none
  dt := none
  cplen := 0
  cpdist := 0
  emitted := 0
  win := []
  errk := .none
  errpos := 0
  out := []
  frontEnd := .unused

/-- The machine after reset with no input yet: IN empty, N = 0, S = 0. A program is the IN of a later reset (log 3). -/
def State.reset : State := .atReset [] 0 0

end Sys2Proof.Machine
end

