-- ==== Sys2Proof/Machine/Ops.lean ====
section
/-! DEFINITION. The operations that the meanings share: raising an error and the way out of it, the window and Emit, the end of a
block, the code-length run, and what the host sees and does. -/

namespace Sys2Proof.Machine

/-- An error kind's number in ERRK (60_exceptions.md R281). -/
def ErrKind.code : ErrKind → BitVec 4
  | .none => 0
  | .corruptHeader => 1
  | .corruptBlock => 2
  | .lengthCheckFailed => 3
  | .invalidTreeShape => 4
  | .duplicateCode => 5
  | .incompleteTree => 6
  | .invalidRunLength => 7
  | .corruptLengthCode => 8
  | .invalidDistance => 9
  | .unexpectedEndOfStream => 10

/-- A construction error's kind (R281). -/
def buildErrKind : BuildError → ErrKind
  | .duplicateCode => .duplicateCode
  | .invalidTreeShape => .invalidTreeShape

/-- A header reason's number (42_gzip_front_end.md R160). -/
def headerReasonCode : HeaderReason → Nat
  | .badMagic => 1
  | .badMethod => 2
  | .reservedFlags => 3
  | .badXfl => 4

/-- ST's number (10_state.md R22). -/
def ctrlCode : Ctrl → BitVec 4
  | .hdr => 0
  | .storedHdr => 1
  | .storedCopy => 2
  | .dynHdr => 3
  | .dynClcl => 4
  | .dynClTree => 5
  | .dynLens => 6
  | .dynTrees => 7
  | .sym => 8
  | .dist => 9
  | .copy => 10
  | .done => 11
  | .error => 12

/-! ### Errors and the way out -/

/-- `raise E` (R283): taking an exception. ERRK and ERRPOS save the kind and POS; control goes nowhere. -/
def State.raise (s : State) (kind : ErrKind) : State :=
  { s with errk := kind, errpos := s.pos, st := .error }

/-- reset(IN, N, S) (R310): the only way out of ERROR and DONE (R288, R311). S > N is no valid launch (U20, log 9). -/
def hostReset (input : Memory) (len start : Nat) : Result :=
  if start ≤ len then .next (State.atReset input len start) else .refused .startBeyondInput

/-- The host asks for frontEnd(IN, N) on a gzip member (42_gzip_front_end.md R151). No register of the core is written, and IN
is not (20_memory.md R55); the next step runs the front end (log 4). -/
def hostGzip (s : State) (input : Memory) (len : Nat) : State :=
  { s with frontEnd := .requested input len }

/-! ### POS -/

/-- The bit cursor over IN (40_bitcursor.md). -/
def State.cursor (s : State) : Cursor := ⟨s.input, s.inLen, s.pos⟩

/-- The front end's own cursor (42_gzip_front_end.md R151), at byte 0 of the array it was asked for; where it was not asked for,
of the core's IN. -/
def State.member (s : State) : Cursor :=
  match s.frontEnd with
  | .requested input len => ⟨input, len, 0⟩
  | .unused | .accepted _ _ | .failed _ _ _ => ⟨s.input, s.inLen, 0⟩

/-- POS after a read. -/
def State.atPos (s : State) (p : Nat) : State := { s with pos := p }

/-- The next control state, `ST <- c` (00_scope.md R12). -/
def State.goto (s : State) (c : Ctrl) : State := { s with st := c }

/-! ### Window and output (47_window_copy.md) -/

/-- WinRead(i) (R260); none for an unwritten cell. -/
def State.winRead (s : State) (i : Nat) : Option Byte :=
  Memory.read Config.windowUnlisted s.win i

/-- WinWrite(i, v) (R261). -/
def State.winWrite (s : State) (i : Nat) (v : Byte) : State :=
  { s with win := Memory.write Config.windowUnlisted s.win i v }

/-- Emit(v) (R262): OUT, the window, EMITTED. -/
def State.emit (s : State) (v : Byte) : State :=
  let s := { s with out := s.out ++ [v] }
  let s := s.winWrite (s.emitted % Config.windowSize) v
  { s with emitted := s.emitted + 1 }

/-- (EMITTED - CPDIST) mod 32768 (R264), with the non-negative remainder of 00_scope.md R10. -/
def windowIndex (emitted dist : Nat) : Nat :=
  (((emitted : Int) - (dist : Int)) % (Config.windowSize : Int)).toNat

/-! ### Blocks -/

/-- The three tree registers set to NONE. -/
def State.dropTrees (s : State) : State :=
  { s with clt := none, llt := none, dt := none }

/-- The control state after a block: DONE after the final one, else HDR. -/
def afterBlock : Bool → Ctrl
  | true => .done
  | false => .hdr

/-- endBlock() (43_block_control.md R178). -/
def State.endBlock (s : State) : State :=
  s.dropTrees.goto (afterBlock s.bfinal)

/-! ### Code lengths (45_dynamic.md) -/

/-- The entries LENS[i .. i + r) set to v. -/
def setRange (lens : Vector (BitVec 4) 320) (v : BitVec 4) : Nat → Nat → Vector (BitVec 4) 320
  | _, 0 => lens
  | i, r + 1 => setRange (lens.setIfInBounds i v) v (i + 1) r

/-- LENS[LI .. LI + r) <- v and LI <- LI + r, the writes of fill (R209). -/
def State.writeLens (s : State) (v : BitVec 4) (r : Nat) : State :=
  { s with lens := setRange s.lens v s.li.toNat r, li := BitVec.ofNat 9 (s.li.toNat + r) }

/-- HLIT + HDIST, the length of the target array (R209). -/
def State.lensTotal (s : State) : Nat := s.hlit.toNat + s.hdist.toNat

/-- The end of a DYN_LENS step (R203): on to DYN_TREES once every length is written. -/
def State.closeLens (s : State) : State :=
  if s.li.toNat = s.lensTotal then s.goto .dynTrees else s

/-- fill(v, r) (R209), then the end of the step (R203). The check comes before any entry is written. -/
def fillLens (v : BitVec 4) (r : Nat) (s : State) : Result :=
  if s.lensTotal < s.li.toNat + r then .next (s.raise .invalidRunLength)
  else if Config.lensEntries < s.li.toNat + r then .fault .lensIndex
  else .next (s.writeLens v r).closeLens

/-- The code lengths LENS[i .. i + n), as build takes them (R208). -/
def State.lensSlice (s : State) (i n : Nat) : List Nat :=
  ((s.lens.toList.drop i).take n).map BitVec.toNat

/-! ### The status interface (10_state.md R36) -/

/-- STATUS. -/
inductive Status where
  | running
  | done
  | error
  deriving DecidableEq, Repr

/-- STATUS, derived from ST. -/
def State.status (s : State) : Status :=
  match s.st with
  | .done => .done
  | .error => .error
  | _ => .running

/-- What the host reads (R36, R320): POS only once DONE, ERRPOS only at ERROR. A read changes nothing. -/
structure StatusView where
  status  : Status
  errk    : BitVec 4
  errpos  : Option Nat
  pos     : Option Nat
  emitted : Nat
  out     : List Byte
  deriving DecidableEq, Repr

/-- The status interface. ERRK shows 0 unless STATUS = ERROR. -/
def State.view (s : State) : StatusView where
  status := s.status
  errk := if s.status = .error then s.errk.code else 0
  errpos := if s.status = .error then some s.errpos else none
  pos := if s.status = .done then some s.pos else none
  emitted := s.emitted
  out := s.out

end Sys2Proof.Machine
end

