-- ==== Sys2Proof/Machine/Flags.lean ====
section
/-! DEFINITION. Flags. The only flags are BFINAL and BTYPE, written by the HDR step alone (10_state.md R24), and the complement
check of a stored header (44_stored.md R190). There are no arithmetic condition codes. -/

namespace Sys2Proof.Machine

/-- BFINAL <- f, the HDR step's first write (43_block_control.md R177). -/
def State.setFinal (s : State) (f : Bool) : State := { s with bfinal := f }

/-- BTYPE <- t (R177). -/
def State.setType (s : State) (t : BitVec 2) : State := { s with btype := t }

/-- NLEN = ~16 LEN (R190). -/
def lengthCheck (len nlen : BitVec 16) : Bool := nlen == ~~~len

end Sys2Proof.Machine
end

