-- ==== Sys2Proof/Machine/BlockControl.lean ====
section
/-! DEFINITION. The block header's four rows (43_block_control.md R177, R179). POS already stands after the header's three bits. -/

namespace Sys2Proof.Machine

/-- BLK_STORED. -/
def execBlkStored (f : Bool) (s : State) : Result :=
  .next (((s.setFinal f).setType 0).goto .storedHdr)

/-- LLT <- FLT; DT <- FDT (R179). -/
def State.loadFixedTrees (s : State) : State :=
  { s with llt := some Huffman.fixedLitLen, dt := some Huffman.fixedDist }

/-- BLK_FIXED. -/
def execBlkFixed (f : Bool) (s : State) : Result :=
  .next (((s.setFinal f).setType 1).loadFixedTrees.goto .sym)

/-- BLK_DYNAMIC. -/
def execBlkDynamic (f : Bool) (s : State) : Result :=
  .next (((s.setFinal f).setType 2).goto .dynHdr)

/-- BLK_RESERVED: BFINAL has been written; BTYPE 3 is never retained (R21). -/
def execBlkReserved (f : Bool) (s : State) : Result :=
  .next ((s.setFinal f).raise .corruptBlock)

end Sys2Proof.Machine
end

