-- ==== Sys2Proof/Machine/Operands.lean ====
section
/-! DEFINITION. Operand values: a length, a distance or a repeat count is its symbol's base plus its extra bits (30_encoding.md R82),
and a header count is its field plus an offset (R74). -/

namespace Sys2Proof.Machine

/-- LBASE[c] + extra (R84): the match length of a length symbol. -/
def matchLength (c : Nat) (extra : Nat) : Nat := Rom.lengthBase c + extra

/-- DBASE[d] + extra (R85): the distance of a distance symbol. -/
def matchDistance (d : Nat) (extra : Nat) : Nat := Rom.distanceBase d + extra

/-- 3 + extra: the repeat counts of symbols 16 and 17 (R77). -/
def shortRepeat (extra : Nat) : Nat := 3 + extra

/-- 11 + extra: the repeat count of symbol 18 (R77). -/
def longRepeat (extra : Nat) : Nat := 11 + extra

/-- HLIT = field + 257 (R74). -/
def hlitOf (field : BitVec 5) : BitVec 9 := BitVec.ofNat 9 (field.toNat + 257)

/-- HDIST = field + 1 (R74). -/
def hdistOf (field : BitVec 5) : BitVec 6 := BitVec.ofNat 6 (field.toNat + 1)

/-- HCLEN = field + 4 (R74). -/
def hclenOf (field : BitVec 4) : BitVec 5 := BitVec.ofNat 5 (field.toNat + 4)

/-- A length symbol's effect (46_symbol_loop.md R233): CPLEN <- base + extra; ST <- DIST. -/
def startMatch (c : Nat) (extra : Nat) (s : State) : State :=
  { s with cplen := BitVec.ofNat 9 (matchLength c extra), st := .dist }

/-- A distance symbol's effect (R236, R237): the check against EMITTED, then CPDIST and ST <- COPY. -/
def acceptDistance (d : Nat) (extra : Nat) (s : State) : State :=
  if s.emitted < matchDistance d extra then s.raise .invalidDistance
  else { s with cpdist := BitVec.ofNat 16 (matchDistance d extra), st := .copy }

end Sys2Proof.Machine
end

