-- ==== Sys2Proof/Machine/Distance.lean ====
section
/-! DEFINITION. The distance symbols (46_symbol_loop.md R236 to R238). POS already stands after the symbol's code and its extra bits. -/

namespace Sys2Proof.Machine

/-- DIST_0 (R236, R85): distances 1. -/
def execDist0 (s : State) : Result := .next (acceptDistance 0 0 s)

/-- DIST_1 (R236, R85): distances 2. -/
def execDist1 (s : State) : Result := .next (acceptDistance 1 0 s)

/-- DIST_2 (R236, R85): distances 3. -/
def execDist2 (s : State) : Result := .next (acceptDistance 2 0 s)

/-- DIST_3 (R236, R85): distances 4. -/
def execDist3 (s : State) : Result := .next (acceptDistance 3 0 s)

/-- DIST_4 (R236, R85): distances 5..6. -/
def execDist4 (e : BitVec 1) (s : State) : Result := .next (acceptDistance 4 e.toNat s)

/-- DIST_5 (R236, R85): distances 7..8. -/
def execDist5 (e : BitVec 1) (s : State) : Result := .next (acceptDistance 5 e.toNat s)

/-- DIST_6 (R236, R85): distances 9..12. -/
def execDist6 (e : BitVec 2) (s : State) : Result := .next (acceptDistance 6 e.toNat s)

/-- DIST_7 (R236, R85): distances 13..16. -/
def execDist7 (e : BitVec 2) (s : State) : Result := .next (acceptDistance 7 e.toNat s)

/-- DIST_8 (R236, R85): distances 17..24. -/
def execDist8 (e : BitVec 3) (s : State) : Result := .next (acceptDistance 8 e.toNat s)

/-- DIST_9 (R236, R85): distances 25..32. -/
def execDist9 (e : BitVec 3) (s : State) : Result := .next (acceptDistance 9 e.toNat s)

/-- DIST_10 (R236, R85): distances 33..48. -/
def execDist10 (e : BitVec 4) (s : State) : Result := .next (acceptDistance 10 e.toNat s)

/-- DIST_11 (R236, R85): distances 49..64. -/
def execDist11 (e : BitVec 4) (s : State) : Result := .next (acceptDistance 11 e.toNat s)

/-- DIST_12 (R236, R85): distances 65..96. -/
def execDist12 (e : BitVec 5) (s : State) : Result := .next (acceptDistance 12 e.toNat s)

/-- DIST_13 (R236, R85): distances 97..128. -/
def execDist13 (e : BitVec 5) (s : State) : Result := .next (acceptDistance 13 e.toNat s)

/-- DIST_14 (R236, R85): distances 129..192. -/
def execDist14 (e : BitVec 6) (s : State) : Result := .next (acceptDistance 14 e.toNat s)

/-- DIST_15 (R236, R85): distances 193..256. -/
def execDist15 (e : BitVec 6) (s : State) : Result := .next (acceptDistance 15 e.toNat s)

/-- DIST_16 (R236, R85): distances 257..384. -/
def execDist16 (e : BitVec 7) (s : State) : Result := .next (acceptDistance 16 e.toNat s)

/-- DIST_17 (R236, R85): distances 385..512. -/
def execDist17 (e : BitVec 7) (s : State) : Result := .next (acceptDistance 17 e.toNat s)

/-- DIST_18 (R236, R85): distances 513..768. -/
def execDist18 (e : BitVec 8) (s : State) : Result := .next (acceptDistance 18 e.toNat s)

/-- DIST_19 (R236, R85): distances 769..1024. -/
def execDist19 (e : BitVec 8) (s : State) : Result := .next (acceptDistance 19 e.toNat s)

/-- DIST_20 (R236, R85): distances 1025..1536. -/
def execDist20 (e : BitVec 9) (s : State) : Result := .next (acceptDistance 20 e.toNat s)

/-- DIST_21 (R236, R85): distances 1537..2048. -/
def execDist21 (e : BitVec 9) (s : State) : Result := .next (acceptDistance 21 e.toNat s)

/-- DIST_22 (R236, R85): distances 2049..3072. -/
def execDist22 (e : BitVec 10) (s : State) : Result := .next (acceptDistance 22 e.toNat s)

/-- DIST_23 (R236, R85): distances 3073..4096. -/
def execDist23 (e : BitVec 10) (s : State) : Result := .next (acceptDistance 23 e.toNat s)

/-- DIST_24 (R236, R85): distances 4097..6144. -/
def execDist24 (e : BitVec 11) (s : State) : Result := .next (acceptDistance 24 e.toNat s)

/-- DIST_25 (R236, R85): distances 6145..8192. -/
def execDist25 (e : BitVec 11) (s : State) : Result := .next (acceptDistance 25 e.toNat s)

/-- DIST_26 (R236, R85): distances 8193..12288. -/
def execDist26 (e : BitVec 12) (s : State) : Result := .next (acceptDistance 26 e.toNat s)

/-- DIST_27 (R236, R85): distances 12289..16384. -/
def execDist27 (e : BitVec 12) (s : State) : Result := .next (acceptDistance 27 e.toNat s)

/-- DIST_28 (R236, R85): distances 16385..24576. -/
def execDist28 (e : BitVec 13) (s : State) : Result := .next (acceptDistance 28 e.toNat s)

/-- DIST_29 (R236, R85): distances 24577..32768. -/
def execDist29 (e : BitVec 13) (s : State) : Result := .next (acceptDistance 29 e.toNat s)

/-- DIST_RESERVED, symbols 30 and 31 (R238): raised before any extra bit is read. -/
def execDistReserved (_symbol : Nat) (s : State) : Result := .next (s.raise .invalidDistance)

end Sys2Proof.Machine
end

