-- ==== Sys2Proof/Machine/Dynamic.lean ====
section
/-! DEFINITION. The dynamic block header (45_dynamic.md): the header, the code-length code, the code-length symbols, and the two steps
that build trees. -/

namespace Sys2Proof.Machine

/-- DYN_HDR (R200). -/
def execDynHdr (hlit hdist : BitVec 5) (hclen : BitVec 4) (s : State) : Result :=
  .next { s with
    hlit := hlitOf hlit, hdist := hdistOf hdist, hclen := hclenOf hclen,
    clcl := Vector.replicate 19 0, ci := 0, st := .dynClcl }

/-- CLCL[k] <- len; CI <- CI + 1 (R201). -/
def State.putClcl (s : State) (k : Nat) (len : BitVec 3) : State :=
  { s with clcl := s.clcl.setIfInBounds k len, ci := s.ci + 1 }

/-- The end of a DYN_CLCL step (R201): on to DYN_CLTREE after HCLEN entries. -/
def State.closeClcl (s : State) : State :=
  if s.ci = s.hclen then s.goto .dynClTree else s

/-- DYN_CLCL (R201). -/
def execDynClcl (len : BitVec 3) (s : State) : Result :=
  match Rom.permAt s.ci.toNat with
  | none => .fault .permIndex
  | some k => .next (s.putClcl k len).closeClcl

/-- The DYN_CLTREE step (R202): no stream bits are read. -/
def stepDynClTree (s : State) : Result :=
  match Huffman.build (s.clcl.toList.map BitVec.toNat) with
  | .error e => .next (s.raise (buildErrKind e))
  | .ok t => .next { s with clt := some t, lens := Vector.replicate 320 0, li := 0, st := .dynLens }

/-- CL_LEN (R204): the length itself. -/
def execClLen (len : BitVec 4) (s : State) : Result :=
  fillLens len 1 s

/-- LENS[LI - 1], the last entry written (R205). -/
def State.lastLen (s : State) : BitVec 4 := s.lens.toList.getD (s.li.toNat - 1) 0

/-- CL_REP_PREV (R205). -/
def execClRepPrev (extra : BitVec 2) (s : State) : Result :=
  if s.li = 0 then .next (s.raise .invalidRunLength)
  else fillLens s.lastLen (shortRepeat extra.toNat) s

/-- CL_REP_ZERO3 (R206). -/
def execClRepZero3 (extra : BitVec 3) (s : State) : Result :=
  fillLens 0 (shortRepeat extra.toNat) s

/-- CL_REP_ZERO11 (R207). -/
def execClRepZero11 (extra : BitVec 7) (s : State) : Result :=
  fillLens 0 (longRepeat extra.toNat) s

/-- LLT <- t. -/
def State.setLlt (s : State) (t : Tree) : State := { s with llt := some t }

/-- The DYN_TREES step (R208): LLT first, then DT; LLT is kept when only the distance build fails (log 14). -/
def stepDynTrees (s : State) : Result :=
  if Config.lensEntries < s.lensTotal then .fault .lensIndex
  else
    match Huffman.build (s.lensSlice 0 s.hlit.toNat) with
    | .error e => .next (s.raise (buildErrKind e))
    | .ok litLen =>
      match Huffman.build (s.lensSlice s.hlit.toNat s.hdist.toNat) with
      | .error e => .next ((s.setLlt litLen).raise (buildErrKind e))
      | .ok dist => .next { (s.setLlt litLen) with dt := some dist, clt := none, st := .sym }

end Sys2Proof.Machine
end

