-- ==== Sys2Proof/WellFormed.lean ====
section
/-! DEFINITION. Well-formed instructions: what an operand's type does not already say. -/

namespace Sys2Proof

/-- The reserved bits FLG[7:5] are 0 (R154). -/
def GzipHeader.flagsOk (h : GzipHeader) : Bool :=
  h.flg.extractLsb' 5 3 == 0

/-- XFL is 0 (R155). -/
def GzipHeader.xflOk (h : GzipHeader) : Bool :=
  h.xfl == 0

/-- EXTRA is present exactly when FLG[2] = 1, and its length fits XLEN's 16 bits (R156). -/
def GzipHeader.extraOk (h : GzipHeader) : Bool :=
  match h.extra with
  | some bytes => h.flg.getLsbD 2 && decide (bytes.length < 65536)
  | none => !h.flg.getLsbD 2

/-- A null-terminated field: present exactly when its flag is set, and without a 0x00 byte inside (R157). -/
def GzipHeader.stringOk (flag : Bool) : Option (List Byte) → Bool
  | some bytes => flag && bytes.all (fun b => b != 0)
  | none => !flag

/-- HCRC is present exactly when FLG[1] = 1 (R158). -/
def GzipHeader.hcrcOk (h : GzipHeader) : Bool :=
  h.hcrc.isSome == h.flg.getLsbD 1

/-- A header's fields are those its flags announce (R150 to R158). -/
def GzipHeader.wf (h : GzipHeader) : Bool :=
  h.flagsOk && h.xflOk && h.extraOk && stringOk (h.flg.getLsbD 3) h.name && stringOk (h.flg.getLsbD 4) h.comment && h.hcrcOk

/-- An instruction's operands lie in their ranges. Every field of fixed width is in range by its type. -/
def Instr.wf : Instr → Bool
  | .lenReserved symbol => symbol == 286 || symbol == 287
  | .distReserved symbol => symbol == 30 || symbol == 31
  | .gzipHdr header => header.wf
  | _ => true

end Sys2Proof
end

