-- ==== Sys2Proof/Decode.lean ====
section
/-! DEFINITION. Decode: the element that the stream holds at the cursor, for the format that the control state selects
(30_encoding.md R71, R88); and the encoder, from the same tables. Decoding is total: it answers an instruction, or a
rejection by name. -/

namespace Sys2Proof

/-- The format to read, with what it depends on: the tree of a Huffman-coded element (R81), and for a code-length symbol
whether no length has been written yet (45_dynamic.md R205). -/
inductive Mode where
  | header
  | storedHdr
  | storedByte
  | dynHdr
  | dynClcl
  | clSymbol (tree : Tree) (noneYet : Bool)
  | litLen (tree : Tree)
  | dist (tree : Tree)
  | gzip
  deriving DecidableEq, Repr

/-- Why an element is rejected. Each is an error of the stream (60_exceptions.md R281, 42_gzip_front_end.md R160), but for
`noSuchSymbol`: a code-length symbol above 18, which no legal CLT holds (R203). -/
inductive Reject where
  | endOfStream
  | incompleteTree
  | noPreviousLength
  | noSuchSymbol
  | header (reason : HeaderReason)
  deriving DecidableEq, Repr

/-- The fields of a rejected element that a step has by then written to their registers (43_block_control.md R172). -/
inductive Kept where
  | nothing
  | bfinal (bfinal : Bool)
  | hlit (hlit : BitVec 5)
  | hlitHdist (hlit hdist : BitVec 5)
  deriving DecidableEq, Repr

/-- A decode: the instruction and the cursor after it, or a rejection and the cursor where it was found. -/
inductive DecodeResult where
  | instr (i : Instr) (c : Cursor)
  | rejected (why : Reject) (kept : Kept) (c : Cursor)
  deriving DecidableEq, Repr

/-- Read an n-bit field and go on with it; at the end of the stream, reject (R103). -/
def withBits (n : Nat) (kept : Kept) (c : Cursor) (k : Nat → Cursor → DecodeResult) : DecodeResult :=
  match c.nextBits n with
  | none => .rejected .endOfStream kept c
  | some (v, c') => k v c'

/-- Read a byte and go on with it. -/
def withByte (c : Cursor) (k : Byte → Cursor → DecodeResult) : DecodeResult :=
  match c.nextByte with
  | none => .rejected .endOfStream .nothing c
  | some (b, c') => k b c'

/-- Decode a symbol and go on with it (41_huffman.md R129). -/
def withSymbol (t : Tree) (c : Cursor) (k : Nat → Cursor → DecodeResult) : DecodeResult :=
  match Huffman.decode t c with
  | .symbol s c' => k s c'
  | .endOfStream c' => .rejected .endOfStream .nothing c'
  | .incomplete c' => .rejected .incompleteTree .nothing c'

/-! ### Block header, stored and dynamic headers -/

/-- The row that BTYPE selects (30_encoding.md R72). -/
def headerInstr (bfinal : Bool) (btype : Nat) : Instr :=
  if btype = 0 then .blkStored bfinal
  else if btype = 1 then .blkFixed bfinal
  else if btype = 2 then .blkDynamic bfinal
  else .blkReserved bfinal

/-- F_BLOCK_HEADER (R72, R177): BFINAL, then BTYPE. -/
def decodeHeader (c : Cursor) : DecodeResult :=
  withBits 1 .nothing c fun f c =>
  withBits 2 (.bfinal (f == 1)) c fun t c =>
  .instr (headerInstr (f == 1) t) c

/-- F_STORED_HEADER (R73, R190): align, then LEN and NLEN. The pad bits are not examined (R192). -/
def decodeStoredHdr (c : Cursor) : DecodeResult :=
  withBits 16 .nothing c.alignToByte fun len c =>
  withBits 16 .nothing c fun nlen c =>
  .instr (.storedHdr (BitVec.ofNat 16 len) (BitVec.ofNat 16 nlen)) c

/-- F_STORED_BYTE (R73, R191). -/
def decodeStoredByte (c : Cursor) : DecodeResult :=
  withByte c fun b c => .instr (.storedByte b) c

/-- F_DYN_HEADER (R74, R200). A field that has been read is kept when the next one is missing. -/
def decodeDynHdr (c : Cursor) : DecodeResult :=
  withBits 5 .nothing c fun hlit c =>
  withBits 5 (.hlit (BitVec.ofNat 5 hlit)) c fun hdist c =>
  withBits 4 (.hlitHdist (BitVec.ofNat 5 hlit) (BitVec.ofNat 5 hdist)) c fun hclen c =>
  .instr (.dynHdr (BitVec.ofNat 5 hlit) (BitVec.ofNat 5 hdist) (BitVec.ofNat 4 hclen)) c

/-- F_CLCL (R75, R201). -/
def decodeDynClcl (c : Cursor) : DecodeResult :=
  withBits 3 .nothing c fun len c => .instr (.dynClcl (BitVec.ofNat 3 len)) c

/-! ### Huffman-coded elements: the code, then the extra bits at once (R82) -/

/-- F_CL_SYMBOL (R77, R203). Symbol 16 with no previous length is illegal (R87), and is rejected before its extra bits are
read (R205). -/
def decodeClSymbol (t : Tree) (noneYet : Bool) (c : Cursor) : DecodeResult :=
  withSymbol t c fun s c =>
  if s ≤ 15 then .instr (.clLen (BitVec.ofNat 4 s)) c
  else if s = 16 then
    if noneYet then .rejected .noPreviousLength .nothing c
    else withBits 2 .nothing c fun e c => .instr (.clRepPrev (BitVec.ofNat 2 e)) c
  else if s = 17 then withBits 3 .nothing c fun e c => .instr (.clRepZero3 (BitVec.ofNat 3 e)) c
  else if s = 18 then withBits 7 .nothing c fun e c => .instr (.clRepZero11 (BitVec.ofNat 7 e)) c
  else .rejected .noSuchSymbol .nothing c

/-- The length instruction of a symbol 257..285 (R79, R84); any other symbol is reserved. -/
def lengthInstr (s : Nat) (e : Nat) : Instr :=
  match s with
  | 257 => .len257
  | 258 => .len258
  | 259 => .len259
  | 260 => .len260
  | 261 => .len261
  | 262 => .len262
  | 263 => .len263
  | 264 => .len264
  | 265 => .len265 (BitVec.ofNat 1 e)
  | 266 => .len266 (BitVec.ofNat 1 e)
  | 267 => .len267 (BitVec.ofNat 1 e)
  | 268 => .len268 (BitVec.ofNat 1 e)
  | 269 => .len269 (BitVec.ofNat 2 e)
  | 270 => .len270 (BitVec.ofNat 2 e)
  | 271 => .len271 (BitVec.ofNat 2 e)
  | 272 => .len272 (BitVec.ofNat 2 e)
  | 273 => .len273 (BitVec.ofNat 3 e)
  | 274 => .len274 (BitVec.ofNat 3 e)
  | 275 => .len275 (BitVec.ofNat 3 e)
  | 276 => .len276 (BitVec.ofNat 3 e)
  | 277 => .len277 (BitVec.ofNat 4 e)
  | 278 => .len278 (BitVec.ofNat 4 e)
  | 279 => .len279 (BitVec.ofNat 4 e)
  | 280 => .len280 (BitVec.ofNat 4 e)
  | 281 => .len281 (BitVec.ofNat 5 e)
  | 282 => .len282 (BitVec.ofNat 5 e)
  | 283 => .len283 (BitVec.ofNat 5 e)
  | 284 => .len284 (BitVec.ofNat 5 e)
  | 285 => .len285
  | s => .lenReserved s

/-- F_LITLEN_LITERAL, F_LITLEN_EOB, F_LITLEN_LENGTH (R79, R230). -/
def decodeLitLen (t : Tree) (c : Cursor) : DecodeResult :=
  withSymbol t c fun s c =>
  if s ≤ 255 then .instr (.lit (BitVec.ofNat 8 s)) c
  else if s = 256 then .instr .eob c
  else if s ≤ 285 then withBits (Rom.lengthExtra s) .nothing c fun e c => .instr (lengthInstr s e) c
  else .instr (.lenReserved s) c

/-- The distance instruction of a symbol 0..29 (R80, R85); any other symbol is reserved. -/
def distanceInstr (d : Nat) (e : Nat) : Instr :=
  match d with
  | 0 => .dist0
  | 1 => .dist1
  | 2 => .dist2
  | 3 => .dist3
  | 4 => .dist4 (BitVec.ofNat 1 e)
  | 5 => .dist5 (BitVec.ofNat 1 e)
  | 6 => .dist6 (BitVec.ofNat 2 e)
  | 7 => .dist7 (BitVec.ofNat 2 e)
  | 8 => .dist8 (BitVec.ofNat 3 e)
  | 9 => .dist9 (BitVec.ofNat 3 e)
  | 10 => .dist10 (BitVec.ofNat 4 e)
  | 11 => .dist11 (BitVec.ofNat 4 e)
  | 12 => .dist12 (BitVec.ofNat 5 e)
  | 13 => .dist13 (BitVec.ofNat 5 e)
  | 14 => .dist14 (BitVec.ofNat 6 e)
  | 15 => .dist15 (BitVec.ofNat 6 e)
  | 16 => .dist16 (BitVec.ofNat 7 e)
  | 17 => .dist17 (BitVec.ofNat 7 e)
  | 18 => .dist18 (BitVec.ofNat 8 e)
  | 19 => .dist19 (BitVec.ofNat 8 e)
  | 20 => .dist20 (BitVec.ofNat 9 e)
  | 21 => .dist21 (BitVec.ofNat 9 e)
  | 22 => .dist22 (BitVec.ofNat 10 e)
  | 23 => .dist23 (BitVec.ofNat 10 e)
  | 24 => .dist24 (BitVec.ofNat 11 e)
  | 25 => .dist25 (BitVec.ofNat 11 e)
  | 26 => .dist26 (BitVec.ofNat 12 e)
  | 27 => .dist27 (BitVec.ofNat 12 e)
  | 28 => .dist28 (BitVec.ofNat 13 e)
  | 29 => .dist29 (BitVec.ofNat 13 e)
  | d => .distReserved d

/-- F_DIST (R80, R236). A reserved symbol is known before any extra bit is read (R238). -/
def decodeDist (t : Tree) (c : Cursor) : DecodeResult :=
  withSymbol t c fun d c =>
  if 30 ≤ d then .instr (.distReserved d) c
  else withBits (Rom.distanceExtra d) .nothing c fun e c => .instr (distanceInstr d e) c

/-! ### The gzip member header (42_gzip_front_end.md R151) -/

/-- zstring() (R151, R157). The fuel is one more than the whole bytes that remain, so it never runs out. -/
def zstring : Nat → Cursor → Except Cursor (List Byte × Cursor)
  | 0, c => .error c
  | n + 1, c =>
    match c.nextByte with
    | none => .error c
    | some (b, c1) =>
      if b = 0 then .ok ([], c1)
      else
        match zstring n c1 with
        | .error c2 => .error c2
        | .ok (bs, c2) => .ok (b :: bs, c2)

/-- EXTRA, when FLG[2] = 1 (R156). -/
def withExtra (present : Bool) (c : Cursor) (k : Option (List Byte) → Cursor → DecodeResult) : DecodeResult :=
  if present then
    withBits 16 .nothing c fun xlen c =>
    match c.nextBytes xlen with
    | .error c' => .rejected .endOfStream .nothing c'
    | .ok (bytes, c') => k (some bytes) c'
  else k none c

/-- NAME or COMMENT, when its flag is set (R157). -/
def withString (present : Bool) (c : Cursor) (k : Option (List Byte) → Cursor → DecodeResult) : DecodeResult :=
  if present then
    match zstring (c.remainingBits / 8 + 1) c with
    | .error c' => .rejected .endOfStream .nothing c'
    | .ok (bytes, c') => k (some bytes) c'
  else k none c

/-- HCRC, when FLG[1] = 1; not checked (R158). -/
def withHcrc (present : Bool) (c : Cursor) (k : Option (BitVec 16) → Cursor → DecodeResult) : DecodeResult :=
  if present then withBits 16 .nothing c fun v c => k (some (BitVec.ofNat 16 v)) c
  else k none c

/-- Go on, or reject the header for a reason (R151's `fail`). -/
def check (ok : Bool) (reason : HeaderReason) (c : Cursor) (k : DecodeResult) : DecodeResult :=
  if ok then k else .rejected (.header reason) .nothing c

/-- F_GZIP_HEADER: frontEnd's parse (R151), each byte checked as it is read. -/
def decodeGzip (c : Cursor) : DecodeResult :=
  withByte c fun id1 c => check (id1 == 0x1F) .badMagic c <|
  withByte c fun id2 c => check (id2 == 0x8B) .badMagic c <|
  withByte c fun cm c => check (cm == 8) .badMethod c <|
  withByte c fun flg c => check (flg.extractLsb' 5 3 == 0) .reservedFlags c <|
  withBits 16 .nothing c fun mtimeLow c =>
  withBits 16 .nothing c fun mtimeHigh c =>
  withByte c fun xfl c => check (xfl == 0) .badXfl c <|
  withByte c fun os c =>
  withExtra (flg.getLsbD 2) c fun extra c =>
  withString (flg.getLsbD 3) c fun name c =>
  withString (flg.getLsbD 4) c fun comment c =>
  withHcrc (flg.getLsbD 1) c fun hcrc c =>
  .instr (.gzipHdr { flg, mtime := BitVec.ofNat 32 (mtimeLow + 65536 * mtimeHigh), xfl, os, extra, name, comment, hcrc }) c

/-- The element at the cursor. -/
def decode : Mode → Cursor → DecodeResult
  | .header, c => decodeHeader c
  | .storedHdr, c => decodeStoredHdr c
  | .storedByte, c => decodeStoredByte c
  | .dynHdr, c => decodeDynHdr c
  | .dynClcl, c => decodeDynClcl c
  | .clSymbol t noneYet, c => decodeClSymbol t noneYet c
  | .litLen t, c => decodeLitLen t c
  | .dist t, c => decodeDist t c
  | .gzip, c => decodeGzip c

/-! ### The encoder -/

/-- A Huffman-coded element's symbol, and the width and value of its extra bits. -/
structure Coded where
  symbol : Nat
  width  : Nat
  extra  : Nat
  deriving DecidableEq, Repr

/-- A code-length element (R77). -/
def Instr.clCoded : Instr → Option Coded
  | .clLen len => some ⟨len.toNat, 0, 0⟩
  | .clRepPrev extra => some ⟨16, 2, extra.toNat⟩
  | .clRepZero3 extra => some ⟨17, 3, extra.toNat⟩
  | .clRepZero11 extra => some ⟨18, 7, extra.toNat⟩
  | _ => none

/-- A literal/length element (R79, R84). -/
def Instr.litLenCoded : Instr → Option Coded
  | .lit byte => some ⟨byte.toNat, 0, 0⟩
  | .eob => some ⟨256, 0, 0⟩
  | .len257 => some ⟨257, 0, 0⟩
  | .len258 => some ⟨258, 0, 0⟩
  | .len259 => some ⟨259, 0, 0⟩
  | .len260 => some ⟨260, 0, 0⟩
  | .len261 => some ⟨261, 0, 0⟩
  | .len262 => some ⟨262, 0, 0⟩
  | .len263 => some ⟨263, 0, 0⟩
  | .len264 => some ⟨264, 0, 0⟩
  | .len265 extra => some ⟨265, 1, extra.toNat⟩
  | .len266 extra => some ⟨266, 1, extra.toNat⟩
  | .len267 extra => some ⟨267, 1, extra.toNat⟩
  | .len268 extra => some ⟨268, 1, extra.toNat⟩
  | .len269 extra => some ⟨269, 2, extra.toNat⟩
  | .len270 extra => some ⟨270, 2, extra.toNat⟩
  | .len271 extra => some ⟨271, 2, extra.toNat⟩
  | .len272 extra => some ⟨272, 2, extra.toNat⟩
  | .len273 extra => some ⟨273, 3, extra.toNat⟩
  | .len274 extra => some ⟨274, 3, extra.toNat⟩
  | .len275 extra => some ⟨275, 3, extra.toNat⟩
  | .len276 extra => some ⟨276, 3, extra.toNat⟩
  | .len277 extra => some ⟨277, 4, extra.toNat⟩
  | .len278 extra => some ⟨278, 4, extra.toNat⟩
  | .len279 extra => some ⟨279, 4, extra.toNat⟩
  | .len280 extra => some ⟨280, 4, extra.toNat⟩
  | .len281 extra => some ⟨281, 5, extra.toNat⟩
  | .len282 extra => some ⟨282, 5, extra.toNat⟩
  | .len283 extra => some ⟨283, 5, extra.toNat⟩
  | .len284 extra => some ⟨284, 5, extra.toNat⟩
  | .len285 => some ⟨285, 0, 0⟩
  | .lenReserved symbol => some ⟨symbol, 0, 0⟩
  | _ => none

/-- A distance element (R80, R85). -/
def Instr.distCoded : Instr → Option Coded
  | .dist0 => some ⟨0, 0, 0⟩
  | .dist1 => some ⟨1, 0, 0⟩
  | .dist2 => some ⟨2, 0, 0⟩
  | .dist3 => some ⟨3, 0, 0⟩
  | .dist4 extra => some ⟨4, 1, extra.toNat⟩
  | .dist5 extra => some ⟨5, 1, extra.toNat⟩
  | .dist6 extra => some ⟨6, 2, extra.toNat⟩
  | .dist7 extra => some ⟨7, 2, extra.toNat⟩
  | .dist8 extra => some ⟨8, 3, extra.toNat⟩
  | .dist9 extra => some ⟨9, 3, extra.toNat⟩
  | .dist10 extra => some ⟨10, 4, extra.toNat⟩
  | .dist11 extra => some ⟨11, 4, extra.toNat⟩
  | .dist12 extra => some ⟨12, 5, extra.toNat⟩
  | .dist13 extra => some ⟨13, 5, extra.toNat⟩
  | .dist14 extra => some ⟨14, 6, extra.toNat⟩
  | .dist15 extra => some ⟨15, 6, extra.toNat⟩
  | .dist16 extra => some ⟨16, 7, extra.toNat⟩
  | .dist17 extra => some ⟨17, 7, extra.toNat⟩
  | .dist18 extra => some ⟨18, 8, extra.toNat⟩
  | .dist19 extra => some ⟨19, 8, extra.toNat⟩
  | .dist20 extra => some ⟨20, 9, extra.toNat⟩
  | .dist21 extra => some ⟨21, 9, extra.toNat⟩
  | .dist22 extra => some ⟨22, 10, extra.toNat⟩
  | .dist23 extra => some ⟨23, 10, extra.toNat⟩
  | .dist24 extra => some ⟨24, 11, extra.toNat⟩
  | .dist25 extra => some ⟨25, 11, extra.toNat⟩
  | .dist26 extra => some ⟨26, 12, extra.toNat⟩
  | .dist27 extra => some ⟨27, 12, extra.toNat⟩
  | .dist28 extra => some ⟨28, 13, extra.toNat⟩
  | .dist29 extra => some ⟨29, 13, extra.toNat⟩
  | .distReserved symbol => some ⟨symbol, 0, 0⟩
  | _ => none

/-- A coded element's bits under a tree: the symbol's code, then the extra bits (R82). -/
def Coded.bits (t : Tree) (x : Coded) : Option (List Bool) :=
  (Huffman.codeOf t x.symbol).map (fun code => code ++ fieldBits x.width x.extra)

/-- The bytes of an optional null-terminated field (R157). -/
def GzipHeader.stringBytes : Option (List Byte) → List Byte
  | some bytes => bytes ++ [0]
  | none => []

/-- The bytes of EXTRA (R156). -/
def GzipHeader.extraBytes (h : GzipHeader) : List Byte :=
  match h.extra with
  | some bytes => BitVec.ofNat 8 bytes.length :: BitVec.ofNat 8 (bytes.length / 256) :: bytes
  | none => []

/-- The bytes of HCRC (R158). -/
def GzipHeader.hcrcBytes (h : GzipHeader) : List Byte :=
  match h.hcrc with
  | some v => [v.extractLsb' 0 8, v.extractLsb' 8 8]
  | none => []

/-- A header's bytes, in the order of R150. -/
def GzipHeader.bytes (h : GzipHeader) : List Byte :=
  [0x1F, 0x8B, 8, h.flg, h.mtime.extractLsb' 0 8, h.mtime.extractLsb' 8 8, h.mtime.extractLsb' 16 8,
    h.mtime.extractLsb' 24 8, h.xfl, h.os]
    ++ h.extraBytes ++ stringBytes h.name ++ stringBytes h.comment ++ h.hcrcBytes

/-- The pad bits of a stored header at stream position pos (R71): the encoder writes zeros (log 12). -/
def padBits (pos : Nat) : List Bool :=
  List.replicate ((8 - pos % 8) % 8) false

/-- The bits of an instruction as an element of a format, at stream position pos; none where the format, or its tree, has
no such element. -/
def encode : Mode → Nat → Instr → Option (List Bool)
  | .header, _, .blkStored bfinal => some (bfinal :: fieldBits 2 0)
  | .header, _, .blkFixed bfinal => some (bfinal :: fieldBits 2 1)
  | .header, _, .blkDynamic bfinal => some (bfinal :: fieldBits 2 2)
  | .header, _, .blkReserved bfinal => some (bfinal :: fieldBits 2 3)
  | .storedHdr, pos, .storedHdr len nlen => some (padBits pos ++ fieldBits 16 len.toNat ++ fieldBits 16 nlen.toNat)
  | .storedByte, _, .storedByte data => some (fieldBits 8 data.toNat)
  | .dynHdr, _, .dynHdr hlit hdist hclen => some (fieldBits 5 hlit.toNat ++ fieldBits 5 hdist.toNat ++ fieldBits 4 hclen.toNat)
  | .dynClcl, _, .dynClcl len => some (fieldBits 3 len.toNat)
  | .clSymbol t noneYet, _, i =>
    match i.clCoded with
    | some x => if noneYet && x.symbol == 16 then none else x.bits t
    | none => none
  | .litLen t, _, i => i.litLenCoded.bind (Coded.bits t)
  | .dist t, _, i => i.distCoded.bind (Coded.bits t)
  | .gzip, _, .gzipHdr header => some (bytesBits header.bytes)
  | _, _, _ => none

/-! ### The opcode table (R88) -/

/-- One row: the ST that selects it (none for the front end), the width of its selecting value, pattern and mask, and the
number of its extra bits. -/
structure Row where
  mnemonic : String
  state    : Option Ctrl
  width    : Nat
  pattern  : Nat
  mask     : Nat
  extra    : Nat
  deriving DecidableEq, Repr

/-- The rows of the block, stored and dynamic headers. -/
def headerRows : List Row :=
  [⟨"BLK_STORED", some .hdr, 3, 0, 6, 0⟩, ⟨"BLK_FIXED", some .hdr, 3, 2, 6, 0⟩,
   ⟨"BLK_DYNAMIC", some .hdr, 3, 4, 6, 0⟩, ⟨"BLK_RESERVED", some .hdr, 3, 6, 6, 0⟩,
   ⟨"STORED_HDR", some .storedHdr, 0, 0, 0, 0⟩, ⟨"STORED_BYTE", some .storedCopy, 0, 0, 0, 0⟩,
   ⟨"DYN_HDR", some .dynHdr, 0, 0, 0, 0⟩, ⟨"DYN_CLCL", some .dynClcl, 0, 0, 0, 0⟩]

/-- The rows of the code-length alphabet. -/
def clRows : List Row :=
  [⟨"CL_LEN", some .dynLens, 5, 0, 16, 0⟩, ⟨"CL_REP_PREV", some .dynLens, 5, 16, 31, 2⟩,
   ⟨"CL_REP_ZERO3", some .dynLens, 5, 17, 31, 3⟩, ⟨"CL_REP_ZERO11", some .dynLens, 5, 18, 31, 7⟩]

/-- The rows of the literal/length alphabet. -/
def litLenRows : List Row :=
  [⟨"LIT", some .sym, 9, 0, 256, 0⟩, ⟨"EOB", some .sym, 9, 256, 511, 0⟩]
  ++ [⟨"LEN_257", some .sym, 9, 257, 511, 0⟩, ⟨"LEN_258", some .sym, 9, 258, 511, 0⟩, ⟨"LEN_259", some .sym, 9, 259, 511, 0⟩]
  ++ [⟨"LEN_260", some .sym, 9, 260, 511, 0⟩, ⟨"LEN_261", some .sym, 9, 261, 511, 0⟩, ⟨"LEN_262", some .sym, 9, 262, 511, 0⟩]
  ++ [⟨"LEN_263", some .sym, 9, 263, 511, 0⟩, ⟨"LEN_264", some .sym, 9, 264, 511, 0⟩, ⟨"LEN_265", some .sym, 9, 265, 511, 1⟩]
  ++ [⟨"LEN_266", some .sym, 9, 266, 511, 1⟩, ⟨"LEN_267", some .sym, 9, 267, 511, 1⟩, ⟨"LEN_268", some .sym, 9, 268, 511, 1⟩]
  ++ [⟨"LEN_269", some .sym, 9, 269, 511, 2⟩, ⟨"LEN_270", some .sym, 9, 270, 511, 2⟩, ⟨"LEN_271", some .sym, 9, 271, 511, 2⟩]
  ++ [⟨"LEN_272", some .sym, 9, 272, 511, 2⟩, ⟨"LEN_273", some .sym, 9, 273, 511, 3⟩, ⟨"LEN_274", some .sym, 9, 274, 511, 3⟩]
  ++ [⟨"LEN_275", some .sym, 9, 275, 511, 3⟩, ⟨"LEN_276", some .sym, 9, 276, 511, 3⟩, ⟨"LEN_277", some .sym, 9, 277, 511, 4⟩]
  ++ [⟨"LEN_278", some .sym, 9, 278, 511, 4⟩, ⟨"LEN_279", some .sym, 9, 279, 511, 4⟩, ⟨"LEN_280", some .sym, 9, 280, 511, 4⟩]
  ++ [⟨"LEN_281", some .sym, 9, 281, 511, 5⟩, ⟨"LEN_282", some .sym, 9, 282, 511, 5⟩, ⟨"LEN_283", some .sym, 9, 283, 511, 5⟩]
  ++ [⟨"LEN_284", some .sym, 9, 284, 511, 5⟩, ⟨"LEN_285", some .sym, 9, 285, 511, 0⟩, ⟨"LEN_RESERVED", some .sym, 9, 286, 510, 0⟩]

/-- The rows of the distance alphabet. -/
def distRows : List Row :=
  [⟨"DIST_0", some .dist, 5, 0, 31, 0⟩, ⟨"DIST_1", some .dist, 5, 1, 31, 0⟩, ⟨"DIST_2", some .dist, 5, 2, 31, 0⟩]
  ++ [⟨"DIST_3", some .dist, 5, 3, 31, 0⟩, ⟨"DIST_4", some .dist, 5, 4, 31, 1⟩, ⟨"DIST_5", some .dist, 5, 5, 31, 1⟩]
  ++ [⟨"DIST_6", some .dist, 5, 6, 31, 2⟩, ⟨"DIST_7", some .dist, 5, 7, 31, 2⟩, ⟨"DIST_8", some .dist, 5, 8, 31, 3⟩]
  ++ [⟨"DIST_9", some .dist, 5, 9, 31, 3⟩, ⟨"DIST_10", some .dist, 5, 10, 31, 4⟩, ⟨"DIST_11", some .dist, 5, 11, 31, 4⟩]
  ++ [⟨"DIST_12", some .dist, 5, 12, 31, 5⟩, ⟨"DIST_13", some .dist, 5, 13, 31, 5⟩, ⟨"DIST_14", some .dist, 5, 14, 31, 6⟩]
  ++ [⟨"DIST_15", some .dist, 5, 15, 31, 6⟩, ⟨"DIST_16", some .dist, 5, 16, 31, 7⟩, ⟨"DIST_17", some .dist, 5, 17, 31, 7⟩]
  ++ [⟨"DIST_18", some .dist, 5, 18, 31, 8⟩, ⟨"DIST_19", some .dist, 5, 19, 31, 8⟩, ⟨"DIST_20", some .dist, 5, 20, 31, 9⟩]
  ++ [⟨"DIST_21", some .dist, 5, 21, 31, 9⟩, ⟨"DIST_22", some .dist, 5, 22, 31, 10⟩, ⟨"DIST_23", some .dist, 5, 23, 31, 10⟩]
  ++ [⟨"DIST_24", some .dist, 5, 24, 31, 11⟩, ⟨"DIST_25", some .dist, 5, 25, 31, 11⟩, ⟨"DIST_26", some .dist, 5, 26, 31, 12⟩]
  ++ [⟨"DIST_27", some .dist, 5, 27, 31, 12⟩, ⟨"DIST_28", some .dist, 5, 28, 31, 13⟩, ⟨"DIST_29", some .dist, 5, 29, 31, 13⟩]
  ++ [⟨"DIST_RESERVED", some .dist, 5, 30, 30, 0⟩]

/-- The opcode table. -/
def rows : List Row :=
  headerRows ++ clRows ++ litLenRows ++ distRows ++ [⟨"GZIP_HDR", none, 0, 0, 0, 0⟩]

/-- The mnemonics of the rows that a control state and a selecting value match: `(value & mask) == match` (R88). -/
def rowsMatching (state : Option Ctrl) (value : Nat) : List String :=
  (rows.filter (fun r => r.state == state && (value &&& r.mask) == r.pattern)).map Row.mnemonic

/-- The mnemonic of an instruction. -/
def Instr.mnemonic : Instr → String
  | .blkStored _ => "BLK_STORED"
  | .blkFixed _ => "BLK_FIXED"
  | .blkDynamic _ => "BLK_DYNAMIC"
  | .blkReserved _ => "BLK_RESERVED"
  | .storedHdr _ _ => "STORED_HDR"
  | .storedByte _ => "STORED_BYTE"
  | .dynHdr _ _ _ => "DYN_HDR"
  | .dynClcl _ => "DYN_CLCL"
  | .clLen _ => "CL_LEN"
  | .clRepPrev _ => "CL_REP_PREV"
  | .clRepZero3 _ => "CL_REP_ZERO3"
  | .clRepZero11 _ => "CL_REP_ZERO11"
  | .lit _ => "LIT"
  | .eob => "EOB"
  | .len257 => "LEN_257"
  | .len258 => "LEN_258"
  | .len259 => "LEN_259"
  | .len260 => "LEN_260"
  | .len261 => "LEN_261"
  | .len262 => "LEN_262"
  | .len263 => "LEN_263"
  | .len264 => "LEN_264"
  | .len265 _ => "LEN_265"
  | .len266 _ => "LEN_266"
  | .len267 _ => "LEN_267"
  | .len268 _ => "LEN_268"
  | .len269 _ => "LEN_269"
  | .len270 _ => "LEN_270"
  | .len271 _ => "LEN_271"
  | .len272 _ => "LEN_272"
  | .len273 _ => "LEN_273"
  | .len274 _ => "LEN_274"
  | .len275 _ => "LEN_275"
  | .len276 _ => "LEN_276"
  | .len277 _ => "LEN_277"
  | .len278 _ => "LEN_278"
  | .len279 _ => "LEN_279"
  | .len280 _ => "LEN_280"
  | .len281 _ => "LEN_281"
  | .len282 _ => "LEN_282"
  | .len283 _ => "LEN_283"
  | .len284 _ => "LEN_284"
  | .len285 => "LEN_285"
  | .lenReserved _ => "LEN_RESERVED"
  | .dist0 => "DIST_0"
  | .dist1 => "DIST_1"
  | .dist2 => "DIST_2"
  | .dist3 => "DIST_3"
  | .dist4 _ => "DIST_4"
  | .dist5 _ => "DIST_5"
  | .dist6 _ => "DIST_6"
  | .dist7 _ => "DIST_7"
  | .dist8 _ => "DIST_8"
  | .dist9 _ => "DIST_9"
  | .dist10 _ => "DIST_10"
  | .dist11 _ => "DIST_11"
  | .dist12 _ => "DIST_12"
  | .dist13 _ => "DIST_13"
  | .dist14 _ => "DIST_14"
  | .dist15 _ => "DIST_15"
  | .dist16 _ => "DIST_16"
  | .dist17 _ => "DIST_17"
  | .dist18 _ => "DIST_18"
  | .dist19 _ => "DIST_19"
  | .dist20 _ => "DIST_20"
  | .dist21 _ => "DIST_21"
  | .dist22 _ => "DIST_22"
  | .dist23 _ => "DIST_23"
  | .dist24 _ => "DIST_24"
  | .dist25 _ => "DIST_25"
  | .dist26 _ => "DIST_26"
  | .dist27 _ => "DIST_27"
  | .dist28 _ => "DIST_28"
  | .dist29 _ => "DIST_29"
  | .distReserved _ => "DIST_RESERVED"
  | .gzipHdr _ => "GZIP_HDR"

/-- The ST that selects an instruction's format, and its selecting value (R88): H for a block header, the decoded symbol
for a Huffman-coded element, 0 where ST alone selects. -/
def Instr.selector : Instr → Option Ctrl × Nat
  | .blkStored bfinal => (some .hdr, bfinal.toNat)
  | .blkFixed bfinal => (some .hdr, bfinal.toNat + 2)
  | .blkDynamic bfinal => (some .hdr, bfinal.toNat + 4)
  | .blkReserved bfinal => (some .hdr, bfinal.toNat + 6)
  | .storedHdr _ _ => (some .storedHdr, 0)
  | .storedByte _ => (some .storedCopy, 0)
  | .dynHdr _ _ _ => (some .dynHdr, 0)
  | .dynClcl _ => (some .dynClcl, 0)
  | .clLen len => (some .dynLens, len.toNat)
  | .clRepPrev _ => (some .dynLens, 16)
  | .clRepZero3 _ => (some .dynLens, 17)
  | .clRepZero11 _ => (some .dynLens, 18)
  | .lit byte => (some .sym, byte.toNat)
  | .eob => (some .sym, 256)
  | .len257 => (some .sym, 257)
  | .len258 => (some .sym, 258)
  | .len259 => (some .sym, 259)
  | .len260 => (some .sym, 260)
  | .len261 => (some .sym, 261)
  | .len262 => (some .sym, 262)
  | .len263 => (some .sym, 263)
  | .len264 => (some .sym, 264)
  | .len265 _ => (some .sym, 265)
  | .len266 _ => (some .sym, 266)
  | .len267 _ => (some .sym, 267)
  | .len268 _ => (some .sym, 268)
  | .len269 _ => (some .sym, 269)
  | .len270 _ => (some .sym, 270)
  | .len271 _ => (some .sym, 271)
  | .len272 _ => (some .sym, 272)
  | .len273 _ => (some .sym, 273)
  | .len274 _ => (some .sym, 274)
  | .len275 _ => (some .sym, 275)
  | .len276 _ => (some .sym, 276)
  | .len277 _ => (some .sym, 277)
  | .len278 _ => (some .sym, 278)
  | .len279 _ => (some .sym, 279)
  | .len280 _ => (some .sym, 280)
  | .len281 _ => (some .sym, 281)
  | .len282 _ => (some .sym, 282)
  | .len283 _ => (some .sym, 283)
  | .len284 _ => (some .sym, 284)
  | .len285 => (some .sym, 285)
  | .lenReserved symbol => (some .sym, symbol)
  | .dist0 => (some .dist, 0)
  | .dist1 => (some .dist, 1)
  | .dist2 => (some .dist, 2)
  | .dist3 => (some .dist, 3)
  | .dist4 _ => (some .dist, 4)
  | .dist5 _ => (some .dist, 5)
  | .dist6 _ => (some .dist, 6)
  | .dist7 _ => (some .dist, 7)
  | .dist8 _ => (some .dist, 8)
  | .dist9 _ => (some .dist, 9)
  | .dist10 _ => (some .dist, 10)
  | .dist11 _ => (some .dist, 11)
  | .dist12 _ => (some .dist, 12)
  | .dist13 _ => (some .dist, 13)
  | .dist14 _ => (some .dist, 14)
  | .dist15 _ => (some .dist, 15)
  | .dist16 _ => (some .dist, 16)
  | .dist17 _ => (some .dist, 17)
  | .dist18 _ => (some .dist, 18)
  | .dist19 _ => (some .dist, 19)
  | .dist20 _ => (some .dist, 20)
  | .dist21 _ => (some .dist, 21)
  | .dist22 _ => (some .dist, 22)
  | .dist23 _ => (some .dist, 23)
  | .dist24 _ => (some .dist, 24)
  | .dist25 _ => (some .dist, 25)
  | .dist26 _ => (some .dist, 26)
  | .dist27 _ => (some .dist, 27)
  | .dist28 _ => (some .dist, 28)
  | .dist29 _ => (some .dist, 29)
  | .distReserved symbol => (some .dist, symbol)
  | .gzipHdr _ => (none, 0)

/-! ### Words of the opcode table (log 13)

A table word is a SELECTING VALUE (R88), not stream bits, and a row is selected by ST and that value together. `tableCtrl`
says in which ST a table word is read: the number of bits tells the literal/length rows (9) from the rest, and within one
byte a value that both a 3-bit or code-length row and a distance row could match goes to the former. -/

/-- The ST in which a table word of nbits bits is read (log 13). -/
def tableCtrl (nbits w : Nat) : Ctrl :=
  if nbits = 0 then .dynHdr
  else if nbits ≤ 3 then .hdr
  else if nbits ≤ 8 then
    if 5 < nbits ∧ w < 8 ∧ w % 2 = 0 then .hdr
    else if nbits ≤ 5 ∧ w = 0 then .dynLens
    else if 16 ≤ w ∧ w ≤ 18 then .dynLens
    else .dist
  else .sym

/-- The code-length tree a code-length table word is read under: all 19 symbols with length 5, so the code of s is s. -/
def tableClTree : Tree :=
  match Huffman.build (List.replicate 19 5) with
  | .ok t => t
  | .error _ => .emptyRoot

/-- The format of a table word. -/
def tableMode : Ctrl → Mode
  | .hdr => .header
  | .dynLens => .clSymbol tableClTree false
  | .sym => .litLen Huffman.fixedLitLen
  | .dist => .dist Huffman.fixedDist
  | _ => .dynHdr

/-- The fixed literal/length code of a symbol (30_encoding.md R86). -/
def fixedLitLenCode (s : Nat) : List Bool :=
  if s < 144 then Huffman.codePath (0x30 + s) 8
  else if s < 256 then Huffman.codePath (0x190 + (s - 144)) 9
  else if s < 280 then Huffman.codePath (s - 256) 7
  else Huffman.codePath (0xC0 + (s - 280)) 8

/-- The stream bits of a table word: its field or code, then zeros up to the longest element (40 bits). -/
def tableBits (ctrl : Ctrl) (w : Nat) : Option (List Bool) :=
  let zeros := List.replicate 40 false
  match ctrl with
  | .hdr => if w < 8 then some ((fieldBits 3 w ++ zeros).take 40) else none
  | .dynLens => if w < 19 then some ((Huffman.codePath w 5 ++ zeros).take 40) else none
  | .sym => if w < 288 then some ((fixedLitLenCode w ++ zeros).take 40) else none
  | .dist => if w < 32 then some ((Huffman.codePath w 5 ++ zeros).take 40) else none
  | _ => if w = 0 then some zeros else none

/-- The instruction the decoder reads from a table word. -/
def decodeTableWord (nbits w : Nat) : Option Instr :=
  match tableBits (tableCtrl nbits w) w with
  | none => none
  | some bits =>
    match decode (tableMode (tableCtrl nbits w)) (Cursor.store ⟨[], 0, 0⟩ bits) with
    | .instr i _ => some i
    | .rejected _ _ _ => none

end Sys2Proof
end

