-- ==== Sys2Proof/Machine/FrontEnd.lean ====
section
/-! DEFINITION. The gzip front end's effect (42_gzip_front_end.md). The parse is `decodeGzip`; this is what its result does. -/

namespace Sys2Proof

/-- S, the byte offset of the first DEFLATE bit (R158): the header's size in bytes. -/
def GzipHeader.size (h : GzipHeader) : Nat := h.bytes.length

namespace Machine

/-- The host's reset of the core with the member's IN and N and the front end's S (R158), the result kept beside it. -/
def State.startMember (s : State) (h : GzipHeader) : State :=
  { State.atReset s.member.input s.member.len h.size with frontEnd := .accepted h h.size }

/-- GZIP_HDR: Ok(fields, S), and the reset the host then applies with that S (log 4). A header longer than the
member, which no parse yields, would break reset's precondition (log 9). -/
def execGzipHdr (h : GzipHeader) (s : State) : Result :=
  if h.size ≤ s.member.len then .next (s.startMember h) else .refused .startBeyondInput

/-- Err(kind, reason, errpos) (R159, R160): the core is not started and its registers stay as they are (log 5). -/
def State.failMember (s : State) (kind : ErrKind) (reason : Option HeaderReason) (errpos : Nat) : State :=
  { s with frontEnd := .failed kind reason errpos }

end Machine

end Sys2Proof
end

