-- ==== Sys2Proof/Machine/Stored.lean ====
section
/-! DEFINITION. Stored blocks (44_stored.md). -/

namespace Sys2Proof.Machine

/-- SREM <- n. -/
def State.setSrem (s : State) (n : BitVec 16) : State := { s with srem := n }

/-- The end of a STORED_COPY step (R191): the block ends when SREM has come down to 0. -/
def State.closeStored (s : State) : State :=
  if s.srem = 0 then s.endBlock else s

/-- STORED_HDR (R190): the check, SREM, and the end of an empty block. -/
def execStoredHdr (len nlen : BitVec 16) (s : State) : Result :=
  if lengthCheck len nlen then
    if len = 0 then .next (s.setSrem len).endBlock else .next ((s.setSrem len).goto .storedCopy)
  else .next (s.raise .lengthCheckFailed)

/-- STORED_BYTE (R191). -/
def execStoredByte (v : Byte) (s : State) : Result :=
  if s.srem = 0 then .fault .counterEmpty
  else .next ((s.emit v).setSrem (s.srem - 1)).closeStored

end Sys2Proof.Machine
end

