-- ==== Sys2Proof/Machine/SymbolLoop.lean ====
section
/-! DEFINITION. The literal/length symbols (46_symbol_loop.md R230 to R234). POS already stands after the symbol's code and its extra
bits. -/

namespace Sys2Proof.Machine

/-- LIT (R231): ST stays as it is. -/
def execLit (v : Byte) (s : State) : Result := .next (s.emit v)

/-- EOB (R232). -/
def execEob (s : State) : Result := .next s.endBlock

/-- LEN_257 (R233, R84): lengths 3. -/
def execLen257 (s : State) : Result := .next (startMatch 257 0 s)

/-- LEN_258 (R233, R84): lengths 4. -/
def execLen258 (s : State) : Result := .next (startMatch 258 0 s)

/-- LEN_259 (R233, R84): lengths 5. -/
def execLen259 (s : State) : Result := .next (startMatch 259 0 s)

/-- LEN_260 (R233, R84): lengths 6. -/
def execLen260 (s : State) : Result := .next (startMatch 260 0 s)

/-- LEN_261 (R233, R84): lengths 7. -/
def execLen261 (s : State) : Result := .next (startMatch 261 0 s)

/-- LEN_262 (R233, R84): lengths 8. -/
def execLen262 (s : State) : Result := .next (startMatch 262 0 s)

/-- LEN_263 (R233, R84): lengths 9. -/
def execLen263 (s : State) : Result := .next (startMatch 263 0 s)

/-- LEN_264 (R233, R84): lengths 10. -/
def execLen264 (s : State) : Result := .next (startMatch 264 0 s)

/-- LEN_265 (R233, R84): lengths 11..12. -/
def execLen265 (e : BitVec 1) (s : State) : Result := .next (startMatch 265 e.toNat s)

/-- LEN_266 (R233, R84): lengths 13..14. -/
def execLen266 (e : BitVec 1) (s : State) : Result := .next (startMatch 266 e.toNat s)

/-- LEN_267 (R233, R84): lengths 15..16. -/
def execLen267 (e : BitVec 1) (s : State) : Result := .next (startMatch 267 e.toNat s)

/-- LEN_268 (R233, R84): lengths 17..18. -/
def execLen268 (e : BitVec 1) (s : State) : Result := .next (startMatch 268 e.toNat s)

/-- LEN_269 (R233, R84): lengths 19..22. -/
def execLen269 (e : BitVec 2) (s : State) : Result := .next (startMatch 269 e.toNat s)

/-- LEN_270 (R233, R84): lengths 23..26. -/
def execLen270 (e : BitVec 2) (s : State) : Result := .next (startMatch 270 e.toNat s)

/-- LEN_271 (R233, R84): lengths 27..30. -/
def execLen271 (e : BitVec 2) (s : State) : Result := .next (startMatch 271 e.toNat s)

/-- LEN_272 (R233, R84): lengths 31..34. -/
def execLen272 (e : BitVec 2) (s : State) : Result := .next (startMatch 272 e.toNat s)

/-- LEN_273 (R233, R84): lengths 35..42. -/
def execLen273 (e : BitVec 3) (s : State) : Result := .next (startMatch 273 e.toNat s)

/-- LEN_274 (R233, R84): lengths 43..50. -/
def execLen274 (e : BitVec 3) (s : State) : Result := .next (startMatch 274 e.toNat s)

/-- LEN_275 (R233, R84): lengths 51..58. -/
def execLen275 (e : BitVec 3) (s : State) : Result := .next (startMatch 275 e.toNat s)

/-- LEN_276 (R233, R84): lengths 59..66. -/
def execLen276 (e : BitVec 3) (s : State) : Result := .next (startMatch 276 e.toNat s)

/-- LEN_277 (R233, R84): lengths 67..82. -/
def execLen277 (e : BitVec 4) (s : State) : Result := .next (startMatch 277 e.toNat s)

/-- LEN_278 (R233, R84): lengths 83..98. -/
def execLen278 (e : BitVec 4) (s : State) : Result := .next (startMatch 278 e.toNat s)

/-- LEN_279 (R233, R84): lengths 99..114. -/
def execLen279 (e : BitVec 4) (s : State) : Result := .next (startMatch 279 e.toNat s)

/-- LEN_280 (R233, R84): lengths 115..130. -/
def execLen280 (e : BitVec 4) (s : State) : Result := .next (startMatch 280 e.toNat s)

/-- LEN_281 (R233, R84): lengths 131..162. -/
def execLen281 (e : BitVec 5) (s : State) : Result := .next (startMatch 281 e.toNat s)

/-- LEN_282 (R233, R84): lengths 163..194. -/
def execLen282 (e : BitVec 5) (s : State) : Result := .next (startMatch 282 e.toNat s)

/-- LEN_283 (R233, R84): lengths 195..226. -/
def execLen283 (e : BitVec 5) (s : State) : Result := .next (startMatch 283 e.toNat s)

/-- LEN_284 (R233, R84): lengths 227..258. -/
def execLen284 (e : BitVec 5) (s : State) : Result := .next (startMatch 284 e.toNat s)

/-- LEN_285 (R233, R84): lengths 258. -/
def execLen285 (s : State) : Result := .next (startMatch 285 0 s)

/-- LEN_RESERVED, symbols 286 and 287 (R234): no extra bits are read. -/
def execLenReserved (_symbol : Nat) (s : State) : Result := .next (s.raise .corruptLengthCode)

end Sys2Proof.Machine
end

