-- ==== Sys2Proof/Machine/Fetch.lean ====
section
/-! DEFINITION. Fetching an element: the format that ST selects, its decode at POS, and what a rejected element does. -/

namespace Sys2Proof.Machine

/-- The format of the element that a step of this ST reads (43_block_control.md R176). The states that read none
(DYN_CLTREE, DYN_TREES, COPY, DONE, ERROR) are answered by `none`; a tree register that is NONE is a fault. -/
def State.mode (s : State) : Except Fault (Option Mode) :=
  let decoding (t : Option Tree) (m : Tree → Mode) : Except Fault (Option Mode) :=
    match t with
    | none => .error .treeNotLoaded
    | some t => .ok (some (m t))
  match s.st with
  | .hdr => .ok (some .header)
  | .storedHdr => .ok (some .storedHdr)
  | .storedCopy => .ok (some .storedByte)
  | .dynHdr => .ok (some .dynHdr)
  | .dynClcl => .ok (some .dynClcl)
  | .dynLens => decoding s.clt (fun t => .clSymbol t (s.li == 0))
  | .sym => decoding s.llt .litLen
  | .dist => decoding s.dt .dist
  | .dynClTree | .dynTrees | .copy | .done | .error => .ok none

/-- The registers that a rejected element's step has by then written (R172, R284). -/
def State.keep (s : State) : Kept → State
  | .nothing => s
  | .bfinal f => s.setFinal f
  | .hlit v => { s with hlit := hlitOf v }
  | .hlitHdist v w => { s with hlit := hlitOf v, hdist := hdistOf w }

/-- The error of the stream that a rejection is (60_exceptions.md R281); none for `noSuchSymbol`, which no stream causes. -/
def rejectKind : Reject → Option ErrKind
  | .endOfStream => some .unexpectedEndOfStream
  | .incompleteTree => some .incompleteTree
  | .noPreviousLength => some .invalidRunLength
  | .header _ => some .corruptHeader
  | .noSuchSymbol => none

/-- A rejection's header reason (R160). -/
def rejectReason : Reject → Option HeaderReason
  | .header reason => some reason
  | _ => none

/-- What a fetch gives: an instruction with POS after its element, a state in which the step has raised, or a fault. -/
inductive Fetched where
  | instr (i : Instr) (s : State)
  | stopped (s : State)
  | fault (f : Fault)
  deriving DecidableEq, Repr

/-- Fetch an element of a format at POS (log 6). -/
def fetch (m : Mode) (s : State) : Fetched :=
  match decode m s.cursor with
  | .instr i c => .instr i (s.atPos c.pos)
  | .rejected why kept c =>
    match rejectKind why with
    | some kind => .stopped (((s.keep kept).atPos c.pos).raise kind)
    | none => .fault .noSuchSymbol

/-- The front end's fetch: the header at byte 0 of the member (R151). The core's POS stays. -/
def fetchGzip (s : State) : Fetched :=
  match decode .gzip s.member with
  | .instr i _ => .instr i s
  | .rejected why _ c =>
    match rejectKind why with
    | some kind => .stopped (s.failMember kind (rejectReason why) c.pos)
    | none => .fault .noSuchSymbol

end Sys2Proof.Machine
end

