-- ==== Sys2Proof/Machine/WindowCopy.lean ====
section
/-! DEFINITION. The back-reference copy (47_window_copy.md): one byte per COPY step. -/

namespace Sys2Proof.Machine

/-- CPLEN <- n. -/
def State.setCplen (s : State) (n : BitVec 9) : State := { s with cplen := n }

/-- The end of a COPY step (R264): back to SYM when CPLEN has come down to 0. -/
def State.closeCopy (s : State) : State :=
  if s.cplen = 0 then s.goto .sym else s

/-- stepCopy() (R264): the read comes before the write, and no stream bits are read. -/
def stepCopy (s : State) : Result :=
  if s.cplen = 0 then .fault .counterEmpty
  else
    match s.winRead (windowIndex s.emitted s.cpdist.toNat) with
    | none => .fault .windowUnwritten
    | some v => .next ((s.emit v).setCplen (s.cplen - 1)).closeCopy

end Sys2Proof.Machine
end

