-- ==== Sys2Proof/Machine/Step.lean ====
section
/-! DEFINITION. One step (43_block_control.md R176), and how a table word is laid where the next step fetches. -/

namespace Sys2Proof.Machine

/-- Run what was fetched. -/
def runFetched : Fetched → Result
  | .instr i s => exec i s
  | .stopped s => .next s
  | .fault f => .fault f

/-- A step that reads no element: the internal actions of DYN_CLTREE, DYN_TREES and COPY. In DONE and ERROR a step request
changes nothing (R180, 60_exceptions.md R285; log 8). The other control states read an element (`State.mode`). -/
def internalStep (s : State) : Result :=
  match s.st with
  | .dynClTree => stepDynClTree s
  | .dynTrees => stepDynTrees s
  | .copy => stepCopy s
  | _ => .next s

/-- A step of the core (R176): the element that ST selects, or an internal action. -/
def coreStep (s : State) : Result :=
  match s.mode with
  | .error f => .fault f
  | .ok (some m) => runFetched (fetch m s)
  | .ok none => internalStep s

/-- step(): the front end where the host has asked for it; nothing where it has failed, since the core is then not started
(42_gzip_front_end.md R160); else a step of the core. -/
def step (s : State) : Host.Outcome State Fault Refusal :=
  match s.frontEnd with
  | .requested _ _ => runFetched (fetchGzip s)
  | .failed _ _ _ => .next s
  | .unused => coreStep s
  | .accepted _ _ => coreStep s

/-- The registers that reading in a control state takes, for a table word (log 13): the tree of a Huffman-coded element, and
an LI above 0, without which no element is CL_REP_PREV (R205). -/
def State.readyFor (s : State) (ctrl : Ctrl) : State :=
  match ctrl with
  | .sym => { s with st := .sym, llt := some Huffman.fixedLitLen }
  | .dist => { s with st := .dist, dt := some Huffman.fixedDist }
  | .dynLens => { s with st := .dynLens, clt := some tableClTree, li := if s.li = 0 then 1 else s.li }
  | ctrl => s.goto ctrl

/-- s with a table word's bits in IN from POS on, in the control state that reads it. -/
def State.withFetchWord (s : State) (nbits w : Nat) : State :=
  match tableBits (tableCtrl nbits w) w with
  | none => s
  | some bits =>
    let c := s.cursor.store bits
    let s := s.readyFor (tableCtrl nbits w)
    { s with input := c.input, inLen := c.len, frontEnd := .unused }

end Sys2Proof.Machine
end

