-- ==== Sys2Proof/Safety.lean ====
section
/-! DEFINITION. What counts as a legal state and a safe run: the legal values of 10_state.md R21, the lifetimes of R30, and the window's
contents of R34. Every run from a launch stays legal, and a legal state has a next step. -/

namespace Sys2Proof.Machine

/-- IN is a byte array of N bytes in canonical form (20_memory.md R50). -/
abbrev State.inputOk (s : State) : Prop :=
  Memory.wf Config.inputUnlisted s.input = true ∧ Memory.below s.inLen s.input = true

/-- So is the array that the front end reads (42_gzip_front_end.md R151). -/
abbrev State.memberOk (s : State) : Prop :=
  Memory.wf Config.inputUnlisted s.member.input = true ∧ Memory.below s.member.len s.member.input = true

/-- 0 ≤ S ≤ N and 8·S ≤ POS ≤ 8·N (00_scope.md R9, 40_bitcursor.md R107). -/
abbrev State.posOk (s : State) : Prop :=
  s.start ≤ s.inLen ∧ 8 * s.start ≤ s.pos ∧ s.pos ≤ 8 * s.inLen

/-- BTYPE 3 is never retained (R21). -/
abbrev State.blockOk (s : State) : Prop := s.btype ≠ 3

/-- EMITTED is the length of OUT (47_window_copy.md R265), and each of the last 32768 bytes k of OUT stands in
WIN[k mod 32768] (R34, 20_memory.md R58). -/
abbrev State.windowOk (s : State) : Prop :=
  Memory.wf Config.windowUnlisted s.win = true ∧ Memory.below Config.windowSize s.win = true ∧
  s.emitted = s.out.length ∧
  ∀ k, k < s.emitted → s.emitted ≤ k + Config.windowSize → s.winRead (k % Config.windowSize) = s.out[k]?

/-- ERRK is NONE exactly outside ERROR, is never CorruptHeader (60_exceptions.md R281), and at ERROR, ERRPOS is POS (R283). -/
abbrev State.errorOk (s : State) : Prop :=
  (s.st = .error ↔ s.errk ≠ .none) ∧ s.errk ≠ .corruptHeader ∧ (s.st = .error → s.errpos = s.pos)

/-- A tree register holds NONE, or a rooted tree over the symbols below a bound (R21, R29). -/
def treeLegal (bound : Nat) : Option Tree → Bool
  | none => true
  | some t => t.rooted && t.symbolsBelow bound

/-- The three tree registers' legal values (R21). -/
abbrev State.treesLegal (s : State) : Prop :=
  treeLegal Config.clSymbols s.clt = true ∧ treeLegal Config.litLenSymbols s.llt = true ∧
  treeLegal Config.distSymbols s.dt = true

/-- The tree lifetimes (R30): CLT in DYN_LENS and DYN_TREES, LLT and DT in SYM, DIST and COPY, none elsewhere but in ERROR. -/
abbrev State.treesInPlace (s : State) : Prop :=
  (s.st ∈ [Ctrl.dynLens, .dynTrees] → s.clt.isSome = true ∧ s.llt = none ∧ s.dt = none) ∧
  (s.st ∈ [Ctrl.sym, .dist, .copy] → s.clt = none ∧ s.llt.isSome = true ∧ s.dt.isSome = true) ∧
  (s.st ∈ [Ctrl.hdr, .storedHdr, .storedCopy, .dynHdr, .dynClcl, .dynClTree, .done] →
    s.clt = none ∧ s.llt = none ∧ s.dt = none)

/-- SREM is 1..65535 in STORED_COPY, where POS is byte aligned (R21, 44_stored.md R191). -/
abbrev State.storedOk (s : State) : Prop :=
  s.st = .storedCopy → s.srem ≠ 0 ∧ s.pos % 8 = 0

/-- HLIT, HDIST and HCLEN in their ranges (R21). -/
abbrev State.countsOk (s : State) : Prop :=
  257 ≤ s.hlit.toNat ∧ s.hlit.toNat ≤ 288 ∧ 1 ≤ s.hdist.toNat ∧ s.hdist.toNat ≤ 32 ∧
  4 ≤ s.hclen.toNat ∧ s.hclen.toNat ≤ 19

/-- The dynamic header's counters (45_dynamic.md R201, R203): CI < HCLEN in DYN_CLCL, LI < HLIT + HDIST in DYN_LENS, and
LI = HLIT + HDIST in DYN_TREES. -/
abbrev State.dynamicOk (s : State) : Prop :=
  (s.st ∈ [Ctrl.dynClcl, .dynClTree, .dynLens, .dynTrees] → s.countsOk) ∧
  (s.st = .dynClcl → s.ci.toNat < s.hclen.toNat) ∧
  (s.st = .dynLens → s.li.toNat < s.lensTotal) ∧
  (s.st = .dynTrees → s.li.toNat = s.lensTotal)

/-- CPLEN and CPDIST in their ranges: 3..258 on entry to DIST, 1..258 in COPY with 1 ≤ CPDIST ≤ min(EMITTED, 32768)
(R21, 46_symbol_loop.md R233, R237). -/
abbrev State.matchOk (s : State) : Prop :=
  (s.st = .dist → 3 ≤ s.cplen.toNat ∧ s.cplen.toNat ≤ 258) ∧
  (s.st = .copy → 1 ≤ s.cplen.toNat ∧ s.cplen.toNat ≤ 258 ∧
    1 ≤ s.cpdist.toNat ∧ s.cpdist.toNat ≤ s.emitted ∧ s.cpdist.toNat ≤ Config.windowSize)

/-- The core runs unless the front end is still to run or has failed (42_gzip_front_end.md R160; log 4). -/
def State.coreStarted (s : State) : Bool :=
  match s.frontEnd with
  | .unused => true
  | .accepted _ _ => true
  | .requested _ _ => false
  | .failed _ _ _ => false

/-- The core's registers hold legal values (R21). -/
structure State.CoreLegal (s : State) : Prop where
  pos          : s.posOk
  block        : s.blockOk
  window       : s.windowOk
  error        : s.errorOk
  treesLegal   : s.treesLegal
  treesInPlace : s.treesInPlace
  stored       : s.storedOk
  dynamic      : s.dynamicOk
  copying      : s.matchOk

/-- The invariant: IN and the front end's array are byte arrays, and the core's registers are legal once it is started. -/
structure Inv (s : State) : Prop where
  input  : s.inputOk
  member : s.memberOk
  core   : s.coreStarted = true → s.CoreLegal

/-- A run has ended (43_block_control.md R180, 60_exceptions.md R285). -/
def State.ended (s : State) : Bool :=
  s.st == .done || s.st == .error

/-- The states a step may lead to (43_block_control.md R171), beside ERROR. -/
def allowedNext : Ctrl → List Ctrl
  | .hdr => [.storedHdr, .sym, .dynHdr]
  | .storedHdr => [.storedCopy, .hdr, .done]
  | .storedCopy => [.storedCopy, .hdr, .done]
  | .dynHdr => [.dynClcl]
  | .dynClcl => [.dynClcl, .dynClTree]
  | .dynClTree => [.dynLens]
  | .dynLens => [.dynLens, .dynTrees]
  | .dynTrees => [.sym]
  | .sym => [.sym, .hdr, .done, .dist]
  | .dist => [.copy]
  | .copy => [.copy, .sym]
  | .done => []
  | .error => []

/-- The errors a step may raise (60_exceptions.md R282). -/
def mayRaise : Ctrl → List ErrKind
  | .hdr => [.unexpectedEndOfStream, .corruptBlock]
  | .storedHdr => [.unexpectedEndOfStream, .lengthCheckFailed]
  | .storedCopy => [.unexpectedEndOfStream]
  | .dynHdr => [.unexpectedEndOfStream]
  | .dynClcl => [.unexpectedEndOfStream]
  | .dynClTree => [.invalidTreeShape, .duplicateCode]
  | .dynLens => [.unexpectedEndOfStream, .incompleteTree, .invalidRunLength]
  | .dynTrees => [.invalidTreeShape, .duplicateCode]
  | .sym => [.unexpectedEndOfStream, .incompleteTree, .corruptLengthCode]
  | .dist => [.unexpectedEndOfStream, .incompleteTree, .invalidDistance]
  | .copy => []
  | .done => []
  | .error => []

end Sys2Proof.Machine
end

