-- ==== Sys2Proof/Certificates/Slice0/Obligations.lean ====
section
/-! DEFINITION. The statements for the provers. An equation `t = { s with … }` in a statement is its frame: every register not named
in it, OUT, IN and the window are as before. -/

open Sys2Proof Sys2Proof.Machine

namespace Sys2Proof.Certificates

/-- The state that raising an error leaves (60_exceptions.md R283), written out. -/
def raisedState (s : State) (k : ErrKind) : State := { s with errk := k, errpos := s.pos, st := .error }

/-- One byte v has been output between s and t (47_window_copy.md R262): OUT, EMITTED, the cell EMITTED mod 32768, and no other
cell of the window. -/
def Emits (s : State) (v : Byte) (t : State) : Prop :=
  t.out = s.out ++ [v] ∧ t.emitted = s.emitted + 1 ∧ t.winRead (s.emitted % 32768) = some v ∧
  ∀ a, a ≠ s.emitted % 32768 → t.winRead a = s.winRead a

/-- The end of a block (43_block_control.md R178): the trees are NONE, and ST is DONE or HDR by BFINAL. -/
def BlockEnded (s t : State) : Prop :=
  t.clt = none ∧ t.llt = none ∧ t.dt = none ∧ t.st = (if s.bfinal then .done else .hdr)

/-- A length instruction sets CPLEN to this length and goes to DIST, and changes nothing else. -/
def LengthRow (i : Instr) (length : Nat) : Prop :=
  ∀ s, ∃ t, exec i s = .next t ∧ t.cplen.toNat = length ∧ t.st = .dist ∧
    t = { s with cplen := t.cplen, st := t.st }

/-- A distance instruction with this distance: CPDIST and COPY where the distance does not exceed EMITTED, else
InvalidDistance. -/
def DistanceRow (i : Instr) (dist : Nat) : Prop :=
  ∀ s, (dist ≤ s.emitted → ∃ t, exec i s = .next t ∧ t.cpdist.toNat = dist ∧ t.st = .copy ∧
      t = { s with cpdist := t.cpdist, st := t.st }) ∧
    (s.emitted < dist → exec i s = .next (raisedState s .invalidDistance))

/-- What fill(v, r) does to s (45_dynamic.md R209), with the end of the step (R203): within HLIT + HDIST exactly
LENS[LI .. LI + r) takes v, and past it InvalidRunLength is raised and nothing is written. -/
def Fills (result : Result) (s : State) (v : BitVec 4) (r : Nat) : Prop :=
  (s.li.toNat + r ≤ s.hlit.toNat + s.hdist.toNat → s.hlit.toNat + s.hdist.toNat ≤ 320 →
    ∃ t, result = .next t ∧ t.li.toNat = s.li.toNat + r ∧
      (∀ j, (h : j < 320) → t.lens[j] = if s.li.toNat ≤ j ∧ j < s.li.toNat + r then v else s.lens[j]) ∧
      t.st = (if s.li.toNat + r = s.hlit.toNat + s.hdist.toNat then .dynTrees else s.st) ∧
      t = { s with lens := t.lens, li := t.li, st := t.st }) ∧
  (s.hlit.toNat + s.hdist.toNat < s.li.toNat + r → result = .next (raisedState s .invalidRunLength))

/-- LENS[LI - 1], the last entry written (45_dynamic.md R205). -/
def lastEntry (s : State) : BitVec 4 := s.lens.toList.getD (s.li.toNat - 1) 0

/-- PERM (30_encoding.md R78), written out. -/
def permutedOrder : List Nat := [16, 17, 18, 0, 8, 7, 9, 6, 10, 5, 11, 4, 12, 3, 13, 2, 14, 1, 15]

/-- One code-length-code length v has been read between s and t (45_dynamic.md R201): CLCL[PERM[CI]], CI, ST, and no other entry. -/
def PutsLength (s : State) (v : BitVec 3) (t : State) : Prop :=
  (∃ p, permutedOrder[s.ci.toNat]? = some p ∧
    ∀ k, (h : k < 19) → t.clcl[k] = if k = p then v else s.clcl[k]) ∧
  t.ci.toNat = s.ci.toNat + 1 ∧ t.st = (if s.ci.toNat + 1 = s.hclen.toNat then .dynClTree else s.st)

/-- Σ 2^(15 - L[s]) over the used symbols: 2^15 times the Kraft sum (41_huffman.md R127). -/
def kraft (lengths : List Nat) : Nat := (lengths.map (fun l => if l = 0 then 0 else 2 ^ (15 - l))).sum

/-- Byte n of a header is the second one of a field that is read as 16 bits: MTIME's two halves, XLEN and HCRC
(42_gzip_front_end.md R151). Every other read of the front end is one byte. -/
def secondOfTwo (h : GzipHeader) (n : Nat) : Prop :=
  n = 5 ∨ n = 7 ∨ (n = 11 ∧ h.extra.isSome = true) ∨ (n + 1 = h.bytes.length ∧ h.hcrc.isSome = true)

/-- The front end has failed and nothing else has changed (42_gzip_front_end.md R160). -/
def failedState (s : State) (k : ErrKind) (r : Option HeaderReason) (p : Nat) : State := { s with frontEnd := .failed k r p }

end Sys2Proof.Certificates

open Sys2Proof.Certificates

/-- Words written out from the spec decode to the instructions they stand for -/
def Obligations.SpecWordsDecode : Prop :=
  decode .header ⟨[(0, 0x07)], 1, 0⟩ = .instr (.blkReserved true) ⟨[(0, 0x07)], 1, 3⟩ ∧
  decode .header ⟨[(0, 0x03)], 2, 0⟩ = .instr (.blkFixed true) ⟨[(0, 0x03)], 2, 3⟩ ∧
  decode .storedHdr ⟨[(0, 0x01), (1, 0x03), (3, 0xFC), (4, 0xFF)], 5, 3⟩ =
    .instr (.storedHdr 3 0xFFFC) ⟨[(0, 0x01), (1, 0x03), (3, 0xFC), (4, 0xFF)], 5, 40⟩ ∧
  decode .dynHdr ⟨[(0, 0x05), (1, 0xC0), (2, 0x81)], 3, 3⟩ =
    .instr (.dynHdr 0 0 14) ⟨[(0, 0x05), (1, 0xC0), (2, 0x81)], 3, 17⟩ ∧
  decode (.litLen Huffman.fixedLitLen) ⟨[(0, 0x73), (1, 0x44)], 4, 3⟩ =
    .instr (.lit 0x41) ⟨[(0, 0x73), (1, 0x44)], 4, 11⟩ ∧
  decode (.litLen Huffman.fixedLitLen) ⟨[(0, 0x73), (1, 0x44)], 4, 11⟩ =
    .instr .len264 ⟨[(0, 0x73), (1, 0x44)], 4, 18⟩ ∧
  decode (.dist Huffman.fixedDist) ⟨[(0, 0x73), (1, 0x44)], 4, 18⟩ =
    .instr .dist0 ⟨[(0, 0x73), (1, 0x44)], 4, 23⟩ ∧
  decode (.litLen Huffman.fixedLitLen) ⟨[(0, 0x63), (1, 0x18), (2, 0xF9)], 5, 11⟩ =
    .instr (.len284 31) ⟨[(0, 0x63), (1, 0x18), (2, 0xF9)], 5, 24⟩

/-- Decode and encode agree: an encoded well-formed instruction decodes to itself -/
def Obligations.DecodeOfEncodeIsTheInstruction : Prop :=
  ∀ (m : Mode) (i : Instr) (c : Cursor) (bits : List Bool),
    i.wf = true → encode m c.pos i = some bits → c.Holds bits →
    decode m c = .instr i (c.advance bits.length)

/-- Every well-formed instruction has an encoding in some format -/
def Obligations.EveryInstructionHasAnEncoding : Prop :=
  ∀ i : Instr, i.wf = true → ∃ m, ∀ pos, ∃ bits, encode m pos i = some bits

/-- A step runs the instruction decoded at POS, with POS moved past its element; the front end's parse as a step is the model's choice (log 4) -/
def Obligations.StepRunsTheDecodedInstruction : Prop :=
  (∀ (s : State) (m : Mode) (i : Instr) (c : Cursor), s.coreStarted = true → s.mode = .ok (some m) →
    decode m s.cursor = .instr i c → step s = exec i { s with pos := c.pos }) ∧
  (∀ (s : State) (input : Memory) (len : Nat) (i : Instr) (c : Cursor), s.frontEnd = .requested input len →
    decode .gzip ⟨input, len, 0⟩ = .instr i c → step s = exec i s)

/-- A step at an encoded instruction executes it and moves POS by exactly its bits -/
def Obligations.EncodedElementIsExecuted : Prop :=
  ∀ (s : State) (m : Mode) (i : Instr) (bits : List Bool), s.coreStarted = true → s.mode = .ok (some m) →
    i.wf = true → encode m s.pos i = some bits → s.cursor.Holds bits →
    step s = exec i { s with pos := s.pos + bits.length }

/-- nextBits(n) packs n bits with the first bit lowest, or raises with nothing consumed -/
def Obligations.NextBitsPacksLowBitFirst : Prop :=
  ∀ (c : Cursor) (n : Nat),
    (8 * c.len - c.pos < n → c.nextBits n = none) ∧
    (n ≤ 8 * c.len - c.pos → ∃ v, c.nextBits n = some (v, { c with pos := c.pos + n }) ∧ v < 2 ^ n ∧
      ∀ k, k < n → v.testBit k = (c.inByte ((c.pos + k) / 8)).getLsbD ((c.pos + k) % 8))

/-- A 16-bit field at a byte boundary is little-endian -/
def Obligations.AlignedWordIsLittleEndian : Prop :=
  ∀ (c : Cursor) (i : Nat), c.pos = 8 * i →
    (i + 2 ≤ c.len → c.nextBits 16 =
      some ((c.inByte i).toNat + 256 * (c.inByte (i + 1)).toNat, { c with pos := c.pos + 16 })) ∧
    (i + 1 ≤ c.len → c.nextByte = some (c.inByte i, { c with pos := c.pos + 8 }))

/-- alignToByte moves POS to the next byte boundary, by 0 to 7 bits, and never fails -/
def Obligations.AlignMovesToTheNextByte : Prop :=
  ∀ c : Cursor, c.alignToByte = { c with pos := c.alignToByte.pos } ∧ c.alignToByte.pos % 8 = 0 ∧
    c.pos ≤ c.alignToByte.pos ∧ c.alignToByte.pos < c.pos + 8 ∧ (c.pos % 8 = 0 → c.alignToByte.pos = c.pos)

/-- insert raises DuplicateCode on a leaf and InvalidTreeShape through a leaf or onto an Internal node -/
def Obligations.InsertRaisesOnTakenPaths : Prop :=
  ∀ (s : Nat) (p : List Bool) (t : Tree), t.rooted = true → p ≠ [] →
    (Huffman.insert s p t = .error .duplicateCode ↔ ∃ x, t.nodeAt p = .leaf x) ∧
    (Huffman.insert s p t = .error .invalidTreeShape ↔
      (∃ k x, 0 < k ∧ k < p.length ∧ t.nodeAt (p.take k) = .leaf x) ∨ ∃ z o, t.nodeAt p = .internal z o) ∧
    (∀ t', Huffman.insert s p t = .ok t' → t'.nodeAt p = .leaf s ∧
      (∀ k, k < p.length → ∃ z o, t'.nodeAt (p.take k) = .internal z o) ∧
      ∀ q x, q ≠ p → (t'.nodeAt q = .leaf x ↔ t.nodeAt q = .leaf x))

/-- decode descends one bit per level: a leaf answers, a missing child is IncompleteTree, the end of IN is an error -/
def Obligations.DecodeFollowsThePath : Prop :=
  ∀ (t : Tree) (c c' : Cursor), t.rooted = true → c.pos ≤ 8 * c.len →
    (∀ s, Huffman.decode t c = .symbol s c' ↔
      ∃ p, c.Holds p ∧ t.nodeAt p = .leaf s ∧ c' = c.advance p.length) ∧
    (Huffman.decode t c = .incomplete c' ↔
      ∃ p b z o, c.Holds (p ++ [b]) ∧ t.nodeAt p = .internal z o ∧ t.nodeAt (p ++ [b]) = .absent ∧
        c' = c.advance (p.length + 1)) ∧
    (Huffman.decode t c = .endOfStream c' ↔
      ∃ p z o, c.Holds p ∧ t.nodeAt p = .internal z o ∧ c.pos + p.length = 8 * c.len ∧ c' = c.advance p.length)

/-- Every used symbol of a built tree decodes from its canonical code -/
def Obligations.CanonicalCodesDecode : Prop :=
  ∀ (lengths : List Nat) (t : Tree) (s : Nat) (h : s < lengths.length), (∀ l ∈ lengths, l ≤ 15) →
    Huffman.build lengths = .ok t → 0 < lengths[s] →
    ∀ c : Cursor, c.Holds (Huffman.codePath
        (Huffman.firstCode lengths lengths[s] + (lengths.take s).countP (fun l => l == lengths[s])) lengths[s]) →
      Huffman.decode t c = .symbol s (c.advance lengths[s])

/-- build raises an error exactly when the code lengths are over-subscribed -/
def Obligations.BuildSucceedsExactlyWithinKraft : Prop :=
  ∀ lengths : List Nat, (∀ l ∈ lengths, l ≤ 15) →
    ((∃ t, Huffman.build lengths = .ok t) ↔ kraft lengths ≤ 2 ^ 15)

/-- FLT and FDT are build of the fixed lengths -/
def Obligations.FixedTreesAreBuiltFromTheFixedLengths : Prop :=
  Huffman.build ((List.range 288).map (fun s => if s ≤ 143 then 8 else if s ≤ 255 then 9 else if s ≤ 279 then 7 else 8)) =
    .ok Huffman.fixedLitLen ∧
  Huffman.build ((List.range 32).map (fun _ => 5)) = .ok Huffman.fixedDist

/-- The fixed codes are those of the code table -/
def Obligations.FixedCodeTable : Prop :=
  (∀ (s : Nat) (c : Cursor), s < 288 →
    c.Holds (if s ≤ 143 then Huffman.codePath (0x30 + s) 8
      else if s ≤ 255 then Huffman.codePath (0x190 + (s - 144)) 9
      else if s ≤ 279 then Huffman.codePath (s - 256) 7
      else Huffman.codePath (0xC0 + (s - 280)) 8) →
    Huffman.decode Huffman.fixedLitLen c =
      .symbol s (c.advance (if s ≤ 143 then 8 else if s ≤ 255 then 9 else if s ≤ 279 then 7 else 8))) ∧
  (∀ (d : Nat) (c : Cursor), d < 32 → c.Holds (Huffman.codePath d 5) →
    Huffman.decode Huffman.fixedDist c = .symbol d (c.advance 5)) ∧
  (∀ c c' : Cursor, Huffman.decode Huffman.fixedLitLen c ≠ .incomplete c' ∧
    Huffman.decode Huffman.fixedDist c ≠ .incomplete c')

/-- The length and distance bases follow the contiguity rule and meet the stated endpoints -/
def Obligations.BasesAreContiguous : Prop :=
  Rom.lengthBase 257 = 3 ∧ (∀ c, 257 ≤ c → c < 284 → Rom.lengthBase (c + 1) = Rom.lengthBase c + 2 ^ Rom.lengthExtra c) ∧
  Rom.lengthBase 285 = 258 ∧ Rom.lengthExtra 285 = 0 ∧ Rom.distanceBase 0 = 1 ∧
  (∀ d, d < 29 → Rom.distanceBase (d + 1) = Rom.distanceBase d + 2 ^ Rom.distanceExtra d) ∧ Rom.distanceBase 29 = 24577 ∧
  (∀ c, 265 ≤ c → c ≤ 284 → Rom.lengthExtra c = 1 + (c - 265) / 4) ∧
  (∀ d, 4 ≤ d → d ≤ 29 → Rom.distanceExtra d = 1 + (d - 4) / 2)

/-- The HDR step reads BFINAL and BTYPE and dispatches on BTYPE -/
def Obligations.BlockHeaderStep : Prop :=
  ∀ s : State, s.coreStarted = true → s.st = .hdr →
    let f := s.cursor.bit s.pos
    let t := (s.cursor.bit (s.pos + 1)).toNat + 2 * (s.cursor.bit (s.pos + 2)).toNat
    let s1 := { s with pos := s.pos + 1, bfinal := f }
    let s3 := { s with pos := s.pos + 3, bfinal := f }
    (8 * s.inLen - s.pos = 0 → step s = .next (raisedState s .unexpectedEndOfStream)) ∧
    (1 ≤ 8 * s.inLen - s.pos → 8 * s.inLen - s.pos < 3 → step s = .next (raisedState s1 .unexpectedEndOfStream)) ∧
    (3 ≤ 8 * s.inLen - s.pos →
      (t = 0 → step s = .next { s3 with btype := 0, st := .storedHdr }) ∧
      (t = 1 → step s = .next { s3 with btype := 1, llt := some Huffman.fixedLitLen, dt := some Huffman.fixedDist, st := .sym }) ∧
      (t = 2 → step s = .next { s3 with btype := 2, st := .dynHdr }) ∧
      (t = 3 → step s = .next (raisedState s3 .corruptBlock)))

/-- The four block header instructions complete, with the flags and the next state the rule gives -/
def Obligations.BlockHeaderRows : Prop :=
  ∀ (s : State) (f : Bool),
    exec (.blkStored f) s = .next { s with bfinal := f, btype := 0, st := .storedHdr } ∧
    exec (.blkFixed f) s =
      .next { s with bfinal := f, btype := 1, llt := some Huffman.fixedLitLen, dt := some Huffman.fixedDist, st := .sym } ∧
    exec (.blkDynamic f) s = .next { s with bfinal := f, btype := 2, st := .dynHdr } ∧
    exec (.blkReserved f) s = .next (raisedState { s with bfinal := f } .corruptBlock)

/-- endBlock clears the three trees and sets ST by BFINAL, and nothing else changes -/
def Obligations.EndOfBlockClearsTheTrees : Prop :=
  ∀ s : State, BlockEnded s s.endBlock ∧
    s.endBlock = { s with clt := none, llt := none, dt := none, st := s.endBlock.st }

/-- In DONE and ERROR a step request changes nothing -/
def Obligations.EndStatesAreFinal : Prop :=
  ∀ s : State, (∀ input len, s.frontEnd ≠ .requested input len) → (s.st = .done ∨ s.st = .error) → step s = .next s

/-- Every step follows the transition table -/
def Obligations.TransitionTable : Prop :=
  ∀ s t : State, s.coreStarted = true → step s = .next t →
    (s.ended = true ∧ t = s) ∨ (s.ended = false ∧ (t.st = .error ∨ t.st ∈ allowedNext s.st))

/-- Every run ends within 259·(8·N - 8·S) + 1 steps -/
def Obligations.RunsEndWithinTheBound : Prop :=
  ∀ (input : Memory) (len start : Nat), start ≤ len →
    ∃ t : State, Host.Core.run core (259 * (8 * len - 8 * start) + 1) (State.atReset input len start) = .next t ∧
      (t.st = .done ∨ t.st = .error)

/-- The STORED_HDR step aligns, reads LEN and NLEN, and checks the complement -/
def Obligations.StoredHeaderStep : Prop :=
  ∀ s : State, s.coreStarted = true → s.st = .storedHdr → s.pos ≤ 8 * s.inLen →
    ∀ i, i = (s.pos + 7) / 8 →
    let word (k : Nat) : BitVec 16 :=
      BitVec.ofNat 16 ((s.cursor.inByte k).toNat + 256 * (s.cursor.inByte (k + 1)).toNat)
    let s4 := { s with pos := 8 * i + 32 }
    (s.inLen < i + 2 → step s = .next (raisedState { s with pos := 8 * i } .unexpectedEndOfStream)) ∧
    (i + 2 ≤ s.inLen → s.inLen < i + 4 → step s = .next (raisedState { s with pos := 8 * i + 16 } .unexpectedEndOfStream)) ∧
    (i + 4 ≤ s.inLen → word (i + 2) ≠ ~~~(word i) → step s = .next (raisedState s4 .lengthCheckFailed)) ∧
    (i + 4 ≤ s.inLen → word (i + 2) = ~~~(word i) →
      (word i = 0 → step s = .next { s4 with srem := 0, clt := none, llt := none, dt := none, st := (if s.bfinal then .done else .hdr) }) ∧
      (word i ≠ 0 → step s = .next { s4 with srem := word i, st := .storedCopy }))

/-- STORED_HDR completes: the check, SREM, and the end of an empty block -/
def Obligations.StoredHeaderRow : Prop :=
  ∀ (s : State) (len nlen : BitVec 16),
    (nlen = ~~~len → len ≠ 0 → exec (.storedHdr len nlen) s = .next { s with srem := len, st := .storedCopy }) ∧
    (nlen = ~~~len → len = 0 → ∃ t, exec (.storedHdr len nlen) s = .next t ∧ t.srem = 0 ∧ BlockEnded s t ∧
      t = { s with srem := t.srem, clt := t.clt, llt := t.llt, dt := t.dt, st := t.st }) ∧
    (nlen ≠ ~~~len → exec (.storedHdr len nlen) s = .next (raisedState s .lengthCheckFailed))

/-- STORED_BYTE outputs its byte, lowers SREM, and ends the block at the last byte -/
def Obligations.StoredByteRow : Prop :=
  ∀ (s : State) (v : Byte), s.srem ≠ 0 →
    ∃ t, exec (.storedByte v) s = .next t ∧ Emits s v t ∧ t.srem.toNat + 1 = s.srem.toNat ∧
      (s.srem = 1 → BlockEnded s t) ∧
      (s.srem ≠ 1 → t.clt = s.clt ∧ t.llt = s.llt ∧ t.dt = s.dt ∧ t.st = s.st) ∧
      t = { s with out := t.out, win := t.win, emitted := t.emitted, srem := t.srem,
                   clt := t.clt, llt := t.llt, dt := t.dt, st := t.st }

/-- The STORED_COPY step copies one byte of IN to OUT -/
def Obligations.StoredCopyStep : Prop :=
  ∀ (s : State) (i : Nat), s.coreStarted = true → s.st = .storedCopy → s.srem ≠ 0 → s.pos = 8 * i →
    (s.inLen ≤ i → step s = .next (raisedState s .unexpectedEndOfStream)) ∧
    (i < s.inLen → ∃ t, step s = .next t ∧ Emits s (s.cursor.inByte i) t ∧ t.pos = s.pos + 8 ∧
      t.srem.toNat + 1 = s.srem.toNat ∧ (s.srem = 1 → BlockEnded s t) ∧
      (s.srem ≠ 1 → t.clt = s.clt ∧ t.llt = s.llt ∧ t.dt = s.dt ∧ t.st = .storedCopy) ∧
      t = { s with pos := t.pos, out := t.out, win := t.win, emitted := t.emitted, srem := t.srem,
                   clt := t.clt, llt := t.llt, dt := t.dt, st := t.st })

/-- DYN_HDR sets the three counts with their offsets and clears CLCL and CI -/
def Obligations.DynamicHeaderRow : Prop :=
  ∀ (s : State) (a b : BitVec 5) (d : BitVec 4),
    ∃ t, exec (.dynHdr a b d) s = .next t ∧ t.hlit.toNat = a.toNat + 257 ∧ t.hdist.toNat = b.toNat + 1 ∧
      t.hclen.toNat = d.toNat + 4 ∧ (∀ k, (h : k < 19) → t.clcl[k] = 0) ∧ t.ci = 0 ∧ t.st = .dynClcl ∧
      t = { s with hlit := t.hlit, hdist := t.hdist, hclen := t.hclen, clcl := t.clcl, ci := t.ci, st := t.st }

/-- A DYN_HDR step that runs out of input keeps the counts it has read -/
def Obligations.DynamicHeaderMissingFields : Prop :=
  ∀ s : State, s.coreStarted = true → s.st = .dynHdr →
    (8 * s.inLen - s.pos < 5 → step s = .next (raisedState s .unexpectedEndOfStream)) ∧
    (5 ≤ 8 * s.inLen - s.pos → 8 * s.inLen - s.pos < 10 →
      ∃ a : BitVec 9, a.toNat = s.cursor.packed 5 s.pos + 257 ∧
        step s = .next (raisedState { s with pos := s.pos + 5, hlit := a } .unexpectedEndOfStream)) ∧
    (10 ≤ 8 * s.inLen - s.pos → 8 * s.inLen - s.pos < 14 →
      ∃ (a : BitVec 9) (b : BitVec 6), a.toNat = s.cursor.packed 5 s.pos + 257 ∧
        b.toNat = s.cursor.packed 5 (s.pos + 5) + 1 ∧
        step s = .next (raisedState { s with pos := s.pos + 10, hlit := a, hdist := b } .unexpectedEndOfStream))

/-- DYN_CLCL writes CLCL[PERM[CI]] and counts, until HCLEN entries are read; with fewer than 3 bits left its step raises -/
def Obligations.CodeLengthCodeRow : Prop :=
  (∀ (s : State) (v : BitVec 3),
    (s.ci.toNat ≤ 18 → ∃ t : State, exec (.dynClcl v) s = .next t ∧ PutsLength s v t ∧
      t = { s with clcl := t.clcl, ci := t.ci, st := t.st }) ∧
    (18 < s.ci.toNat → exec (.dynClcl v) s = .fault .permIndex)) ∧
  (∀ s : State, s.coreStarted = true → s.st = .dynClcl →
    (8 * s.inLen - s.pos < 3 → step s = .next (raisedState s .unexpectedEndOfStream)) ∧
    (∀ v c, s.cursor.nextBits 3 = some (v, c) → s.ci.toNat ≤ 18 →
      ∃ t : State, step s = .next t ∧ PutsLength s (BitVec.ofNat 3 v) t ∧ t.pos = s.pos + 3 ∧
        t = { s with pos := t.pos, clcl := t.clcl, ci := t.ci, st := t.st }))

/-- The DYN_CLTREE step builds CLT from CLCL and clears LENS and LI, or raises the build error -/
def Obligations.CodeLengthTreeStep : Prop :=
  ∀ s : State, s.coreStarted = true → s.st = .dynClTree →
    (∀ tree, Huffman.build (s.clcl.toList.map BitVec.toNat) = .ok tree →
      ∃ t, step s = .next t ∧ t.clt = some tree ∧ (∀ k, (h : k < 320) → t.lens[k] = 0) ∧ t.li = 0 ∧ t.st = .dynLens ∧
        t = { s with clt := t.clt, lens := t.lens, li := t.li, st := t.st }) ∧
    (Huffman.build (s.clcl.toList.map BitVec.toNat) = .error .duplicateCode → step s = .next (raisedState s .duplicateCode)) ∧
    (Huffman.build (s.clcl.toList.map BitVec.toNat) = .error .invalidTreeShape →
      step s = .next (raisedState s .invalidTreeShape))

/-- The code-length symbols write exactly their run of LENS, or raise InvalidRunLength and write nothing. CL_REP_PREV by itself at
LI = 0 is the model's choice (log 6). -/
def Obligations.CodeLengthRows : Prop :=
  ∀ s : State,
    (∀ v : BitVec 4, Fills (exec (.clLen v) s) s v 1) ∧
    (∀ e : BitVec 3, Fills (exec (.clRepZero3 e) s) s 0 (3 + e.toNat)) ∧
    (∀ e : BitVec 7, Fills (exec (.clRepZero11 e) s) s 0 (11 + e.toNat)) ∧
    (∀ e : BitVec 2, s.li ≠ 0 → Fills (exec (.clRepPrev e) s) s (lastEntry s) (3 + e.toNat)) ∧
    (∀ e : BitVec 2, s.li = 0 → exec (.clRepPrev e) s = .next (raisedState s .invalidRunLength))

/-- The DYN_LENS step decodes one code-length symbol under CLT, reads its extra bits and fills, with the errors in the order of the
checks. The stop on a symbol above 18 is the model's (log 7). -/
def Obligations.CodeLengthSymbolStep : Prop :=
  ∀ (s : State) (tree : Tree), s.coreStarted = true → s.st = .dynLens → s.clt = some tree →
    (∀ c, Huffman.decode tree s.cursor = .endOfStream c →
      step s = .next (raisedState { s with pos := c.pos } .unexpectedEndOfStream)) ∧
    (∀ c, Huffman.decode tree s.cursor = .incomplete c →
      step s = .next (raisedState { s with pos := c.pos } .incompleteTree)) ∧
    (∀ n c, Huffman.decode tree s.cursor = .symbol n c →
      (n ≤ 15 → Fills (step s) { s with pos := c.pos } (BitVec.ofNat 4 n) 1) ∧
      (n = 16 → s.li = 0 → step s = .next (raisedState { s with pos := c.pos } .invalidRunLength)) ∧
      (n = 16 → s.li ≠ 0 →
        (c.nextBits 2 = none → step s = .next (raisedState { s with pos := c.pos } .unexpectedEndOfStream)) ∧
        (∀ e c', c.nextBits 2 = some (e, c') → Fills (step s) { s with pos := c'.pos } (lastEntry s) (3 + e))) ∧
      (n = 17 →
        (c.nextBits 3 = none → step s = .next (raisedState { s with pos := c.pos } .unexpectedEndOfStream)) ∧
        (∀ e c', c.nextBits 3 = some (e, c') → Fills (step s) { s with pos := c'.pos } 0 (3 + e))) ∧
      (n = 18 →
        (c.nextBits 7 = none → step s = .next (raisedState { s with pos := c.pos } .unexpectedEndOfStream)) ∧
        (∀ e c', c.nextBits 7 = some (e, c') → Fills (step s) { s with pos := c'.pos } 0 (11 + e))) ∧
      (18 < n → step s = .fault .noSuchSymbol))

/-- The DYN_TREES step builds LLT then DT from the two parts of LENS. That LLT is kept when the distance build fails rests on log 14. -/
def Obligations.TreesStep : Prop :=
  ∀ s : State, s.coreStarted = true → s.st = .dynTrees → s.hlit.toNat + s.hdist.toNat ≤ 320 →
    ∀ litLens distLens : List Nat,
    litLens.length = s.hlit.toNat → (∀ k, (h : k < 320) → k < s.hlit.toNat → litLens[k]? = some (s.lens[k]).toNat) →
    distLens.length = s.hdist.toNat →
    (∀ k, (h : k < 320) → s.hlit.toNat ≤ k → k < s.hlit.toNat + s.hdist.toNat →
      distLens[k - s.hlit.toNat]? = some (s.lens[k]).toNat) →
    (∀ l d, Huffman.build litLens = .ok l → Huffman.build distLens = .ok d →
      step s = .next { s with llt := some l, dt := some d, clt := none, st := .sym }) ∧
    (∀ l, Huffman.build litLens = .ok l → Huffman.build distLens = .error .duplicateCode →
      step s = .next (raisedState { s with llt := some l } .duplicateCode)) ∧
    (∀ l, Huffman.build litLens = .ok l → Huffman.build distLens = .error .invalidTreeShape →
      step s = .next (raisedState { s with llt := some l } .invalidTreeShape)) ∧
    (Huffman.build litLens = .error .duplicateCode → step s = .next (raisedState s .duplicateCode)) ∧
    (Huffman.build litLens = .error .invalidTreeShape → step s = .next (raisedState s .invalidTreeShape))

/-- LIT outputs its byte and EOB ends the block -/
def Obligations.LiteralAndEndOfBlockRows : Prop :=
  (∀ (s : State) (v : Byte), ∃ t, exec (.lit v) s = .next t ∧ Emits s v t ∧
    t = { s with out := t.out, win := t.win, emitted := t.emitted }) ∧
  (∀ s : State, ∃ t, exec .eob s = .next t ∧ BlockEnded s t ∧
    t = { s with clt := t.clt, llt := t.llt, dt := t.dt, st := t.st })

/-- Every length instruction sets CPLEN to its base plus its extra bits and goes to DIST -/
def Obligations.LengthRows : Prop :=
  LengthRow .len257 3 ∧ LengthRow .len258 4 ∧ LengthRow .len259 5 ∧
  LengthRow .len260 6 ∧ LengthRow .len261 7 ∧ LengthRow .len262 8 ∧
  LengthRow .len263 9 ∧ LengthRow .len264 10 ∧ (∀ e : BitVec 1, LengthRow (.len265 e) (11 + e.toNat)) ∧
  (∀ e : BitVec 1, LengthRow (.len266 e) (13 + e.toNat)) ∧ (∀ e : BitVec 1, LengthRow (.len267 e) (15 + e.toNat)) ∧ (∀ e : BitVec 1, LengthRow (.len268 e) (17 + e.toNat)) ∧
  (∀ e : BitVec 2, LengthRow (.len269 e) (19 + e.toNat)) ∧ (∀ e : BitVec 2, LengthRow (.len270 e) (23 + e.toNat)) ∧ (∀ e : BitVec 2, LengthRow (.len271 e) (27 + e.toNat)) ∧
  (∀ e : BitVec 2, LengthRow (.len272 e) (31 + e.toNat)) ∧ (∀ e : BitVec 3, LengthRow (.len273 e) (35 + e.toNat)) ∧ (∀ e : BitVec 3, LengthRow (.len274 e) (43 + e.toNat)) ∧
  (∀ e : BitVec 3, LengthRow (.len275 e) (51 + e.toNat)) ∧ (∀ e : BitVec 3, LengthRow (.len276 e) (59 + e.toNat)) ∧ (∀ e : BitVec 4, LengthRow (.len277 e) (67 + e.toNat)) ∧
  (∀ e : BitVec 4, LengthRow (.len278 e) (83 + e.toNat)) ∧ (∀ e : BitVec 4, LengthRow (.len279 e) (99 + e.toNat)) ∧ (∀ e : BitVec 4, LengthRow (.len280 e) (115 + e.toNat)) ∧
  (∀ e : BitVec 5, LengthRow (.len281 e) (131 + e.toNat)) ∧ (∀ e : BitVec 5, LengthRow (.len282 e) (163 + e.toNat)) ∧ (∀ e : BitVec 5, LengthRow (.len283 e) (195 + e.toNat)) ∧
  (∀ e : BitVec 5, LengthRow (.len284 e) (227 + e.toNat)) ∧ LengthRow .len285 258

/-- Every distance instruction sets CPDIST and goes to COPY, or raises InvalidDistance beyond EMITTED -/
def Obligations.DistanceRows : Prop :=
  DistanceRow .dist0 1 ∧ DistanceRow .dist1 2 ∧ DistanceRow .dist2 3 ∧
  DistanceRow .dist3 4 ∧ (∀ e : BitVec 1, DistanceRow (.dist4 e) (5 + e.toNat)) ∧ (∀ e : BitVec 1, DistanceRow (.dist5 e) (7 + e.toNat)) ∧
  (∀ e : BitVec 2, DistanceRow (.dist6 e) (9 + e.toNat)) ∧ (∀ e : BitVec 2, DistanceRow (.dist7 e) (13 + e.toNat)) ∧ (∀ e : BitVec 3, DistanceRow (.dist8 e) (17 + e.toNat)) ∧
  (∀ e : BitVec 3, DistanceRow (.dist9 e) (25 + e.toNat)) ∧ (∀ e : BitVec 4, DistanceRow (.dist10 e) (33 + e.toNat)) ∧ (∀ e : BitVec 4, DistanceRow (.dist11 e) (49 + e.toNat)) ∧
  (∀ e : BitVec 5, DistanceRow (.dist12 e) (65 + e.toNat)) ∧ (∀ e : BitVec 5, DistanceRow (.dist13 e) (97 + e.toNat)) ∧ (∀ e : BitVec 6, DistanceRow (.dist14 e) (129 + e.toNat)) ∧
  (∀ e : BitVec 6, DistanceRow (.dist15 e) (193 + e.toNat)) ∧ (∀ e : BitVec 7, DistanceRow (.dist16 e) (257 + e.toNat)) ∧ (∀ e : BitVec 7, DistanceRow (.dist17 e) (385 + e.toNat)) ∧
  (∀ e : BitVec 8, DistanceRow (.dist18 e) (513 + e.toNat)) ∧ (∀ e : BitVec 8, DistanceRow (.dist19 e) (769 + e.toNat)) ∧ (∀ e : BitVec 9, DistanceRow (.dist20 e) (1025 + e.toNat)) ∧
  (∀ e : BitVec 9, DistanceRow (.dist21 e) (1537 + e.toNat)) ∧ (∀ e : BitVec 10, DistanceRow (.dist22 e) (2049 + e.toNat)) ∧ (∀ e : BitVec 10, DistanceRow (.dist23 e) (3073 + e.toNat)) ∧
  (∀ e : BitVec 11, DistanceRow (.dist24 e) (4097 + e.toNat)) ∧ (∀ e : BitVec 11, DistanceRow (.dist25 e) (6145 + e.toNat)) ∧ (∀ e : BitVec 12, DistanceRow (.dist26 e) (8193 + e.toNat)) ∧
  (∀ e : BitVec 12, DistanceRow (.dist27 e) (12289 + e.toNat)) ∧ (∀ e : BitVec 13, DistanceRow (.dist28 e) (16385 + e.toNat)) ∧ (∀ e : BitVec 13, DistanceRow (.dist29 e) (24577 + e.toNat))

/-- The reserved length and distance symbols raise their errors -/
def Obligations.ReservedSymbolRows : Prop :=
  ∀ (s : State) (n : Nat),
    exec (.lenReserved n) s = .next (raisedState s .corruptLengthCode) ∧
    exec (.distReserved n) s = .next (raisedState s .invalidDistance)

/-- The SYM step decodes one symbol under LLT and acts on it -/
def Obligations.SymbolStep : Prop :=
  ∀ (s : State) (tree : Tree), s.coreStarted = true → s.st = .sym → s.llt = some tree →
    (∀ c, Huffman.decode tree s.cursor = .endOfStream c →
      step s = .next (raisedState { s with pos := c.pos } .unexpectedEndOfStream)) ∧
    (∀ c, Huffman.decode tree s.cursor = .incomplete c →
      step s = .next (raisedState { s with pos := c.pos } .incompleteTree)) ∧
    (∀ n c, Huffman.decode tree s.cursor = .symbol n c →
      (n ≤ 255 → ∃ t, step s = .next t ∧ Emits s (BitVec.ofNat 8 n) t ∧
        t = { s with pos := c.pos, out := t.out, win := t.win, emitted := t.emitted }) ∧
      (n = 256 → ∃ t, step s = .next t ∧ BlockEnded s t ∧
        t = { s with pos := c.pos, clt := t.clt, llt := t.llt, dt := t.dt, st := t.st }) ∧
      (257 ≤ n → n ≤ 285 →
        (∀ e c', c.nextBits (Rom.lengthExtra n) = some (e, c') → ∃ t, step s = .next t ∧
          t.cplen.toNat = Rom.lengthBase n + e ∧ t = { s with pos := c'.pos, cplen := t.cplen, st := .dist }) ∧
        (c.nextBits (Rom.lengthExtra n) = none →
          step s = .next (raisedState { s with pos := c.pos } .unexpectedEndOfStream))) ∧
      (285 < n → step s = .next (raisedState { s with pos := c.pos } .corruptLengthCode)))

/-- The DIST step decodes one distance under DT and checks it against EMITTED -/
def Obligations.DistanceStep : Prop :=
  ∀ (s : State) (tree : Tree), s.coreStarted = true → s.st = .dist → s.dt = some tree →
    (∀ c, Huffman.decode tree s.cursor = .endOfStream c →
      step s = .next (raisedState { s with pos := c.pos } .unexpectedEndOfStream)) ∧
    (∀ c, Huffman.decode tree s.cursor = .incomplete c →
      step s = .next (raisedState { s with pos := c.pos } .incompleteTree)) ∧
    (∀ d c, Huffman.decode tree s.cursor = .symbol d c →
      (30 ≤ d → step s = .next (raisedState { s with pos := c.pos } .invalidDistance)) ∧
      (d < 30 → c.nextBits (Rom.distanceExtra d) = none →
        step s = .next (raisedState { s with pos := c.pos } .unexpectedEndOfStream)) ∧
      (d < 30 → ∀ e c', c.nextBits (Rom.distanceExtra d) = some (e, c') →
        (s.emitted < Rom.distanceBase d + e → step s = .next (raisedState { s with pos := c'.pos } .invalidDistance)) ∧
        (Rom.distanceBase d + e ≤ s.emitted → ∃ t, step s = .next t ∧
          t.cpdist.toNat = Rom.distanceBase d + e ∧ t = { s with pos := c'.pos, cpdist := t.cpdist, st := .copy })))

/-- Emit appends one byte to OUT, writes one window cell and counts it -/
def Obligations.EmitWritesOneByte : Prop :=
  ∀ (s : State) (v : Byte), Emits s v (s.emit v) ∧
    s.emit v = { s with out := (s.emit v).out, win := (s.emit v).win, emitted := (s.emit v).emitted }

/-- The COPY step outputs the byte CPDIST back, reading before it writes -/
def Obligations.CopyStep : Prop :=
  ∀ (s : State) (v : Byte), s.coreStarted = true → s.st = .copy → s.cplen ≠ 0 → s.cpdist.toNat ≤ s.emitted →
    s.winRead ((s.emitted - s.cpdist.toNat) % 32768) = some v →
    ∃ t, step s = .next t ∧ Emits s v t ∧ t.cplen.toNat + 1 = s.cplen.toNat ∧
      t.st = (if s.cplen = 1 then .sym else .copy) ∧
      t = { s with out := t.out, win := t.win, emitted := t.emitted, cplen := t.cplen, st := t.st }

/-- In a legal state the byte d back is in the window -/
def Obligations.WindowHoldsTheRecentOutput : Prop :=
  ∀ (s : State) (d : Nat), Inv s → s.coreStarted = true → 1 ≤ d → d ≤ s.emitted → d ≤ 32768 →
    s.emitted = s.out.length ∧ s.winRead ((s.emitted - d) % 32768) = s.out[s.emitted - d]? ∧
    (s.out[s.emitted - d]?).isSome = true

/-- Running a match copies CPLEN bytes from CPDIST back, overlapping or not -/
def Obligations.MatchCopiesFromTheDistanceBack : Prop :=
  ∀ s : State, Inv s → s.coreStarted = true → s.st = .copy →
    ∃ t : State, Host.Core.run core s.cplen.toNat s = .next t ∧ t.st = .sym ∧ t.pos = s.pos ∧
      t.out.length = s.out.length + s.cplen.toNat ∧ (∀ k, k < s.out.length → t.out[k]? = s.out[k]?) ∧
      (∀ k, s.out.length ≤ k → k < s.out.length + s.cplen.toNat → t.out[k]? = t.out[k - s.cpdist.toNat]?)

/-- A step of the core appends at most one byte to OUT and retracts none -/
def Obligations.OutputOnlyGrows : Prop :=
  ∀ s t : State, s.coreStarted = true → step s = .next t →
    ∃ bytes : List Byte, bytes.length ≤ 1 ∧ t.out = s.out ++ bytes ∧ t.emitted = s.emitted + bytes.length

/-- Raising an error saves its kind and POS and stops in ERROR, and the kinds have the codes 0 to 10 of the table -/
def Obligations.RaiseSavesKindAndPosition : Prop :=
  (∀ (s : State) (k : ErrKind), s.raise k = { s with errk := k, errpos := s.pos, st := .error }) ∧
  [ErrKind.none, .corruptHeader, .corruptBlock, .lengthCheckFailed, .invalidTreeShape, .duplicateCode, .incompleteTree,
    .invalidRunLength, .corruptLengthCode, .invalidDistance, .unexpectedEndOfStream].map ErrKind.code =
    [0, 1, 2, 3, 4, 5, 6, 7, 8, 9, 10]

/-- A step raises only the errors listed for its state, with ERRPOS = POS -/
def Obligations.OnlyListedErrorsAreRaised : Prop :=
  ∀ s t : State, s.coreStarted = true → s.st ≠ .error → step s = .next t → t.st = .error →
    t.errk ∈ mayRaise s.st ∧ t.errpos = t.pos

/-- A step that raises writes no output, and keeps only the listed writes -/
def Obligations.RaisingStepWritesNoOutput : Prop :=
  ∀ s t : State, s.coreStarted = true → s.st ≠ .error → step s = .next t → t.st = .error →
    t = { s with pos := t.pos, bfinal := t.bfinal, hlit := t.hlit, hdist := t.hdist, llt := t.llt,
                 errk := t.errk, errpos := t.errpos, st := t.st }

/-- POS stays within IN and never goes back -/
def Obligations.PositionOnlyAdvances : Prop :=
  ∀ s t : State, s.coreStarted = true → 8 * s.start ≤ s.pos → s.pos ≤ 8 * s.inLen → step s = .next t →
    s.pos ≤ t.pos ∧ 8 * t.start ≤ t.pos ∧ t.pos ≤ 8 * t.inLen

/-- No step of a run writes IN, and asking for the front end does not either; IN changes with a reset alone. That the launch of an
accepted member is a step is the model's choice (log 4). -/
def Obligations.InputIsConstant : Prop :=
  (∀ s t : State, s.coreStarted = true → step s = .next t →
    t.input = s.input ∧ t.inLen = s.inLen ∧ t.start = s.start ∧ t.frontEnd = s.frontEnd) ∧
  (∀ s t : State, s.coreStarted = false → step s = .next t →
    t = { s with frontEnd := t.frontEnd } ∨
    ∃ input len h, s.frontEnd = .requested input len ∧
      t = { State.atReset input len h.bytes.length with frontEnd := .accepted h h.bytes.length }) ∧
  (∀ (s : State) (input : Memory) (len : Nat), hostGzip s input len = { s with frontEnd := .requested input len })

/-- reset(IN, N, S) gives every register its reset value. frontEnd = unused (log 4) and the refusal of S > N (log 9) are the model's
choices. -/
def Obligations.ResetValues : Prop :=
  ∀ (input : Memory) (len start : Nat),
    (start ≤ len → ∃ t, hostReset input len start = .next t ∧
      t.input = input ∧ t.inLen = len ∧ t.start = start ∧ t.st = .hdr ∧ t.pos = 8 * start ∧
      t.bfinal = false ∧ t.btype = 0 ∧ t.srem = 0 ∧ t.hlit = 0 ∧ t.hdist = 0 ∧ t.hclen = 0 ∧
      (∀ k, (h : k < 19) → t.clcl[k] = 0) ∧ t.ci = 0 ∧ (∀ k, (h : k < 320) → t.lens[k] = 0) ∧ t.li = 0 ∧
      t.clt = none ∧ t.llt = none ∧ t.dt = none ∧ t.cplen = 0 ∧ t.cpdist = 0 ∧ t.emitted = 0 ∧
      (∀ a, t.winRead a = none) ∧ t.errk = .none ∧ t.errpos = 0 ∧ t.out = [] ∧ t.frontEnd = .unused) ∧
    (len < start → hostReset input len start = .refused .startBeyondInput)

/-- The status interface shows what the rule lists, and no more -/
def Obligations.StatusInterface : Prop :=
  ∀ s : State,
    (s.st = .done → s.view = ⟨.done, 0, none, some s.pos, s.emitted, s.out⟩) ∧
    (s.st = .error → s.view = ⟨.error, s.errk.code, some s.errpos, none, s.emitted, s.out⟩) ∧
    (s.st ≠ .done → s.st ≠ .error → s.view = ⟨.running, 0, none, none, s.emitted, s.out⟩)

/-- A launch meets the invariant, and so does the reset state -/
def Obligations.LaunchesAreLegal : Prop :=
  (∀ (input : Memory) (len start : Nat), Memory.wf Config.inputUnlisted input = true → Memory.below len input = true →
    start ≤ len → Inv (State.atReset input len start)) ∧
  Inv State.reset ∧
  (∀ (s : State) (input : Memory) (len : Nat), Inv s → Memory.wf Config.inputUnlisted input = true →
    Memory.below len input = true → Inv (hostGzip s input len))

/-- Every step keeps the invariant -/
def Obligations.StepKeepsLegality : Prop :=
  ∀ s t : State, Inv s → step s = .next t → Inv t

/-- In a legal state a step never faults and never refuses -/
def Obligations.LegalStatesNeverStop : Prop :=
  ∀ s : State, Inv s → ∃ t, step s = .next t

/-- GZIP_HDR gives the fields and S, and the core is reset with that S. The joined reset is the model's choice (log 4). -/
def Obligations.GzipHeaderRow : Prop :=
  ∀ (s : State) (h : GzipHeader),
    (∀ input len, s.frontEnd = .requested input len → h.bytes.length ≤ len →
      exec (.gzipHdr h) s =
        .next { State.atReset input len h.bytes.length with frontEnd := .accepted h h.bytes.length }) ∧
    ((∀ input len, s.frontEnd ≠ .requested input len) → h.bytes.length ≤ s.inLen →
      exec (.gzipHdr h) s =
        .next { State.atReset s.input s.inLen h.bytes.length with frontEnd := .accepted h h.bytes.length })

/-- A gzip member's header is parsed to its fields and the core starts after it -/
def Obligations.GzipMemberLaunches : Prop :=
  ∀ (s : State) (input : Memory) (len : Nat) (h : GzipHeader), s.frontEnd = .requested input len → h.wf = true →
    Cursor.Holds ⟨input, len, 0⟩ (bytesBits h.bytes) →
    ∃ t, step s = .next t ∧ t.frontEnd = .accepted h h.bytes.length ∧ t.input = input ∧ t.inLen = len ∧
      t.start = h.bytes.length ∧ t.pos = 8 * h.bytes.length ∧ t.st = .hdr ∧ t.out = []

/-- A parsed header is well formed, its bytes are those of IN, and S is the number of bytes it consumed -/
def Obligations.GzipParseIsExact : Prop :=
  ∀ (c c' : Cursor) (h : GzipHeader), c.pos ≤ 8 * c.len → decode .gzip c = .instr (.gzipHdr h) c' →
    h.wf = true ∧ c.Holds (bytesBits h.bytes) ∧ c' = c.advance (8 * h.bytes.length) ∧ c'.pos ≤ 8 * c.len

/-- The front end rejects a bad magic, method, reserved flag or XFL at the byte that fails, and after a failure the core is not started.
That the result stands in frontEnd and the core is unchanged is the model's choice (log 4, log 5). -/
def Obligations.GzipHeaderChecks : Prop :=
  (∀ (s : State) (input : Memory) (len : Nat), s.frontEnd = .requested input len →
    let byte := Cursor.inByte ⟨input, len, 0⟩
    let magic1 := byte 0 = 0x1F
    let magic2 := byte 1 = 0x8B
    let method := byte 2 = 8
    let flags := (byte 3).extractLsb' 5 3 = 0
    (len = 0 → step s = .next (failedState s .unexpectedEndOfStream none 0)) ∧
    (1 ≤ len → ¬magic1 → step s = .next (failedState s .corruptHeader (some .badMagic) 8)) ∧
    (2 ≤ len → magic1 → ¬magic2 → step s = .next (failedState s .corruptHeader (some .badMagic) 16)) ∧
    (3 ≤ len → magic1 → magic2 → ¬method → step s = .next (failedState s .corruptHeader (some .badMethod) 24)) ∧
    (4 ≤ len → magic1 → magic2 → method → ¬flags →
      step s = .next (failedState s .corruptHeader (some .reservedFlags) 32)) ∧
    (9 ≤ len → magic1 → magic2 → method → flags → byte 8 ≠ 0 →
      step s = .next (failedState s .corruptHeader (some .badXfl) 72))) ∧
  (∀ (s : State) (k : ErrKind) (r : Option HeaderReason) (p : Nat), s.frontEnd = .failed k r p → step s = .next s)

/-- A header cut off anywhere fails with UnexpectedEndOfStream at the read that passes the end. That the result stands in frontEnd and
the core is unchanged is the model's choice (log 4, log 5). -/
def Obligations.GzipTruncation : Prop :=
  ∀ (s : State) (input : Memory) (len : Nat) (h : GzipHeader), s.frontEnd = .requested input len → h.wf = true →
    len < h.bytes.length → Cursor.Holds ⟨input, len, 0⟩ (bytesBits (h.bytes.take len)) →
    (secondOfTwo h len → step s = .next (failedState s .unexpectedEndOfStream none (8 * (len - 1)))) ∧
    (¬secondOfTwo h len → step s = .next (failedState s .unexpectedEndOfStream none (8 * len)))
end

