-- ==== Sys2Proof/Laws/Memory.lean ====
section
/-! SUPPORT. The laws of a memory: read after write, and that a write keeps the canonical form. -/

namespace Sys2Proof.Memory

variable {unl : Option Byte}

/-- A write leaves every other address alone. -/
theorem read_write_ne (m : Memory) {a b : Nat} (v : Byte) (h : b ≠ a) :
    read unl (write unl m a v) b = read unl m b := by
  induction m with
  | nil => unfold write; split <;> simp [read, h]
  | cons cell rest ih =>
    obtain ⟨c, w⟩ := cell
    unfold write
    split
    · split <;> simp [read, h]
    · split
      · subst a
        split <;> simp [read, h]
      · simp [read, ih]

/-- Where an unlisted cell holds no value (WIN), a write is read back from any list of cells. -/
theorem read_write_self_window (m : Memory) (a : Nat) (v : Byte) :
    read none (write none m a v) a = some v := by
  induction m with
  | nil => simp [write, read]
  | cons cell rest ih =>
    obtain ⟨c, w⟩ := cell
    unfold write
    split
    · simp [read]
    · split
      · simp [read]
      · rename_i h
        simp [read, h, ih]

/-- An address below the first listed one is not listed. -/
theorem read_of_lt {m : Memory} {low a : Nat} (h : wfFrom unl low m = true) (ha : a < low) :
    read unl m a = unl := by
  induction m generalizing low with
  | nil => rfl
  | cons cell rest ih =>
    obtain ⟨c, w⟩ := cell
    simp only [wfFrom, Bool.and_eq_true, decide_eq_true_eq] at h
    obtain ⟨⟨hc, -⟩, hr⟩ := h
    simp only [read]
    rw [if_neg (by omega)]
    exact ih hr (by omega)

/-- A later start is a weaker condition. -/
theorem wfFrom_mono {m : Memory} {low low' : Nat} (hl : low' ≤ low) (h : wfFrom unl low m = true) :
    wfFrom unl low' m = true := by
  cases m with
  | nil => rfl
  | cons cell rest =>
    obtain ⟨c, w⟩ := cell
    simp only [wfFrom, Bool.and_eq_true, decide_eq_true_eq] at h ⊢
    exact ⟨⟨by omega, h.1.2⟩, h.2⟩

/-- A write is read back from a memory in canonical form. -/
theorem read_write_self {m : Memory} {low : Nat} (h : wfFrom unl low m = true) (a : Nat) (v : Byte) :
    read unl (write unl m a v) a = some v := by
  induction m generalizing low with
  | nil =>
    unfold write
    split
    · rename_i hv; simp [read, hv]
    · simp [read]
  | cons cell rest ih =>
    obtain ⟨c, w⟩ := cell
    have hw := h
    simp only [wfFrom, Bool.and_eq_true, decide_eq_true_eq] at h
    unfold write
    split
    · rename_i hac
      split
      · rename_i hv
        rw [hv]
        exact read_of_lt (low := c) (by simp [wfFrom, h.1.2, h.2]) hac
      · simp [read]
    · split
      · rename_i hac
        split
        · rename_i hv
          rw [hv]
          exact read_of_lt h.2 (by omega)
        · simp [read]
      · rename_i hne
        simp only [read]
        rw [if_neg hne]
        exact ih h.2

/-- A write keeps the canonical form. -/
theorem wfFrom_write {m : Memory} {low : Nat} (h : wfFrom unl low m = true) {a : Nat} (ha : low ≤ a) (v : Byte) :
    wfFrom unl low (write unl m a v) = true := by
  induction m generalizing low with
  | nil =>
    unfold write
    split
    · rfl
    · rename_i hv; simp [wfFrom, ha, hv]
  | cons cell rest ih =>
    obtain ⟨c, w⟩ := cell
    have hw := h
    simp only [wfFrom, Bool.and_eq_true, decide_eq_true_eq] at h
    unfold write
    split
    · rename_i hac
      split
      · exact hw
      · rename_i hv
        simp only [wfFrom, Bool.and_eq_true, decide_eq_true_eq]
        exact ⟨⟨ha, hv⟩, ⟨by omega, h.1.2⟩, h.2⟩
    · split
      · split
        · exact wfFrom_mono (by omega) h.2
        · rename_i hac hv
          simp only [wfFrom, Bool.and_eq_true, decide_eq_true_eq]
          exact ⟨⟨ha, hv⟩, hac ▸ h.2⟩
      · simp only [wfFrom, Bool.and_eq_true, decide_eq_true_eq]
        exact ⟨h.1, ih h.2 (by omega)⟩

/-- A write keeps the canonical form. -/
theorem wf_write {m : Memory} (h : wf unl m = true) (a : Nat) (v : Byte) : wf unl (write unl m a v) = true :=
  wfFrom_write h (Nat.zero_le a) v

/-- A write below a bound keeps every address below it. -/
theorem below_write {m : Memory} {bound a : Nat} (h : below bound m = true) (ha : a < bound) (v : Byte) :
    below bound (write unl m a v) = true := by
  induction m with
  | nil => unfold write; split <;> simp [below, ha]
  | cons cell rest ih =>
    obtain ⟨c, w⟩ := cell
    simp only [below, List.all_cons, Bool.and_eq_true, decide_eq_true_eq] at h ih
    unfold write
    split
    · split <;> simp [below, h.1, h.2, ha]
    · split
      · split <;> simp [below, h.2, ha]
      · simp [below, h.1, ih h.2]

/-- Equal memories are equal data: two memories in canonical form that read alike are the same list. -/
theorem eq_of_read_eq {m m' : Memory} {low : Nat} (h : wfFrom unl low m = true) (h' : wfFrom unl low m' = true)
    (hr : ∀ a, read unl m a = read unl m' a) : m = m' := by
  induction m generalizing m' low with
  | nil =>
    cases m' with
    | nil => rfl
    | cons cell rest =>
      obtain ⟨c, w⟩ := cell
      have := hr c
      simp [read] at this
      simp [wfFrom, this] at h'
  | cons cell rest ih =>
    obtain ⟨c, w⟩ := cell
    have hw := h
    simp only [wfFrom, Bool.and_eq_true, decide_eq_true_eq] at h
    cases m' with
    | nil =>
      have := hr c
      simp [read] at this
      exact absurd this h.1.2
    | cons cell' rest' =>
      obtain ⟨c', w'⟩ := cell'
      have hw' := h'
      simp only [wfFrom, Bool.and_eq_true, decide_eq_true_eq] at h'
      have hcc : c = c' := by
        rcases Nat.lt_trichotomy c c' with hlt | heq | hgt
        · have hb := hr c
          rw [read_of_lt (m := (c', w') :: rest') (low := c') (by simp [wfFrom, h'.1.2, h'.2]) hlt] at hb
          simp [read] at hb
          exact absurd hb h.1.2
        · exact heq
        · have hb := hr c'
          rw [read_of_lt (m := (c, w) :: rest) (low := c) (by simp [wfFrom, h.1.2, h.2]) hgt] at hb
          simp [read] at hb
          exact absurd hb.symm h'.1.2
      subst hcc
      have hww : w = w' := by simpa [read] using hr c
      subst hww
      congr 1
      refine ih h.2 h'.2 (fun a => ?_)
      by_cases hac : a = c
      · subst hac
        rw [read_of_lt h.2 (by omega), read_of_lt h'.2 (by omega)]
      · simpa [read, hac] using hr a

/-- A byte array laid into IN is in canonical form. -/
theorem wfFrom_ofBytes (base : Nat) (bytes : List Byte) :
    wfFrom Config.inputUnlisted base (ofBytes base bytes) = true := by
  induction bytes generalizing base with
  | nil => rfl
  | cons v rest ih =>
    unfold ofBytes
    split
    · exact wfFrom_mono (Nat.le_succ base) (ih (base + 1))
    · rename_i hv
      simp [wfFrom, hv, ih (base + 1)]

/-- A byte array laid into IN reads as it was. -/
theorem read_ofBytes (base : Nat) (bytes : List Byte) (i : Nat) (h : i < bytes.length) :
    read Config.inputUnlisted (ofBytes base bytes) (base + i) = some bytes[i] := by
  induction bytes generalizing base i with
  | nil => simp at h
  | cons v rest ih =>
    unfold ofBytes
    cases i with
    | zero =>
      split
      · rename_i hv
        have hr := read_of_lt (a := base) (wfFrom_ofBytes (base + 1) rest) (Nat.lt_succ_self base)
        simpa [← hv] using hr
      · simp [read]
    | succ j =>
      have hj : j < rest.length := by simpa using h
      have := ih (base + 1) j hj
      rw [show base + 1 + j = base + (j + 1) by omega] at this
      split
      · simpa using this
      · simp only [read]
        rw [if_neg (by omega)]
        simpa using this

end Sys2Proof.Memory
end

