-- ==== Sys2Proof/Laws/BitCursor.lean ====
section
/-! SUPPORT. The laws of the bit cursor: what a read gives, and reading what the stream is known to hold. -/

namespace Sys2Proof

namespace Cursor

@[simp] theorem advance_input (c : Cursor) (n : Nat) : (c.advance n).input = c.input := rfl
@[simp] theorem advance_len (c : Cursor) (n : Nat) : (c.advance n).len = c.len := rfl
@[simp] theorem advance_pos (c : Cursor) (n : Nat) : (c.advance n).pos = c.pos + n := rfl
@[simp] theorem advance_zero (c : Cursor) : c.advance 0 = c := rfl
@[simp] theorem advance_advance (c : Cursor) (m n : Nat) : (c.advance m).advance n = c.advance (m + n) := by
  simp [advance, Nat.add_assoc]
@[simp] theorem bit_advance (c : Cursor) (n p : Nat) : (c.advance n).bit p = c.bit p := rfl

theorem packed_advance (c : Cursor) (k n p : Nat) : (c.advance k).packed n p = c.packed n p := by
  induction n generalizing p with
  | zero => rfl
  | succ n ih => simp [packed, ih]

theorem packed_lt (c : Cursor) (n p : Nat) : c.packed n p < 2 ^ n := by
  induction n generalizing p with
  | zero => simp [packed]
  | succ n ih =>
    have := ih (p + 1)
    have hb : (c.bit p).toNat ≤ 1 := Bool.toNat_le _
    simp only [packed, Nat.pow_succ]
    omega

/-- Everything a read can do (R102, R103). -/
theorem nextBits_cases (c : Cursor) (n : Nat) :
    (c.remainingBits < n ∧ c.nextBits n = none) ∨
    (n ≤ c.remainingBits ∧ c.nextBits n = some (c.packed n c.pos, c.advance n)) := by
  unfold nextBits
  split
  · exact .inl ⟨‹_›, rfl⟩
  · exact .inr ⟨by omega, rfl⟩

theorem nextBits_of_le {c : Cursor} {n : Nat} (h : n ≤ c.remainingBits) :
    c.nextBits n = some (c.packed n c.pos, c.advance n) := by
  simp [nextBits, Nat.not_lt.mpr h]

theorem nextBits_of_lt {c : Cursor} {n : Nat} (h : c.remainingBits < n) : c.nextBits n = none := by
  simp [nextBits, h]

theorem nextBit_of_lt {c : Cursor} (h : 0 < c.remainingBits) :
    c.nextBit = some (c.bit c.pos, c.advance 1) := by
  simp only [nextBit, nextBits_of_le (n := 1) h, packed]
  cases c.bit c.pos <;> rfl

theorem nextBit_of_end {c : Cursor} (h : c.remainingBits = 0) : c.nextBit = none := by
  simp [nextBit, nextBits_of_lt (n := 1) (by omega : c.remainingBits < 1)]

/-- Everything nextBit can do. -/
theorem nextBit_cases (c : Cursor) :
    (c.remainingBits = 0 ∧ c.nextBit = none) ∨
    (0 < c.remainingBits ∧ c.nextBit = some (c.bit c.pos, c.advance 1)) := by
  rcases Nat.eq_zero_or_pos c.remainingBits with h | h
  · exact .inl ⟨h, nextBit_of_end h⟩
  · exact .inr ⟨h, nextBit_of_lt h⟩

theorem nextByte_of_le {c : Cursor} (h : 8 ≤ c.remainingBits) :
    c.nextByte = some (BitVec.ofNat 8 (c.packed 8 c.pos), c.advance 8) := by
  simp [nextByte, nextBits_of_le h]

theorem nextByte_of_lt {c : Cursor} (h : c.remainingBits < 8) : c.nextByte = none := by
  simp [nextByte, nextBits_of_lt h]

/-- alignToByte moves by 0 to 7 bits, to a byte boundary (R104). -/
theorem alignToByte_eq (c : Cursor) : c.alignToByte = c.advance ((8 - c.pos % 8) % 8) := by
  unfold alignToByte
  split
  · rename_i h; simp [h]
  · rename_i h
    have h8 : (8 - c.pos % 8) % 8 = 8 - c.pos % 8 := Nat.mod_eq_of_lt (by omega)
    rw [h8]

/-! ### what the stream holds -/

theorem holds_nil (c : Cursor) (h : c.pos ≤ 8 * c.len) : c.Holds [] := ⟨by simpa using h, by simp⟩

theorem holds_cons {c : Cursor} {b : Bool} {bits : List Bool} :
    c.Holds (b :: bits) ↔ 0 < c.remainingBits ∧ c.bit c.pos = b ∧ (c.advance 1).Holds bits := by
  constructor
  · rintro ⟨hl, hk⟩
    simp only [List.length_cons] at hl hk
    refine ⟨by unfold remainingBits; omega, by simpa using hk 0 (by omega), ?_, fun k hk' => ?_⟩
    · simp; omega
    · have := hk (k + 1) (by omega)
      simpa [Nat.add_assoc, Nat.add_comm 1 k] using this
  · rintro ⟨hr, hb, hl, hk⟩
    simp only [advance_pos, advance_len, bit_advance] at hl hk
    refine ⟨by simp; omega, fun k hk' => ?_⟩
    cases k with
    | zero => simpa using hb
    | succ k =>
      have := hk k (by simpa using hk')
      simpa [Nat.add_assoc, Nat.add_comm 1 k] using this

theorem holds_append {c : Cursor} {as bs : List Bool} :
    c.Holds (as ++ bs) ↔ c.Holds as ∧ (c.advance as.length).Holds bs := by
  induction as generalizing c with
  | nil =>
    refine ⟨fun h => ⟨holds_nil c ?_, by simpa using h⟩, fun h => by simpa using h.2⟩
    have := h.1
    omega
  | cons a as ih =>
    simp only [List.cons_append, holds_cons, ih, List.length_cons]
    rw [advance_advance, Nat.add_comm 1 as.length]
    simp only [and_assoc]

theorem holds_remaining {c : Cursor} {bits : List Bool} (h : c.Holds bits) : bits.length ≤ c.remainingBits := by
  have := h.1
  unfold remainingBits
  omega

/-- A field that the stream holds is read as its value. -/
theorem packed_of_holds {c : Cursor} {n v : Nat} (h : c.Holds (fieldBits n v)) : c.packed n c.pos = v % 2 ^ n := by
  induction n generalizing c v with
  | zero => simp [packed, Nat.mod_one]
  | succ n ih =>
    obtain ⟨-, hb, ht⟩ := holds_cons.mp h
    have hrest := ih ht
    rw [packed_advance] at hrest
    simp only [packed, hb]
    rw [show c.pos + 1 = (c.advance 1).pos from rfl, hrest, Nat.pow_succ, Nat.mul_comm (2 ^ n) 2, Nat.mod_mul]
    rcases Nat.mod_two_eq_zero_or_one v with h2 | h2 <;> simp [h2]

theorem fieldBits_length (n v : Nat) : (fieldBits n v).length = n := by
  induction n generalizing v with
  | zero => rfl
  | succ n ih => simp [fieldBits, ih]

/-- A field's first m bits, then the rest. -/
theorem fieldBits_add (m n v : Nat) : fieldBits (m + n) v = fieldBits m v ++ fieldBits n (v / 2 ^ m) := by
  induction m generalizing v with
  | zero => simp [fieldBits]
  | succ m ih =>
    rw [Nat.succ_add]
    simp only [fieldBits, ih, List.cons_append, Nat.div_div_eq_div_mul, Nat.pow_succ, Nat.mul_comm (2 ^ m) 2]

/-- A field sees its value's low bits. -/
theorem fieldBits_mod (n v : Nat) : fieldBits n (v % 2 ^ n) = fieldBits n v := by
  induction n generalizing v with
  | zero => rfl
  | succ n ih =>
    have h2 : v % 2 ^ (n + 1) % 2 = v % 2 := by rw [Nat.pow_succ, Nat.mod_mul_left_mod]
    have hd : v % 2 ^ (n + 1) / 2 = v / 2 % 2 ^ n := by rw [Nat.pow_succ, Nat.mul_comm, Nat.mod_mul_right_div_self]
    simp only [fieldBits, h2, hd, ih]

/-- A field of an extracted slice is the field of the shifted value. -/
theorem fieldBits_extract {w : Nat} (v : BitVec w) (k n : Nat) :
    fieldBits n (v.extractLsb' k n).toNat = fieldBits n (v.toNat / 2 ^ k) := by
  rw [BitVec.extractLsb'_toNat, Nat.shiftRight_eq_div_pow, fieldBits_mod]

/-- A field's bits are the stream's. -/
theorem fieldBits_packed (c : Cursor) (n p : Nat) : ∀ k, (h : k < (fieldBits n (c.packed n p)).length) →
    c.bit (p + k) = (fieldBits n (c.packed n p))[k] := by
  induction n generalizing p with
  | zero => simp [fieldBits]
  | succ n ih =>
    have h2 : ((c.bit p).toNat + 2 * c.packed n (p + 1)) / 2 = c.packed n (p + 1) := by
      cases c.bit p <;> simp <;> omega
    intro k hk
    cases k with
    | zero => cases hb : c.bit p <;> simp [packed, fieldBits, hb]
    | succ k =>
      simp only [packed, fieldBits, h2, List.length_cons, List.getElem_cons_succ] at hk ⊢
      rw [show p + (k + 1) = p + 1 + k by omega]
      exact ih (p + 1) k (by omega)

/-- The stream holds the field that a read gives. -/
theorem holds_packed {c : Cursor} {n : Nat} (h : n + 1 ≤ c.remainingBits) :
    c.Holds (fieldBits (n + 1) (c.packed (n + 1) c.pos)) :=
  ⟨by rw [fieldBits_length]; unfold remainingBits at h; omega, fieldBits_packed c (n + 1) c.pos⟩

/-- Reading a field that the stream holds. -/
theorem nextBits_of_holds {c : Cursor} {n v : Nat} (h : c.Holds (fieldBits n v)) :
    c.nextBits n = some (v % 2 ^ n, c.advance n) := by
  have hl := holds_remaining h
  rw [fieldBits_length] at hl
  rw [nextBits_of_le hl, packed_of_holds h]

/-- Reading a byte that the stream holds. -/
theorem nextByte_of_holds {c : Cursor} {b : Byte} (h : c.Holds (fieldBits 8 b.toNat)) :
    c.nextByte = some (b, c.advance 8) := by
  simp only [nextByte, nextBits_of_holds h]
  simp [Nat.mod_eq_of_lt b.isLt]

/-! ### a stream that the host has laid into IN -/

theorem wf_putBits {m : Memory} (h : Memory.wf Config.inputUnlisted m = true) (p : Nat) (bits : List Bool) :
    Memory.wf Config.inputUnlisted (putBits m p bits) = true := by
  induction bits generalizing m p with
  | nil => exact h
  | cons b rest ih => exact ih (Memory.wf_write h _ _) (p + 1)

/-- Bit p is b in IN, and every other bit is as it was. -/
theorem bit_putBit {m : Memory} (h : Memory.wf Config.inputUnlisted m = true) (n p' p q : Nat) (b : Bool) :
    Cursor.bit ⟨putBit m p b, n, p'⟩ q = if q = p then b else Cursor.bit ⟨m, n, p'⟩ q := by
  unfold bit inByte putBit
  by_cases hb : q / 8 = p / 8
  · simp only [hb, Memory.read_write_self h, Option.getD_some]
    have hq : q % 8 < 8 := Nat.mod_lt _ (by omega)
    have hp : p % 8 < 8 := Nat.mod_lt _ (by omega)
    by_cases hqp : q = p
    · subst hqp
      cases b <;> simp [hq]
    · have hm : q % 8 ≠ p % 8 := fun he => hqp (by omega)
      cases b
      · simp only [hqp, if_false, Bool.false_eq_true, BitVec.getLsbD_and, BitVec.getLsbD_not,
          BitVec.getLsbD_shiftLeft, hq, decide_true, Bool.true_and]
        have : (1#8).getLsbD (q % 8 - p % 8) = decide (q % 8 - p % 8 = 0) := by
          simp [BitVec.getLsbD_one]
        rw [this]
        by_cases hlt : q % 8 < p % 8 <;> simp [hlt] <;> omega
      · simp only [hqp, if_false, if_true, BitVec.getLsbD_or, BitVec.getLsbD_shiftLeft, hq, decide_true,
          Bool.true_and]
        have : (1#8).getLsbD (q % 8 - p % 8) = decide (q % 8 - p % 8 = 0) := by
          simp [BitVec.getLsbD_one]
        rw [this]
        by_cases hlt : q % 8 < p % 8 <;> simp [hlt] <;> omega
  · rw [if_neg (fun he => hb (by rw [he]))]
    simp only [Memory.read_write_ne _ _ hb]

theorem bit_putBits {m : Memory} (h : Memory.wf Config.inputUnlisted m = true) (n p' p q : Nat) (bits : List Bool) :
    Cursor.bit ⟨putBits m p bits, n, p'⟩ q =
      if hq : p ≤ q ∧ q < p + bits.length then bits[q - p] else Cursor.bit ⟨m, n, p'⟩ q := by
  induction bits generalizing m p with
  | nil =>
    have hn : ¬(p ≤ q ∧ q < p + ([] : List Bool).length) := fun h => Nat.lt_irrefl p (Nat.lt_of_le_of_lt h.1 h.2)
    rw [dif_neg hn, putBits]
  | cons b rest ih =>
    simp only [putBits, ih (m := putBit m p b) (Memory.wf_write h _ _)]
    by_cases h1 : p + 1 ≤ q ∧ q < p + 1 + rest.length
    · rw [dif_pos h1, dif_pos (by simp; omega)]
      have : q - p = (q - (p + 1)) + 1 := by omega
      simp [this]
    · rw [dif_neg h1, bit_putBit h]
      by_cases hqp : q = p
      · subst hqp
        simp
      · rw [if_neg hqp, dif_neg (by simp; omega)]

/-- The stream holds what the host has laid into it. -/
theorem store_holds {c : Cursor} (h : Memory.wf Config.inputUnlisted c.input = true) (bits : List Bool) :
    (c.store bits).Holds bits := by
  refine ⟨by simp only [store]; omega, fun k hk => ?_⟩
  simp only [store]
  rw [bit_putBits h, dif_pos (by omega)]
  simp

end Cursor

end Sys2Proof
end

