-- ==== Sys2Proof/Laws/Huffman.lean ====
section
/-! SUPPORT. The laws of the Huffman tree: what insert, build and decode can do, and that the ROM's trees are built from the fixed
lengths. -/

namespace Sys2Proof

namespace Huffman

/-! ### the fixed trees (41_huffman.md R131 to R133) -/

theorem fixedLitLen_eq_build : (build Rom.fixedLitLenLengths).toOption = some fixedLitLen := by decide +kernel

theorem fixedDist_eq_build : (build Rom.fixedDistLengths).toOption = some fixedDist := by decide +kernel

theorem fixedLitLen_legal : fixedLitLen.rooted = true ∧ fixedLitLen.symbolsBelow 288 = true := by decide +kernel

theorem fixedDist_legal : fixedDist.rooted = true ∧ fixedDist.symbolsBelow 32 = true := by decide +kernel

/-! ### insert -/

/-- A tree that insert gives has its old leaves and the new symbol. -/
theorem insert_symbolsBelow {s bound : Nat} (hs : s < bound) (p : List Bool) {t t' : Tree}
    (ht : t.symbolsBelow bound = true) (h : insert s p t = .ok t') : t'.symbolsBelow bound = true := by
  induction p generalizing t t' with
  | nil =>
    cases t with
    | absent => simp only [insert, Except.ok.injEq] at h; subst h; simp [Tree.symbolsBelow, hs]
    | leaf s' => simp [insert] at h
    | internal z o => simp [insert] at h
  | cons b p ih =>
    have key : ∀ u : Tree, (∀ x, u ≠ .leaf x) → u.symbolsBelow bound = true → insert s (b :: p) u = .ok t' →
        t'.symbolsBelow bound = true := by
      intro u hl hu hi
      have hc : ∀ b, (u.child b).symbolsBelow bound = true := by
        intro b
        cases u with
        | absent => rfl
        | leaf x => exact absurd rfl (hl x)
        | internal z o =>
          simp only [Tree.symbolsBelow, Bool.and_eq_true] at hu
          cases b <;> simp [Tree.child, hu.1, hu.2]
      cases hsub : insert s p (u.child b) with
      | error e => cases u <;> simp [insert, hsub] at hi
      | ok sub =>
        have hsb := ih (hc b) hsub
        cases u with
        | leaf x => exact absurd rfl (hl x)
        | absent =>
          simp only [insert, hsub, Except.ok.injEq] at hi
          subst hi
          cases b <;> simp [Tree.symbolsBelow, Tree.child, hsb]
        | internal z o =>
          simp only [insert, hsub, Except.ok.injEq] at hi
          subst hi
          have h0 := hc false
          have h1 := hc true
          cases b <;> simp [Tree.symbolsBelow, hsb, h0, h1]
    cases t with
    | leaf x => simp [insert] at h
    | absent => exact key _ (by simp) ht h
    | internal z o => exact key _ (by simp) ht h

/-- Inserting below the root gives a rooted tree. -/
theorem insert_rooted {s : Nat} {b : Bool} {p : List Bool} {t t' : Tree} (h : insert s (b :: p) t = .ok t') :
    t'.rooted = true := by
  cases t with
  | leaf x => simp [insert] at h
  | absent =>
    simp only [insert] at h
    split at h
    · cases h
    · cases h; cases b <;> rfl
  | internal z o =>
    simp only [insert] at h
    split at h
    · cases h
    · cases h; cases b <;> rfl

/-! ### build -/

/-- What the assignment loop gives: a rooted tree over the symbols it has walked. -/
theorem assign_legal {lengths : List Nat} {s : Nat} {next : List Nat} {t t' : Tree} {bound : Nat}
    (hb : s + lengths.length ≤ bound) (hr : t.rooted = true) (ht : t.symbolsBelow bound = true)
    (h : assign lengths s next t = .ok t') : t'.rooted = true ∧ t'.symbolsBelow bound = true := by
  induction lengths generalizing s next t with
  | nil => simp only [assign, Except.ok.injEq] at h; subst h; exact ⟨hr, ht⟩
  | cons l rest ih =>
    simp only [List.length_cons] at hb
    unfold assign at h
    split at h
    · exact ih (by omega) hr ht h
    · rename_i hl
      split at h
      · cases h
      · rename_i t1 hins
        obtain ⟨k, rfl⟩ : ∃ k, l = k + 1 := ⟨l - 1, by omega⟩
        exact ih (by omega) (insert_rooted hins) (insert_symbolsBelow (by omega) _ ht hins) h

/-- A built tree is rooted, and its symbols are the indices of the lengths (R127). -/
theorem build_legal {lengths : List Nat} {t : Tree} (h : build lengths = .ok t) {bound : Nat}
    (hb : lengths.length ≤ bound) : t.rooted = true ∧ t.symbolsBelow bound = true :=
  assign_legal (by omega) rfl rfl h

/-! ### decode -/

/-- Where a decode stops: never before it started, never past the end of IN. -/
def Decoded.cursor : Decoded → Cursor
  | .symbol _ c => c
  | .endOfStream c => c
  | .incomplete c => c

/-- Everything `arrive` can do to the cursor. -/
theorem arrive_cursor (t : Tree) (c : Cursor) :
    ∃ n, (arrive t c).cursor = c.advance n ∧ n ≤ c.remainingBits := by
  induction t generalizing c with
  | absent => exact ⟨0, rfl, Nat.zero_le _⟩
  | leaf s => exact ⟨0, rfl, Nat.zero_le _⟩
  | internal z o ihz iho =>
    rcases c.nextBit_cases with ⟨h0, h⟩ | ⟨h0, h⟩
    · exact ⟨0, by simp [arrive, h, Decoded.cursor], Nat.zero_le _⟩
    · have step : ∀ u : Tree, (∀ c : Cursor, ∃ n, (arrive u c).cursor = c.advance n ∧ n ≤ c.remainingBits) →
          ∃ n, (arrive u (c.advance 1)).cursor = c.advance n ∧ n ≤ c.remainingBits := by
        intro u hu
        obtain ⟨n, hn, hle⟩ := hu (c.advance 1)
        refine ⟨1 + n, by rw [hn, Cursor.advance_advance], ?_⟩
        unfold Cursor.remainingBits at hle h0 ⊢
        simp only [Cursor.advance_pos, Cursor.advance_len] at hle
        omega
      simp only [arrive, h]
      cases c.bit c.pos
      · simpa using step z ihz
      · simpa using step o iho

/-- Everything `decode` can do to the cursor (R129): nothing is consumed only where no bit is left. -/
theorem decode_cursor (t : Tree) (c : Cursor) :
    (c.remainingBits = 0 ∧ decode t c = .endOfStream c) ∨
    (∃ n, (decode t c).cursor = c.advance n ∧ 1 ≤ n ∧ n ≤ c.remainingBits) := by
  rcases c.nextBit_cases with ⟨h0, h⟩ | ⟨h0, h⟩
  · exact .inl ⟨h0, by simp [decode, h]⟩
  · refine .inr ?_
    obtain ⟨n, hn, hle⟩ := arrive_cursor (t.child (c.bit c.pos)) (c.advance 1)
    refine ⟨1 + n, by simp only [decode, h]; rw [hn, Cursor.advance_advance], by omega, ?_⟩
    unfold Cursor.remainingBits at hle h0 ⊢
    simp only [Cursor.advance_pos, Cursor.advance_len] at hle
    omega

theorem child_symbolsBelow {t : Tree} {bound : Nat} (h : t.symbolsBelow bound = true) (b : Bool) :
    (t.child b).symbolsBelow bound = true := by
  cases t with
  | absent => rfl
  | leaf s => rfl
  | internal z o =>
    simp only [Tree.symbolsBelow, Bool.and_eq_true] at h
    cases b <;> simp [Tree.child, h.1, h.2]

theorem arrive_symbolsBelow {t : Tree} {bound : Nat} (h : t.symbolsBelow bound = true) {c c' : Cursor} {s : Nat}
    (hd : arrive t c = .symbol s c') : s < bound := by
  induction t generalizing c with
  | absent => simp [arrive] at hd
  | leaf x =>
    simp only [arrive, Decoded.symbol.injEq] at hd
    simpa [Tree.symbolsBelow, hd.1] using h
  | internal z o ihz iho =>
    simp only [Tree.symbolsBelow, Bool.and_eq_true] at h
    simp only [arrive] at hd
    split at hd
    · cases hd
    · split at hd
      · exact iho h.2 hd
      · exact ihz h.1 hd

/-- A decoded symbol is one of the tree's. -/
theorem decode_symbolsBelow {t : Tree} {bound : Nat} (h : t.symbolsBelow bound = true) {c c' : Cursor} {s : Nat}
    (hd : decode t c = .symbol s c') : s < bound := by
  simp only [decode] at hd
  split at hd
  · cases hd
  · exact arrive_symbolsBelow (child_symbolsBelow h _) hd

/-! ### codes -/

theorem arrive_of_pathOf {t : Tree} {s : Nat} {p : List Bool} (h : pathOf s t = some p) {c : Cursor}
    (hc : c.Holds p) : arrive t c = .symbol s (c.advance p.length) := by
  induction t generalizing c p with
  | absent => simp [pathOf] at h
  | leaf x =>
    simp only [pathOf] at h
    split at h
    · cases h; subst s; simp [arrive]
    · cases h
  | internal z o ihz iho =>
    simp only [pathOf] at h
    have step : ∀ (b : Bool) (q : List Bool) (u : Tree), p = b :: q → (if b then o else z) = u →
        (∀ c : Cursor, c.Holds q → arrive u c = .symbol s (c.advance q.length)) →
        arrive (.internal z o) c = .symbol s (c.advance p.length) := by
      intro b q u hp hu hih
      subst hp
      obtain ⟨hr, hb, hq⟩ := Cursor.holds_cons.mp hc
      simp only [arrive, Cursor.nextBit_of_lt hr, hb]
      have := hih (c.advance 1) hq
      rw [Cursor.advance_advance, Nat.add_comm 1] at this
      cases b
      · simp only [Bool.false_eq_true, if_false] at hu ⊢
        rw [hu]; exact this
      · simp only [if_true] at hu ⊢
        rw [hu]; exact this
    cases hz : pathOf s z with
    | some q =>
      simp only [hz, Option.some.injEq] at h
      exact step false q z h.symm rfl (fun c hc => ihz hz hc)
    | none =>
      simp only [hz] at h
      cases ho : pathOf s o with
      | none => simp [ho] at h
      | some q =>
        simp only [ho, Option.some.injEq] at h
        exact step true q o h.symm rfl (fun c hc => iho ho hc)

/-- Decoding a symbol's code gives the symbol (R129). -/
theorem decode_of_codeOf {t : Tree} {s : Nat} {p : List Bool} (h : codeOf t s = some p) {c : Cursor}
    (hc : c.Holds p) : decode t c = .symbol s (c.advance p.length) := by
  unfold codeOf at h
  split at h
  · rename_i hr
    cases t with
    | absent => simp [Tree.rooted] at hr
    | leaf x => simp [Tree.rooted] at hr
    | internal z o =>
      have := arrive_of_pathOf h hc
      simp only [arrive] at this
      simp only [decode]
      split at this
      · cases this
      · rename_i b c' hb
        simpa [Tree.child, apply_ite (fun u => arrive u c')] using this
  · cases h

end Huffman

end Sys2Proof
end

