-- ==== Sys2Proof/Laws/Decode.lean ====
section
/-! SUPPORT. The laws of decoding: how each read goes on, where a decode leaves the cursor, and which instructions and rejections a
format has. -/

namespace Sys2Proof

/-! ### reads -/

/-- Everything a field read can do. -/
theorem withBits_cases (n : Nat) (kept : Kept) (c : Cursor) (k : Nat → Cursor → DecodeResult) :
    (c.remainingBits < n ∧ withBits n kept c k = .rejected .endOfStream kept c) ∨
    (n ≤ c.remainingBits ∧ withBits n kept c k = k (c.packed n c.pos) (c.advance n)) := by
  unfold withBits
  rcases c.nextBits_cases n with ⟨h, e⟩ | ⟨h, e⟩
  · exact .inl ⟨h, by rw [e]⟩
  · exact .inr ⟨h, by rw [e]⟩

/-- What has been read where an instruction comes out. -/
theorem withBits_instr {n : Nat} {kept : Kept} {c c' : Cursor} {k : Nat → Cursor → DecodeResult} {i : Instr}
    (h : withBits n kept c k = .instr i c') :
    n ≤ c.remainingBits ∧ k (c.packed n c.pos) (c.advance n) = .instr i c' := by
  rcases withBits_cases n kept c k with ⟨_, e⟩ | ⟨hn, e⟩
  · rw [e] at h; cases h
  · exact ⟨hn, e ▸ h⟩

/-- Everything a byte read can do. -/
theorem withByte_cases (c : Cursor) (k : Byte → Cursor → DecodeResult) :
    (c.remainingBits < 8 ∧ withByte c k = .rejected .endOfStream .nothing c) ∨
    (8 ≤ c.remainingBits ∧ withByte c k = k (BitVec.ofNat 8 (c.packed 8 c.pos)) (c.advance 8)) := by
  unfold withByte
  rcases Nat.lt_or_ge c.remainingBits 8 with h | h
  · exact .inl ⟨h, by rw [Cursor.nextByte_of_lt h]⟩
  · exact .inr ⟨h, by rw [Cursor.nextByte_of_le h]⟩

/-- What has been read where an instruction comes out. -/
theorem withByte_instr {c c' : Cursor} {k : Byte → Cursor → DecodeResult} {i : Instr}
    (h : withByte c k = .instr i c') :
    8 ≤ c.remainingBits ∧ k (BitVec.ofNat 8 (c.packed 8 c.pos)) (c.advance 8) = .instr i c' := by
  rcases withByte_cases c k with ⟨_, e⟩ | ⟨hn, e⟩
  · rw [e] at h; cases h
  · exact ⟨hn, e ▸ h⟩

/-- A field that the stream holds is read as its value. -/
theorem withBits_of_holds {n v : Nat} {kept : Kept} {c : Cursor} {k : Nat → Cursor → DecodeResult}
    (h : c.Holds (fieldBits n v)) : withBits n kept c k = k (v % 2 ^ n) (c.advance n) := by
  unfold withBits
  rw [Cursor.nextBits_of_holds h]

/-- A byte that the stream holds is read. -/
theorem withByte_of_holds {b : Byte} {c : Cursor} {k : Byte → Cursor → DecodeResult}
    (h : c.Holds (fieldBits 8 b.toNat)) : withByte c k = k b (c.advance 8) := by
  unfold withByte
  rw [Cursor.nextByte_of_holds h]

/-- A code that the stream holds is decoded to its symbol. -/
theorem withSymbol_of_codeOf {t : Tree} {s : Nat} {p : List Bool} {c : Cursor} {k : Nat → Cursor → DecodeResult}
    (h : Huffman.codeOf t s = some p) (hc : c.Holds p) : withSymbol t c k = k s (c.advance p.length) := by
  unfold withSymbol
  rw [Huffman.decode_of_codeOf h hc]

/-! ### where a decode leaves the cursor -/

/-- The result stands at least `low` bits after c for an instruction, and never past the end of IN. -/
inductive DecodeResult.Within (low : Nat) (c : Cursor) : DecodeResult → Prop where
  | instr (i : Instr) (n : Nat) : low ≤ n → n ≤ c.remainingBits → Within low c (.instr i (c.advance n))
  | rejected (w : Reject) (k : Kept) (n : Nat) : n ≤ c.remainingBits → Within low c (.rejected w k (c.advance n))

theorem remaining_advance (c : Cursor) (n : Nat) : (c.advance n).remainingBits = c.remainingBits - n := by
  simp only [Cursor.remainingBits, Cursor.advance_pos, Cursor.advance_len]
  omega

/-- What a later part of an element reads is within the element. -/
theorem DecodeResult.Within.later {c : Cursor} {m low low' : Nat} {r : DecodeResult} (hm : m ≤ c.remainingBits)
    (hl : low' ≤ m + low) (h : r.Within low (c.advance m)) : r.Within low' c := by
  cases h with
  | instr i n h1 h2 =>
    rw [remaining_advance] at h2
    rw [Cursor.advance_advance]
    exact .instr i _ (by omega) (by omega)
  | rejected w k n h2 =>
    rw [remaining_advance] at h2
    rw [Cursor.advance_advance]
    exact .rejected w k _ (by omega)

theorem within_instr (c : Cursor) (i : Instr) : (DecodeResult.instr i c).Within 0 c :=
  .instr i 0 (Nat.le_refl 0) (Nat.zero_le _)

theorem within_rejected (low : Nat) (c : Cursor) (w : Reject) (k : Kept) : (DecodeResult.rejected w k c).Within low c :=
  .rejected w k 0 (Nat.zero_le _)

theorem withBits_within {n low : Nat} {kept : Kept} {c : Cursor} {k : Nat → Cursor → DecodeResult}
    (h : ∀ v, (k v (c.advance n)).Within (low - n) (c.advance n)) : (withBits n kept c k).Within low c := by
  rcases withBits_cases n kept c k with ⟨_, e⟩ | ⟨hn, e⟩
  · rw [e]; exact within_rejected _ _ _ _
  · rw [e]; exact (h _).later hn (by omega)

theorem withBits_instr_within {n : Nat} {kept : Kept} {c : Cursor} (f : Nat → Instr) :
    (withBits n kept c fun e c => .instr (f e) c).Within 0 c :=
  withBits_within fun v => by rw [Nat.zero_sub]; exact within_instr _ _

theorem withByte_within {low : Nat} {c : Cursor} {k : Byte → Cursor → DecodeResult}
    (h : ∀ v, (k v (c.advance 8)).Within (low - 8) (c.advance 8)) : (withByte c k).Within low c := by
  rcases withByte_cases c k with ⟨_, e⟩ | ⟨hn, e⟩
  · rw [e]; exact within_rejected _ _ _ _
  · rw [e]; exact (h _).later hn (by omega)

theorem withSymbol_within {t : Tree} {c : Cursor} {k : Nat → Cursor → DecodeResult}
    (h : ∀ s c', (k s c').Within 0 c') : (withSymbol t c k).Within 1 c := by
  unfold withSymbol
  rcases Huffman.decode_cursor t c with ⟨_, e⟩ | ⟨n, hn, h1, h2⟩
  · rw [e]; exact within_rejected _ _ _ _
  · cases e : Huffman.decode t c with
    | symbol s c' =>
      rw [e] at hn
      simp only [Huffman.Decoded.cursor] at hn
      subst hn
      exact (h s _).later h2 (by omega)
    | endOfStream c' => rw [e] at hn; cases hn; exact .rejected _ _ n h2
    | incomplete c' => rw [e] at hn; cases hn; exact .rejected _ _ n h2

/-- An element has at least one bit and ends within IN (30_encoding.md R71, 40_bitcursor.md R107). -/
theorem decode_within {m : Mode} (hm : m ≠ .gzip) {c : Cursor} (hc : c.pos ≤ 8 * c.len) : (decode m c).Within 1 c := by
  have leaf : ∀ (i : Instr) (c : Cursor), (DecodeResult.instr i c).Within 0 c := fun i c => within_instr c i
  cases m with
  | header => exact withBits_within fun _ => withBits_within fun _ => leaf _ _
  | storedHdr =>
    have ha : (8 - c.pos % 8) % 8 ≤ c.remainingBits := by simp only [Cursor.remainingBits]; omega
    simp only [decode, decodeStoredHdr, Cursor.alignToByte_eq]
    refine DecodeResult.Within.later (low := 1) ha (by omega) ?_
    exact withBits_within fun _ => withBits_within fun _ => leaf _ _
  | storedByte => exact withByte_within fun _ => leaf _ _
  | dynHdr => exact withBits_within fun _ => withBits_within fun _ => withBits_within fun _ => leaf _ _
  | dynClcl => exact withBits_within fun _ => leaf _ _
  | clSymbol t noneYet =>
    simp only [decode, decodeClSymbol]
    refine withSymbol_within fun s c' => ?_
    split
    · exact leaf _ _
    · split
      · split
        · exact within_rejected _ _ _ _
        · exact withBits_within fun _ => leaf _ _
      · split
        · exact withBits_within fun _ => leaf _ _
        · split
          · exact withBits_within fun _ => leaf _ _
          · exact within_rejected _ _ _ _
  | litLen t =>
    simp only [decode, decodeLitLen]
    refine withSymbol_within fun s c' => ?_
    by_cases h1 : s ≤ 255
    · simpa only [if_pos h1] using leaf _ _
    · by_cases h2 : s = 256
      · simpa only [if_neg h1, if_pos h2] using leaf _ _
      · by_cases h3 : s ≤ 285
        · simp only [if_neg h1, if_neg h2, if_pos h3]
          exact withBits_instr_within (lengthInstr s)
        · simpa only [if_neg h1, if_neg h2, if_neg h3] using leaf _ _
  | dist t =>
    simp only [decode, decodeDist]
    refine withSymbol_within fun s c' => ?_
    split
    · exact leaf _ _
    · exact withBits_instr_within (distanceInstr s)
  | gzip => exact absurd rfl hm

/-! ### which instructions and rejections a format has -/

/-- The instructions of a format (30_encoding.md R71). -/
def Mode.admits : Mode → Instr → Bool
  | .header, .blkStored _ => true
  | .header, .blkFixed _ => true
  | .header, .blkDynamic _ => true
  | .header, .blkReserved _ => true
  | .storedHdr, .storedHdr _ _ => true
  | .storedByte, .storedByte _ => true
  | .dynHdr, .dynHdr _ _ _ => true
  | .dynClcl, .dynClcl _ => true
  | .clSymbol _ noneYet, .clRepPrev _ => !noneYet
  | .clSymbol _ _, i => i.clCoded.isSome
  | .litLen _, i => i.litLenCoded.isSome
  | .dist _, i => i.distCoded.isSome
  | .gzip, .gzipHdr _ => true
  | _, _ => false

/-- The rejections of a format, with what they keep (60_exceptions.md R282, 43_block_control.md R172). -/
def Mode.rejects : Mode → Reject → Kept → Bool
  | .header, .endOfStream, .nothing => true
  | .header, .endOfStream, .bfinal _ => true
  | .storedHdr, .endOfStream, .nothing => true
  | .storedByte, .endOfStream, .nothing => true
  | .dynHdr, .endOfStream, .nothing => true
  | .dynHdr, .endOfStream, .hlit _ => true
  | .dynHdr, .endOfStream, .hlitHdist _ _ => true
  | .dynClcl, .endOfStream, .nothing => true
  | .clSymbol _ noneYet, .noPreviousLength, .nothing => noneYet
  | .clSymbol _ _, .noSuchSymbol, .nothing => true
  | .clSymbol _ _, .endOfStream, .nothing => true
  | .clSymbol _ _, .incompleteTree, .nothing => true
  | .litLen _, .endOfStream, .nothing => true
  | .litLen _, .incompleteTree, .nothing => true
  | .dist _, .endOfStream, .nothing => true
  | .dist _, .incompleteTree, .nothing => true
  | .gzip, .endOfStream, .nothing => true
  | .gzip, .header _, .nothing => true
  | _, _, _ => false

/-- A result that its format has. -/
inductive DecodeResult.Of (m : Mode) : DecodeResult → Prop where
  | instr (i : Instr) (c : Cursor) : m.admits i = true → Of m (.instr i c)
  | rejected (w : Reject) (k : Kept) (c : Cursor) : m.rejects w k = true → Of m (.rejected w k c)

theorem withBits_of {m : Mode} {n : Nat} {kept : Kept} {c : Cursor} {k : Nat → Cursor → DecodeResult}
    (hk : m.rejects .endOfStream kept = true) (h : ∀ v c', (k v c').Of m) : (withBits n kept c k).Of m := by
  rcases withBits_cases n kept c k with ⟨_, e⟩ | ⟨_, e⟩
  · rw [e]; exact .rejected _ _ _ hk
  · rw [e]; exact h _ _

theorem withBits_instr_of {m : Mode} {n : Nat} {kept : Kept} {c : Cursor}
    (hk : m.rejects .endOfStream kept = true) (f : Nat → Instr) (h : ∀ e, m.admits (f e) = true) :
    (withBits n kept c fun e c => .instr (f e) c).Of m :=
  withBits_of hk fun v _ => .instr _ _ (h v)

theorem withSymbol_of {m : Mode} {t : Tree} {c : Cursor} {k : Nat → Cursor → DecodeResult}
    (he : m.rejects .endOfStream .nothing = true) (hi : m.rejects .incompleteTree .nothing = true)
    (h : ∀ s c', Huffman.decode t c = .symbol s c' → (k s c').Of m) : (withSymbol t c k).Of m := by
  unfold withSymbol
  cases e : Huffman.decode t c with
  | symbol s c' => exact h s c' e
  | endOfStream c' => exact .rejected _ _ _ he
  | incomplete c' => exact .rejected _ _ _ hi

theorem withByte_of {m : Mode} {c : Cursor} {k : Byte → Cursor → DecodeResult}
    (hk : m.rejects .endOfStream .nothing = true) (h : ∀ v c', (k v c').Of m) : (withByte c k).Of m := by
  rcases withByte_cases c k with ⟨_, e⟩ | ⟨_, e⟩
  · rw [e]; exact .rejected _ _ _ hk
  · rw [e]; exact h _ _

theorem check_of {ok : Bool} {r : HeaderReason} {c : Cursor} {k : DecodeResult} (h : k.Of .gzip) :
    (check ok r c k).Of .gzip := by
  unfold check
  split
  · exact h
  · exact .rejected _ _ _ rfl

theorem withExtra_of {p : Bool} {c : Cursor} {k : Option (List Byte) → Cursor → DecodeResult}
    (h : ∀ v c', (k v c').Of .gzip) : (withExtra p c k).Of .gzip := by
  unfold withExtra
  split
  · refine withBits_of rfl fun v c => ?_
    split
    · exact .rejected _ _ _ rfl
    · exact h _ _
  · exact h _ _

theorem withString_of {p : Bool} {c : Cursor} {k : Option (List Byte) → Cursor → DecodeResult}
    (h : ∀ v c', (k v c').Of .gzip) : (withString p c k).Of .gzip := by
  unfold withString
  split
  · split
    · exact .rejected _ _ _ rfl
    · exact h _ _
  · exact h _ _

theorem withHcrc_of {p : Bool} {c : Cursor} {k : Option (BitVec 16) → Cursor → DecodeResult}
    (h : ∀ v c', (k v c').Of .gzip) : (withHcrc p c k).Of .gzip := by
  unfold withHcrc
  split
  · exact withBits_of rfl fun v c => h _ _
  · exact h _ _

theorem headerInstr_admits (f : Bool) (t : Nat) : Mode.header.admits (headerInstr f t) = true := by
  unfold headerInstr
  split
  · rfl
  · split
    · rfl
    · split <;> rfl

theorem lengthInstr_coded (s e : Nat) : (lengthInstr s e).litLenCoded.isSome = true := by
  unfold lengthInstr
  split <;> rfl

theorem distanceInstr_coded (d e : Nat) : (distanceInstr d e).distCoded.isSome = true := by
  unfold distanceInstr
  split <;> rfl

theorem admits_litLen {t : Tree} {i : Instr} (h : i.litLenCoded.isSome = true) : (Mode.litLen t).admits i = true := by
  unfold Mode.admits
  split <;> simp_all

theorem admits_dist {t : Tree} {i : Instr} (h : i.distCoded.isSome = true) : (Mode.dist t).admits i = true := by
  unfold Mode.admits
  split <;> simp_all

theorem clSymbol_admits {t : Tree} {b : Bool} {i : Instr} (h : (Mode.clSymbol t b).admits i = true) :
    i.clCoded.isSome = true := by
  unfold Mode.admits at h
  split at h <;> simp_all [Instr.clCoded]

theorem litLen_admits {t : Tree} {i : Instr} (h : (Mode.litLen t).admits i = true) : i.litLenCoded.isSome = true := by
  unfold Mode.admits at h
  split at h <;> simp_all

theorem dist_admits {t : Tree} {i : Instr} (h : (Mode.dist t).admits i = true) : i.distCoded.isSome = true := by
  unfold Mode.admits at h
  split at h <;> simp_all

/-- Every decode gives an instruction or a rejection of its format. -/
theorem decode_of (m : Mode) (c : Cursor) : (decode m c).Of m := by
  cases m with
  | header => exact withBits_of rfl fun _ _ => withBits_of rfl fun _ _ => .instr _ _ (headerInstr_admits _ _)
  | storedHdr => exact withBits_of rfl fun _ _ => withBits_of rfl fun _ _ => .instr _ _ rfl
  | storedByte => exact withByte_of rfl fun _ _ => .instr _ _ rfl
  | dynHdr => exact withBits_of rfl fun _ _ => withBits_of rfl fun _ _ => withBits_of rfl fun _ _ => .instr _ _ rfl
  | dynClcl => exact withBits_of rfl fun _ _ => .instr _ _ rfl
  | clSymbol t noneYet =>
    simp only [decode, decodeClSymbol]
    refine withSymbol_of rfl rfl fun s c' _ => ?_
    split
    · exact .instr _ _ rfl
    · split
      · split
        · rename_i h; exact .rejected _ _ _ h
        · rename_i h; exact withBits_of rfl fun _ _ => .instr _ _ (by simpa [Mode.admits] using h)
      · split
        · exact withBits_of rfl fun _ _ => .instr _ _ rfl
        · split
          · exact withBits_of rfl fun _ _ => .instr _ _ rfl
          · exact .rejected _ _ _ rfl
  | litLen t =>
    simp only [decode, decodeLitLen]
    refine withSymbol_of rfl rfl fun s c' _ => ?_
    by_cases h1 : s ≤ 255
    · rw [if_pos h1]; exact .instr _ _ (admits_litLen rfl)
    · by_cases h2 : s = 256
      · rw [if_neg h1, if_pos h2]; exact .instr _ _ (admits_litLen rfl)
      · by_cases h3 : s ≤ 285
        · rw [if_neg h1, if_neg h2, if_pos h3]
          exact withBits_instr_of rfl (lengthInstr s) fun e => admits_litLen (lengthInstr_coded s e)
        · rw [if_neg h1, if_neg h2, if_neg h3]; exact .instr _ _ (admits_litLen rfl)
  | dist t =>
    simp only [decode, decodeDist]
    refine withSymbol_of rfl rfl fun s c' _ => ?_
    split
    · exact .instr _ _ (admits_dist rfl)
    · exact withBits_instr_of rfl (distanceInstr s) fun e => admits_dist (distanceInstr_coded s e)
  | gzip =>
    exact withByte_of rfl fun _ _ => check_of <| withByte_of rfl fun _ _ => check_of <| withByte_of rfl fun _ _ => check_of <|
      withByte_of rfl fun _ _ => check_of <| withBits_of rfl fun _ _ => withBits_of rfl fun _ _ =>
      withByte_of rfl fun _ _ => check_of <| withByte_of rfl fun _ _ => withExtra_of fun _ _ => withString_of fun _ _ =>
      withString_of fun _ _ => withHcrc_of fun _ _ => .instr _ _ rfl

/-- Under a tree over 0..18 no code-length symbol is without a meaning (45_dynamic.md R203). -/
theorem decode_clSymbol_known {t : Tree} (ht : t.symbolsBelow 19 = true) {noneYet : Bool} {c c' : Cursor} {k : Kept} :
    decode (.clSymbol t noneYet) c ≠ .rejected .noSuchSymbol k c' := by
  simp only [decode, decodeClSymbol, withSymbol]
  cases e : Huffman.decode t c with
  | endOfStream c' => simp
  | incomplete c' => simp
  | symbol s c' =>
    have hs := Huffman.decode_symbolsBelow ht e
    simp only
    split
    · simp
    · split
      · split
        · simp
        · unfold withBits; split <;> simp
      · split
        · unfold withBits; split <;> simp
        · split
          · unfold withBits; split <;> simp
          · omega

end Sys2Proof
end

