-- ==== Sys2Proof/Laws/State.lean ====
section
/-! SUPPORT. One lemma per field per named update of State, each true by rfl, so that no proof unfolds a record update. -/

namespace Sys2Proof.Machine

/-! ### raise -/

@[simp] theorem State.raise_input (s : State) (k : ErrKind) : (s.raise k).input = s.input := rfl
@[simp] theorem State.raise_inLen (s : State) (k : ErrKind) : (s.raise k).inLen = s.inLen := rfl
@[simp] theorem State.raise_start (s : State) (k : ErrKind) : (s.raise k).start = s.start := rfl
@[simp] theorem State.raise_st (s : State) (k : ErrKind) : (s.raise k).st = .error := rfl
@[simp] theorem State.raise_pos (s : State) (k : ErrKind) : (s.raise k).pos = s.pos := rfl
@[simp] theorem State.raise_bfinal (s : State) (k : ErrKind) : (s.raise k).bfinal = s.bfinal := rfl
@[simp] theorem State.raise_btype (s : State) (k : ErrKind) : (s.raise k).btype = s.btype := rfl
@[simp] theorem State.raise_srem (s : State) (k : ErrKind) : (s.raise k).srem = s.srem := rfl
@[simp] theorem State.raise_hlit (s : State) (k : ErrKind) : (s.raise k).hlit = s.hlit := rfl
@[simp] theorem State.raise_hdist (s : State) (k : ErrKind) : (s.raise k).hdist = s.hdist := rfl
@[simp] theorem State.raise_hclen (s : State) (k : ErrKind) : (s.raise k).hclen = s.hclen := rfl
@[simp] theorem State.raise_clcl (s : State) (k : ErrKind) : (s.raise k).clcl = s.clcl := rfl
@[simp] theorem State.raise_ci (s : State) (k : ErrKind) : (s.raise k).ci = s.ci := rfl
@[simp] theorem State.raise_lens (s : State) (k : ErrKind) : (s.raise k).lens = s.lens := rfl
@[simp] theorem State.raise_li (s : State) (k : ErrKind) : (s.raise k).li = s.li := rfl
@[simp] theorem State.raise_clt (s : State) (k : ErrKind) : (s.raise k).clt = s.clt := rfl
@[simp] theorem State.raise_llt (s : State) (k : ErrKind) : (s.raise k).llt = s.llt := rfl
@[simp] theorem State.raise_dt (s : State) (k : ErrKind) : (s.raise k).dt = s.dt := rfl
@[simp] theorem State.raise_cplen (s : State) (k : ErrKind) : (s.raise k).cplen = s.cplen := rfl
@[simp] theorem State.raise_cpdist (s : State) (k : ErrKind) : (s.raise k).cpdist = s.cpdist := rfl
@[simp] theorem State.raise_emitted (s : State) (k : ErrKind) : (s.raise k).emitted = s.emitted := rfl
@[simp] theorem State.raise_win (s : State) (k : ErrKind) : (s.raise k).win = s.win := rfl
@[simp] theorem State.raise_errk (s : State) (k : ErrKind) : (s.raise k).errk = k := rfl
@[simp] theorem State.raise_errpos (s : State) (k : ErrKind) : (s.raise k).errpos = s.pos := rfl
@[simp] theorem State.raise_out (s : State) (k : ErrKind) : (s.raise k).out = s.out := rfl
@[simp] theorem State.raise_frontEnd (s : State) (k : ErrKind) : (s.raise k).frontEnd = s.frontEnd := rfl

/-! ### atPos -/

@[simp] theorem State.atPos_input (s : State) (p : Nat) : (s.atPos p).input = s.input := rfl
@[simp] theorem State.atPos_inLen (s : State) (p : Nat) : (s.atPos p).inLen = s.inLen := rfl
@[simp] theorem State.atPos_start (s : State) (p : Nat) : (s.atPos p).start = s.start := rfl
@[simp] theorem State.atPos_st (s : State) (p : Nat) : (s.atPos p).st = s.st := rfl
@[simp] theorem State.atPos_pos (s : State) (p : Nat) : (s.atPos p).pos = p := rfl
@[simp] theorem State.atPos_bfinal (s : State) (p : Nat) : (s.atPos p).bfinal = s.bfinal := rfl
@[simp] theorem State.atPos_btype (s : State) (p : Nat) : (s.atPos p).btype = s.btype := rfl
@[simp] theorem State.atPos_srem (s : State) (p : Nat) : (s.atPos p).srem = s.srem := rfl
@[simp] theorem State.atPos_hlit (s : State) (p : Nat) : (s.atPos p).hlit = s.hlit := rfl
@[simp] theorem State.atPos_hdist (s : State) (p : Nat) : (s.atPos p).hdist = s.hdist := rfl
@[simp] theorem State.atPos_hclen (s : State) (p : Nat) : (s.atPos p).hclen = s.hclen := rfl
@[simp] theorem State.atPos_clcl (s : State) (p : Nat) : (s.atPos p).clcl = s.clcl := rfl
@[simp] theorem State.atPos_ci (s : State) (p : Nat) : (s.atPos p).ci = s.ci := rfl
@[simp] theorem State.atPos_lens (s : State) (p : Nat) : (s.atPos p).lens = s.lens := rfl
@[simp] theorem State.atPos_li (s : State) (p : Nat) : (s.atPos p).li = s.li := rfl
@[simp] theorem State.atPos_clt (s : State) (p : Nat) : (s.atPos p).clt = s.clt := rfl
@[simp] theorem State.atPos_llt (s : State) (p : Nat) : (s.atPos p).llt = s.llt := rfl
@[simp] theorem State.atPos_dt (s : State) (p : Nat) : (s.atPos p).dt = s.dt := rfl
@[simp] theorem State.atPos_cplen (s : State) (p : Nat) : (s.atPos p).cplen = s.cplen := rfl
@[simp] theorem State.atPos_cpdist (s : State) (p : Nat) : (s.atPos p).cpdist = s.cpdist := rfl
@[simp] theorem State.atPos_emitted (s : State) (p : Nat) : (s.atPos p).emitted = s.emitted := rfl
@[simp] theorem State.atPos_win (s : State) (p : Nat) : (s.atPos p).win = s.win := rfl
@[simp] theorem State.atPos_errk (s : State) (p : Nat) : (s.atPos p).errk = s.errk := rfl
@[simp] theorem State.atPos_errpos (s : State) (p : Nat) : (s.atPos p).errpos = s.errpos := rfl
@[simp] theorem State.atPos_out (s : State) (p : Nat) : (s.atPos p).out = s.out := rfl
@[simp] theorem State.atPos_frontEnd (s : State) (p : Nat) : (s.atPos p).frontEnd = s.frontEnd := rfl

/-! ### goto -/

@[simp] theorem State.goto_input (s : State) (c : Ctrl) : (s.goto c).input = s.input := rfl
@[simp] theorem State.goto_inLen (s : State) (c : Ctrl) : (s.goto c).inLen = s.inLen := rfl
@[simp] theorem State.goto_start (s : State) (c : Ctrl) : (s.goto c).start = s.start := rfl
@[simp] theorem State.goto_st (s : State) (c : Ctrl) : (s.goto c).st = c := rfl
@[simp] theorem State.goto_pos (s : State) (c : Ctrl) : (s.goto c).pos = s.pos := rfl
@[simp] theorem State.goto_bfinal (s : State) (c : Ctrl) : (s.goto c).bfinal = s.bfinal := rfl
@[simp] theorem State.goto_btype (s : State) (c : Ctrl) : (s.goto c).btype = s.btype := rfl
@[simp] theorem State.goto_srem (s : State) (c : Ctrl) : (s.goto c).srem = s.srem := rfl
@[simp] theorem State.goto_hlit (s : State) (c : Ctrl) : (s.goto c).hlit = s.hlit := rfl
@[simp] theorem State.goto_hdist (s : State) (c : Ctrl) : (s.goto c).hdist = s.hdist := rfl
@[simp] theorem State.goto_hclen (s : State) (c : Ctrl) : (s.goto c).hclen = s.hclen := rfl
@[simp] theorem State.goto_clcl (s : State) (c : Ctrl) : (s.goto c).clcl = s.clcl := rfl
@[simp] theorem State.goto_ci (s : State) (c : Ctrl) : (s.goto c).ci = s.ci := rfl
@[simp] theorem State.goto_lens (s : State) (c : Ctrl) : (s.goto c).lens = s.lens := rfl
@[simp] theorem State.goto_li (s : State) (c : Ctrl) : (s.goto c).li = s.li := rfl
@[simp] theorem State.goto_clt (s : State) (c : Ctrl) : (s.goto c).clt = s.clt := rfl
@[simp] theorem State.goto_llt (s : State) (c : Ctrl) : (s.goto c).llt = s.llt := rfl
@[simp] theorem State.goto_dt (s : State) (c : Ctrl) : (s.goto c).dt = s.dt := rfl
@[simp] theorem State.goto_cplen (s : State) (c : Ctrl) : (s.goto c).cplen = s.cplen := rfl
@[simp] theorem State.goto_cpdist (s : State) (c : Ctrl) : (s.goto c).cpdist = s.cpdist := rfl
@[simp] theorem State.goto_emitted (s : State) (c : Ctrl) : (s.goto c).emitted = s.emitted := rfl
@[simp] theorem State.goto_win (s : State) (c : Ctrl) : (s.goto c).win = s.win := rfl
@[simp] theorem State.goto_errk (s : State) (c : Ctrl) : (s.goto c).errk = s.errk := rfl
@[simp] theorem State.goto_errpos (s : State) (c : Ctrl) : (s.goto c).errpos = s.errpos := rfl
@[simp] theorem State.goto_out (s : State) (c : Ctrl) : (s.goto c).out = s.out := rfl
@[simp] theorem State.goto_frontEnd (s : State) (c : Ctrl) : (s.goto c).frontEnd = s.frontEnd := rfl

/-! ### winWrite -/

@[simp] theorem State.winWrite_input (s : State) (i : Nat) (v : Byte) : (s.winWrite i v).input = s.input := rfl
@[simp] theorem State.winWrite_inLen (s : State) (i : Nat) (v : Byte) : (s.winWrite i v).inLen = s.inLen := rfl
@[simp] theorem State.winWrite_start (s : State) (i : Nat) (v : Byte) : (s.winWrite i v).start = s.start := rfl
@[simp] theorem State.winWrite_st (s : State) (i : Nat) (v : Byte) : (s.winWrite i v).st = s.st := rfl
@[simp] theorem State.winWrite_pos (s : State) (i : Nat) (v : Byte) : (s.winWrite i v).pos = s.pos := rfl
@[simp] theorem State.winWrite_bfinal (s : State) (i : Nat) (v : Byte) : (s.winWrite i v).bfinal = s.bfinal := rfl
@[simp] theorem State.winWrite_btype (s : State) (i : Nat) (v : Byte) : (s.winWrite i v).btype = s.btype := rfl
@[simp] theorem State.winWrite_srem (s : State) (i : Nat) (v : Byte) : (s.winWrite i v).srem = s.srem := rfl
@[simp] theorem State.winWrite_hlit (s : State) (i : Nat) (v : Byte) : (s.winWrite i v).hlit = s.hlit := rfl
@[simp] theorem State.winWrite_hdist (s : State) (i : Nat) (v : Byte) : (s.winWrite i v).hdist = s.hdist := rfl
@[simp] theorem State.winWrite_hclen (s : State) (i : Nat) (v : Byte) : (s.winWrite i v).hclen = s.hclen := rfl
@[simp] theorem State.winWrite_clcl (s : State) (i : Nat) (v : Byte) : (s.winWrite i v).clcl = s.clcl := rfl
@[simp] theorem State.winWrite_ci (s : State) (i : Nat) (v : Byte) : (s.winWrite i v).ci = s.ci := rfl
@[simp] theorem State.winWrite_lens (s : State) (i : Nat) (v : Byte) : (s.winWrite i v).lens = s.lens := rfl
@[simp] theorem State.winWrite_li (s : State) (i : Nat) (v : Byte) : (s.winWrite i v).li = s.li := rfl
@[simp] theorem State.winWrite_clt (s : State) (i : Nat) (v : Byte) : (s.winWrite i v).clt = s.clt := rfl
@[simp] theorem State.winWrite_llt (s : State) (i : Nat) (v : Byte) : (s.winWrite i v).llt = s.llt := rfl
@[simp] theorem State.winWrite_dt (s : State) (i : Nat) (v : Byte) : (s.winWrite i v).dt = s.dt := rfl
@[simp] theorem State.winWrite_cplen (s : State) (i : Nat) (v : Byte) : (s.winWrite i v).cplen = s.cplen := rfl
@[simp] theorem State.winWrite_cpdist (s : State) (i : Nat) (v : Byte) : (s.winWrite i v).cpdist = s.cpdist := rfl
@[simp] theorem State.winWrite_emitted (s : State) (i : Nat) (v : Byte) : (s.winWrite i v).emitted = s.emitted := rfl
@[simp] theorem State.winWrite_win (s : State) (i : Nat) (v : Byte) : (s.winWrite i v).win = Memory.write Config.windowUnlisted s.win i v := rfl
@[simp] theorem State.winWrite_errk (s : State) (i : Nat) (v : Byte) : (s.winWrite i v).errk = s.errk := rfl
@[simp] theorem State.winWrite_errpos (s : State) (i : Nat) (v : Byte) : (s.winWrite i v).errpos = s.errpos := rfl
@[simp] theorem State.winWrite_out (s : State) (i : Nat) (v : Byte) : (s.winWrite i v).out = s.out := rfl
@[simp] theorem State.winWrite_frontEnd (s : State) (i : Nat) (v : Byte) : (s.winWrite i v).frontEnd = s.frontEnd := rfl

/-! ### emit -/

@[simp] theorem State.emit_input (s : State) (v : Byte) : (s.emit v).input = s.input := rfl
@[simp] theorem State.emit_inLen (s : State) (v : Byte) : (s.emit v).inLen = s.inLen := rfl
@[simp] theorem State.emit_start (s : State) (v : Byte) : (s.emit v).start = s.start := rfl
@[simp] theorem State.emit_st (s : State) (v : Byte) : (s.emit v).st = s.st := rfl
@[simp] theorem State.emit_pos (s : State) (v : Byte) : (s.emit v).pos = s.pos := rfl
@[simp] theorem State.emit_bfinal (s : State) (v : Byte) : (s.emit v).bfinal = s.bfinal := rfl
@[simp] theorem State.emit_btype (s : State) (v : Byte) : (s.emit v).btype = s.btype := rfl
@[simp] theorem State.emit_srem (s : State) (v : Byte) : (s.emit v).srem = s.srem := rfl
@[simp] theorem State.emit_hlit (s : State) (v : Byte) : (s.emit v).hlit = s.hlit := rfl
@[simp] theorem State.emit_hdist (s : State) (v : Byte) : (s.emit v).hdist = s.hdist := rfl
@[simp] theorem State.emit_hclen (s : State) (v : Byte) : (s.emit v).hclen = s.hclen := rfl
@[simp] theorem State.emit_clcl (s : State) (v : Byte) : (s.emit v).clcl = s.clcl := rfl
@[simp] theorem State.emit_ci (s : State) (v : Byte) : (s.emit v).ci = s.ci := rfl
@[simp] theorem State.emit_lens (s : State) (v : Byte) : (s.emit v).lens = s.lens := rfl
@[simp] theorem State.emit_li (s : State) (v : Byte) : (s.emit v).li = s.li := rfl
@[simp] theorem State.emit_clt (s : State) (v : Byte) : (s.emit v).clt = s.clt := rfl
@[simp] theorem State.emit_llt (s : State) (v : Byte) : (s.emit v).llt = s.llt := rfl
@[simp] theorem State.emit_dt (s : State) (v : Byte) : (s.emit v).dt = s.dt := rfl
@[simp] theorem State.emit_cplen (s : State) (v : Byte) : (s.emit v).cplen = s.cplen := rfl
@[simp] theorem State.emit_cpdist (s : State) (v : Byte) : (s.emit v).cpdist = s.cpdist := rfl
@[simp] theorem State.emit_emitted (s : State) (v : Byte) : (s.emit v).emitted = s.emitted + 1 := rfl
@[simp] theorem State.emit_win (s : State) (v : Byte) : (s.emit v).win = Memory.write Config.windowUnlisted s.win (s.emitted % Config.windowSize) v := rfl
@[simp] theorem State.emit_errk (s : State) (v : Byte) : (s.emit v).errk = s.errk := rfl
@[simp] theorem State.emit_errpos (s : State) (v : Byte) : (s.emit v).errpos = s.errpos := rfl
@[simp] theorem State.emit_out (s : State) (v : Byte) : (s.emit v).out = s.out ++ [v] := rfl
@[simp] theorem State.emit_frontEnd (s : State) (v : Byte) : (s.emit v).frontEnd = s.frontEnd := rfl

/-! ### dropTrees -/

@[simp] theorem State.dropTrees_input (s : State) : (s.dropTrees).input = s.input := rfl
@[simp] theorem State.dropTrees_inLen (s : State) : (s.dropTrees).inLen = s.inLen := rfl
@[simp] theorem State.dropTrees_start (s : State) : (s.dropTrees).start = s.start := rfl
@[simp] theorem State.dropTrees_st (s : State) : (s.dropTrees).st = s.st := rfl
@[simp] theorem State.dropTrees_pos (s : State) : (s.dropTrees).pos = s.pos := rfl
@[simp] theorem State.dropTrees_bfinal (s : State) : (s.dropTrees).bfinal = s.bfinal := rfl
@[simp] theorem State.dropTrees_btype (s : State) : (s.dropTrees).btype = s.btype := rfl
@[simp] theorem State.dropTrees_srem (s : State) : (s.dropTrees).srem = s.srem := rfl
@[simp] theorem State.dropTrees_hlit (s : State) : (s.dropTrees).hlit = s.hlit := rfl
@[simp] theorem State.dropTrees_hdist (s : State) : (s.dropTrees).hdist = s.hdist := rfl
@[simp] theorem State.dropTrees_hclen (s : State) : (s.dropTrees).hclen = s.hclen := rfl
@[simp] theorem State.dropTrees_clcl (s : State) : (s.dropTrees).clcl = s.clcl := rfl
@[simp] theorem State.dropTrees_ci (s : State) : (s.dropTrees).ci = s.ci := rfl
@[simp] theorem State.dropTrees_lens (s : State) : (s.dropTrees).lens = s.lens := rfl
@[simp] theorem State.dropTrees_li (s : State) : (s.dropTrees).li = s.li := rfl
@[simp] theorem State.dropTrees_clt (s : State) : (s.dropTrees).clt = none := rfl
@[simp] theorem State.dropTrees_llt (s : State) : (s.dropTrees).llt = none := rfl
@[simp] theorem State.dropTrees_dt (s : State) : (s.dropTrees).dt = none := rfl
@[simp] theorem State.dropTrees_cplen (s : State) : (s.dropTrees).cplen = s.cplen := rfl
@[simp] theorem State.dropTrees_cpdist (s : State) : (s.dropTrees).cpdist = s.cpdist := rfl
@[simp] theorem State.dropTrees_emitted (s : State) : (s.dropTrees).emitted = s.emitted := rfl
@[simp] theorem State.dropTrees_win (s : State) : (s.dropTrees).win = s.win := rfl
@[simp] theorem State.dropTrees_errk (s : State) : (s.dropTrees).errk = s.errk := rfl
@[simp] theorem State.dropTrees_errpos (s : State) : (s.dropTrees).errpos = s.errpos := rfl
@[simp] theorem State.dropTrees_out (s : State) : (s.dropTrees).out = s.out := rfl
@[simp] theorem State.dropTrees_frontEnd (s : State) : (s.dropTrees).frontEnd = s.frontEnd := rfl

/-! ### endBlock -/

@[simp] theorem State.endBlock_input (s : State) : (s.endBlock).input = s.input := rfl
@[simp] theorem State.endBlock_inLen (s : State) : (s.endBlock).inLen = s.inLen := rfl
@[simp] theorem State.endBlock_start (s : State) : (s.endBlock).start = s.start := rfl
@[simp] theorem State.endBlock_st (s : State) : (s.endBlock).st = afterBlock s.bfinal := rfl
@[simp] theorem State.endBlock_pos (s : State) : (s.endBlock).pos = s.pos := rfl
@[simp] theorem State.endBlock_bfinal (s : State) : (s.endBlock).bfinal = s.bfinal := rfl
@[simp] theorem State.endBlock_btype (s : State) : (s.endBlock).btype = s.btype := rfl
@[simp] theorem State.endBlock_srem (s : State) : (s.endBlock).srem = s.srem := rfl
@[simp] theorem State.endBlock_hlit (s : State) : (s.endBlock).hlit = s.hlit := rfl
@[simp] theorem State.endBlock_hdist (s : State) : (s.endBlock).hdist = s.hdist := rfl
@[simp] theorem State.endBlock_hclen (s : State) : (s.endBlock).hclen = s.hclen := rfl
@[simp] theorem State.endBlock_clcl (s : State) : (s.endBlock).clcl = s.clcl := rfl
@[simp] theorem State.endBlock_ci (s : State) : (s.endBlock).ci = s.ci := rfl
@[simp] theorem State.endBlock_lens (s : State) : (s.endBlock).lens = s.lens := rfl
@[simp] theorem State.endBlock_li (s : State) : (s.endBlock).li = s.li := rfl
@[simp] theorem State.endBlock_clt (s : State) : (s.endBlock).clt = none := rfl
@[simp] theorem State.endBlock_llt (s : State) : (s.endBlock).llt = none := rfl
@[simp] theorem State.endBlock_dt (s : State) : (s.endBlock).dt = none := rfl
@[simp] theorem State.endBlock_cplen (s : State) : (s.endBlock).cplen = s.cplen := rfl
@[simp] theorem State.endBlock_cpdist (s : State) : (s.endBlock).cpdist = s.cpdist := rfl
@[simp] theorem State.endBlock_emitted (s : State) : (s.endBlock).emitted = s.emitted := rfl
@[simp] theorem State.endBlock_win (s : State) : (s.endBlock).win = s.win := rfl
@[simp] theorem State.endBlock_errk (s : State) : (s.endBlock).errk = s.errk := rfl
@[simp] theorem State.endBlock_errpos (s : State) : (s.endBlock).errpos = s.errpos := rfl
@[simp] theorem State.endBlock_out (s : State) : (s.endBlock).out = s.out := rfl
@[simp] theorem State.endBlock_frontEnd (s : State) : (s.endBlock).frontEnd = s.frontEnd := rfl

/-! ### writeLens -/

@[simp] theorem State.writeLens_input (s : State) (v : BitVec 4) (r : Nat) : (s.writeLens v r).input = s.input := rfl
@[simp] theorem State.writeLens_inLen (s : State) (v : BitVec 4) (r : Nat) : (s.writeLens v r).inLen = s.inLen := rfl
@[simp] theorem State.writeLens_start (s : State) (v : BitVec 4) (r : Nat) : (s.writeLens v r).start = s.start := rfl
@[simp] theorem State.writeLens_st (s : State) (v : BitVec 4) (r : Nat) : (s.writeLens v r).st = s.st := rfl
@[simp] theorem State.writeLens_pos (s : State) (v : BitVec 4) (r : Nat) : (s.writeLens v r).pos = s.pos := rfl
@[simp] theorem State.writeLens_bfinal (s : State) (v : BitVec 4) (r : Nat) : (s.writeLens v r).bfinal = s.bfinal := rfl
@[simp] theorem State.writeLens_btype (s : State) (v : BitVec 4) (r : Nat) : (s.writeLens v r).btype = s.btype := rfl
@[simp] theorem State.writeLens_srem (s : State) (v : BitVec 4) (r : Nat) : (s.writeLens v r).srem = s.srem := rfl
@[simp] theorem State.writeLens_hlit (s : State) (v : BitVec 4) (r : Nat) : (s.writeLens v r).hlit = s.hlit := rfl
@[simp] theorem State.writeLens_hdist (s : State) (v : BitVec 4) (r : Nat) : (s.writeLens v r).hdist = s.hdist := rfl
@[simp] theorem State.writeLens_hclen (s : State) (v : BitVec 4) (r : Nat) : (s.writeLens v r).hclen = s.hclen := rfl
@[simp] theorem State.writeLens_clcl (s : State) (v : BitVec 4) (r : Nat) : (s.writeLens v r).clcl = s.clcl := rfl
@[simp] theorem State.writeLens_ci (s : State) (v : BitVec 4) (r : Nat) : (s.writeLens v r).ci = s.ci := rfl
@[simp] theorem State.writeLens_lens (s : State) (v : BitVec 4) (r : Nat) : (s.writeLens v r).lens = setRange s.lens v s.li.toNat r := rfl
@[simp] theorem State.writeLens_li (s : State) (v : BitVec 4) (r : Nat) : (s.writeLens v r).li = BitVec.ofNat 9 (s.li.toNat + r) := rfl
@[simp] theorem State.writeLens_clt (s : State) (v : BitVec 4) (r : Nat) : (s.writeLens v r).clt = s.clt := rfl
@[simp] theorem State.writeLens_llt (s : State) (v : BitVec 4) (r : Nat) : (s.writeLens v r).llt = s.llt := rfl
@[simp] theorem State.writeLens_dt (s : State) (v : BitVec 4) (r : Nat) : (s.writeLens v r).dt = s.dt := rfl
@[simp] theorem State.writeLens_cplen (s : State) (v : BitVec 4) (r : Nat) : (s.writeLens v r).cplen = s.cplen := rfl
@[simp] theorem State.writeLens_cpdist (s : State) (v : BitVec 4) (r : Nat) : (s.writeLens v r).cpdist = s.cpdist := rfl
@[simp] theorem State.writeLens_emitted (s : State) (v : BitVec 4) (r : Nat) : (s.writeLens v r).emitted = s.emitted := rfl
@[simp] theorem State.writeLens_win (s : State) (v : BitVec 4) (r : Nat) : (s.writeLens v r).win = s.win := rfl
@[simp] theorem State.writeLens_errk (s : State) (v : BitVec 4) (r : Nat) : (s.writeLens v r).errk = s.errk := rfl
@[simp] theorem State.writeLens_errpos (s : State) (v : BitVec 4) (r : Nat) : (s.writeLens v r).errpos = s.errpos := rfl
@[simp] theorem State.writeLens_out (s : State) (v : BitVec 4) (r : Nat) : (s.writeLens v r).out = s.out := rfl
@[simp] theorem State.writeLens_frontEnd (s : State) (v : BitVec 4) (r : Nat) : (s.writeLens v r).frontEnd = s.frontEnd := rfl

/-! ### setFinal -/

@[simp] theorem State.setFinal_input (s : State) (f : Bool) : (s.setFinal f).input = s.input := rfl
@[simp] theorem State.setFinal_inLen (s : State) (f : Bool) : (s.setFinal f).inLen = s.inLen := rfl
@[simp] theorem State.setFinal_start (s : State) (f : Bool) : (s.setFinal f).start = s.start := rfl
@[simp] theorem State.setFinal_st (s : State) (f : Bool) : (s.setFinal f).st = s.st := rfl
@[simp] theorem State.setFinal_pos (s : State) (f : Bool) : (s.setFinal f).pos = s.pos := rfl
@[simp] theorem State.setFinal_bfinal (s : State) (f : Bool) : (s.setFinal f).bfinal = f := rfl
@[simp] theorem State.setFinal_btype (s : State) (f : Bool) : (s.setFinal f).btype = s.btype := rfl
@[simp] theorem State.setFinal_srem (s : State) (f : Bool) : (s.setFinal f).srem = s.srem := rfl
@[simp] theorem State.setFinal_hlit (s : State) (f : Bool) : (s.setFinal f).hlit = s.hlit := rfl
@[simp] theorem State.setFinal_hdist (s : State) (f : Bool) : (s.setFinal f).hdist = s.hdist := rfl
@[simp] theorem State.setFinal_hclen (s : State) (f : Bool) : (s.setFinal f).hclen = s.hclen := rfl
@[simp] theorem State.setFinal_clcl (s : State) (f : Bool) : (s.setFinal f).clcl = s.clcl := rfl
@[simp] theorem State.setFinal_ci (s : State) (f : Bool) : (s.setFinal f).ci = s.ci := rfl
@[simp] theorem State.setFinal_lens (s : State) (f : Bool) : (s.setFinal f).lens = s.lens := rfl
@[simp] theorem State.setFinal_li (s : State) (f : Bool) : (s.setFinal f).li = s.li := rfl
@[simp] theorem State.setFinal_clt (s : State) (f : Bool) : (s.setFinal f).clt = s.clt := rfl
@[simp] theorem State.setFinal_llt (s : State) (f : Bool) : (s.setFinal f).llt = s.llt := rfl
@[simp] theorem State.setFinal_dt (s : State) (f : Bool) : (s.setFinal f).dt = s.dt := rfl
@[simp] theorem State.setFinal_cplen (s : State) (f : Bool) : (s.setFinal f).cplen = s.cplen := rfl
@[simp] theorem State.setFinal_cpdist (s : State) (f : Bool) : (s.setFinal f).cpdist = s.cpdist := rfl
@[simp] theorem State.setFinal_emitted (s : State) (f : Bool) : (s.setFinal f).emitted = s.emitted := rfl
@[simp] theorem State.setFinal_win (s : State) (f : Bool) : (s.setFinal f).win = s.win := rfl
@[simp] theorem State.setFinal_errk (s : State) (f : Bool) : (s.setFinal f).errk = s.errk := rfl
@[simp] theorem State.setFinal_errpos (s : State) (f : Bool) : (s.setFinal f).errpos = s.errpos := rfl
@[simp] theorem State.setFinal_out (s : State) (f : Bool) : (s.setFinal f).out = s.out := rfl
@[simp] theorem State.setFinal_frontEnd (s : State) (f : Bool) : (s.setFinal f).frontEnd = s.frontEnd := rfl

/-! ### setType -/

@[simp] theorem State.setType_input (s : State) (t : BitVec 2) : (s.setType t).input = s.input := rfl
@[simp] theorem State.setType_inLen (s : State) (t : BitVec 2) : (s.setType t).inLen = s.inLen := rfl
@[simp] theorem State.setType_start (s : State) (t : BitVec 2) : (s.setType t).start = s.start := rfl
@[simp] theorem State.setType_st (s : State) (t : BitVec 2) : (s.setType t).st = s.st := rfl
@[simp] theorem State.setType_pos (s : State) (t : BitVec 2) : (s.setType t).pos = s.pos := rfl
@[simp] theorem State.setType_bfinal (s : State) (t : BitVec 2) : (s.setType t).bfinal = s.bfinal := rfl
@[simp] theorem State.setType_btype (s : State) (t : BitVec 2) : (s.setType t).btype = t := rfl
@[simp] theorem State.setType_srem (s : State) (t : BitVec 2) : (s.setType t).srem = s.srem := rfl
@[simp] theorem State.setType_hlit (s : State) (t : BitVec 2) : (s.setType t).hlit = s.hlit := rfl
@[simp] theorem State.setType_hdist (s : State) (t : BitVec 2) : (s.setType t).hdist = s.hdist := rfl
@[simp] theorem State.setType_hclen (s : State) (t : BitVec 2) : (s.setType t).hclen = s.hclen := rfl
@[simp] theorem State.setType_clcl (s : State) (t : BitVec 2) : (s.setType t).clcl = s.clcl := rfl
@[simp] theorem State.setType_ci (s : State) (t : BitVec 2) : (s.setType t).ci = s.ci := rfl
@[simp] theorem State.setType_lens (s : State) (t : BitVec 2) : (s.setType t).lens = s.lens := rfl
@[simp] theorem State.setType_li (s : State) (t : BitVec 2) : (s.setType t).li = s.li := rfl
@[simp] theorem State.setType_clt (s : State) (t : BitVec 2) : (s.setType t).clt = s.clt := rfl
@[simp] theorem State.setType_llt (s : State) (t : BitVec 2) : (s.setType t).llt = s.llt := rfl
@[simp] theorem State.setType_dt (s : State) (t : BitVec 2) : (s.setType t).dt = s.dt := rfl
@[simp] theorem State.setType_cplen (s : State) (t : BitVec 2) : (s.setType t).cplen = s.cplen := rfl
@[simp] theorem State.setType_cpdist (s : State) (t : BitVec 2) : (s.setType t).cpdist = s.cpdist := rfl
@[simp] theorem State.setType_emitted (s : State) (t : BitVec 2) : (s.setType t).emitted = s.emitted := rfl
@[simp] theorem State.setType_win (s : State) (t : BitVec 2) : (s.setType t).win = s.win := rfl
@[simp] theorem State.setType_errk (s : State) (t : BitVec 2) : (s.setType t).errk = s.errk := rfl
@[simp] theorem State.setType_errpos (s : State) (t : BitVec 2) : (s.setType t).errpos = s.errpos := rfl
@[simp] theorem State.setType_out (s : State) (t : BitVec 2) : (s.setType t).out = s.out := rfl
@[simp] theorem State.setType_frontEnd (s : State) (t : BitVec 2) : (s.setType t).frontEnd = s.frontEnd := rfl

/-! ### loadFixedTrees -/

@[simp] theorem State.loadFixedTrees_input (s : State) : (s.loadFixedTrees).input = s.input := rfl
@[simp] theorem State.loadFixedTrees_inLen (s : State) : (s.loadFixedTrees).inLen = s.inLen := rfl
@[simp] theorem State.loadFixedTrees_start (s : State) : (s.loadFixedTrees).start = s.start := rfl
@[simp] theorem State.loadFixedTrees_st (s : State) : (s.loadFixedTrees).st = s.st := rfl
@[simp] theorem State.loadFixedTrees_pos (s : State) : (s.loadFixedTrees).pos = s.pos := rfl
@[simp] theorem State.loadFixedTrees_bfinal (s : State) : (s.loadFixedTrees).bfinal = s.bfinal := rfl
@[simp] theorem State.loadFixedTrees_btype (s : State) : (s.loadFixedTrees).btype = s.btype := rfl
@[simp] theorem State.loadFixedTrees_srem (s : State) : (s.loadFixedTrees).srem = s.srem := rfl
@[simp] theorem State.loadFixedTrees_hlit (s : State) : (s.loadFixedTrees).hlit = s.hlit := rfl
@[simp] theorem State.loadFixedTrees_hdist (s : State) : (s.loadFixedTrees).hdist = s.hdist := rfl
@[simp] theorem State.loadFixedTrees_hclen (s : State) : (s.loadFixedTrees).hclen = s.hclen := rfl
@[simp] theorem State.loadFixedTrees_clcl (s : State) : (s.loadFixedTrees).clcl = s.clcl := rfl
@[simp] theorem State.loadFixedTrees_ci (s : State) : (s.loadFixedTrees).ci = s.ci := rfl
@[simp] theorem State.loadFixedTrees_lens (s : State) : (s.loadFixedTrees).lens = s.lens := rfl
@[simp] theorem State.loadFixedTrees_li (s : State) : (s.loadFixedTrees).li = s.li := rfl
@[simp] theorem State.loadFixedTrees_clt (s : State) : (s.loadFixedTrees).clt = s.clt := rfl
@[simp] theorem State.loadFixedTrees_llt (s : State) : (s.loadFixedTrees).llt = some Huffman.fixedLitLen := rfl
@[simp] theorem State.loadFixedTrees_dt (s : State) : (s.loadFixedTrees).dt = some Huffman.fixedDist := rfl
@[simp] theorem State.loadFixedTrees_cplen (s : State) : (s.loadFixedTrees).cplen = s.cplen := rfl
@[simp] theorem State.loadFixedTrees_cpdist (s : State) : (s.loadFixedTrees).cpdist = s.cpdist := rfl
@[simp] theorem State.loadFixedTrees_emitted (s : State) : (s.loadFixedTrees).emitted = s.emitted := rfl
@[simp] theorem State.loadFixedTrees_win (s : State) : (s.loadFixedTrees).win = s.win := rfl
@[simp] theorem State.loadFixedTrees_errk (s : State) : (s.loadFixedTrees).errk = s.errk := rfl
@[simp] theorem State.loadFixedTrees_errpos (s : State) : (s.loadFixedTrees).errpos = s.errpos := rfl
@[simp] theorem State.loadFixedTrees_out (s : State) : (s.loadFixedTrees).out = s.out := rfl
@[simp] theorem State.loadFixedTrees_frontEnd (s : State) : (s.loadFixedTrees).frontEnd = s.frontEnd := rfl

/-! ### setSrem -/

@[simp] theorem State.setSrem_input (s : State) (n : BitVec 16) : (s.setSrem n).input = s.input := rfl
@[simp] theorem State.setSrem_inLen (s : State) (n : BitVec 16) : (s.setSrem n).inLen = s.inLen := rfl
@[simp] theorem State.setSrem_start (s : State) (n : BitVec 16) : (s.setSrem n).start = s.start := rfl
@[simp] theorem State.setSrem_st (s : State) (n : BitVec 16) : (s.setSrem n).st = s.st := rfl
@[simp] theorem State.setSrem_pos (s : State) (n : BitVec 16) : (s.setSrem n).pos = s.pos := rfl
@[simp] theorem State.setSrem_bfinal (s : State) (n : BitVec 16) : (s.setSrem n).bfinal = s.bfinal := rfl
@[simp] theorem State.setSrem_btype (s : State) (n : BitVec 16) : (s.setSrem n).btype = s.btype := rfl
@[simp] theorem State.setSrem_srem (s : State) (n : BitVec 16) : (s.setSrem n).srem = n := rfl
@[simp] theorem State.setSrem_hlit (s : State) (n : BitVec 16) : (s.setSrem n).hlit = s.hlit := rfl
@[simp] theorem State.setSrem_hdist (s : State) (n : BitVec 16) : (s.setSrem n).hdist = s.hdist := rfl
@[simp] theorem State.setSrem_hclen (s : State) (n : BitVec 16) : (s.setSrem n).hclen = s.hclen := rfl
@[simp] theorem State.setSrem_clcl (s : State) (n : BitVec 16) : (s.setSrem n).clcl = s.clcl := rfl
@[simp] theorem State.setSrem_ci (s : State) (n : BitVec 16) : (s.setSrem n).ci = s.ci := rfl
@[simp] theorem State.setSrem_lens (s : State) (n : BitVec 16) : (s.setSrem n).lens = s.lens := rfl
@[simp] theorem State.setSrem_li (s : State) (n : BitVec 16) : (s.setSrem n).li = s.li := rfl
@[simp] theorem State.setSrem_clt (s : State) (n : BitVec 16) : (s.setSrem n).clt = s.clt := rfl
@[simp] theorem State.setSrem_llt (s : State) (n : BitVec 16) : (s.setSrem n).llt = s.llt := rfl
@[simp] theorem State.setSrem_dt (s : State) (n : BitVec 16) : (s.setSrem n).dt = s.dt := rfl
@[simp] theorem State.setSrem_cplen (s : State) (n : BitVec 16) : (s.setSrem n).cplen = s.cplen := rfl
@[simp] theorem State.setSrem_cpdist (s : State) (n : BitVec 16) : (s.setSrem n).cpdist = s.cpdist := rfl
@[simp] theorem State.setSrem_emitted (s : State) (n : BitVec 16) : (s.setSrem n).emitted = s.emitted := rfl
@[simp] theorem State.setSrem_win (s : State) (n : BitVec 16) : (s.setSrem n).win = s.win := rfl
@[simp] theorem State.setSrem_errk (s : State) (n : BitVec 16) : (s.setSrem n).errk = s.errk := rfl
@[simp] theorem State.setSrem_errpos (s : State) (n : BitVec 16) : (s.setSrem n).errpos = s.errpos := rfl
@[simp] theorem State.setSrem_out (s : State) (n : BitVec 16) : (s.setSrem n).out = s.out := rfl
@[simp] theorem State.setSrem_frontEnd (s : State) (n : BitVec 16) : (s.setSrem n).frontEnd = s.frontEnd := rfl

/-! ### setCplen -/

@[simp] theorem State.setCplen_input (s : State) (n : BitVec 9) : (s.setCplen n).input = s.input := rfl
@[simp] theorem State.setCplen_inLen (s : State) (n : BitVec 9) : (s.setCplen n).inLen = s.inLen := rfl
@[simp] theorem State.setCplen_start (s : State) (n : BitVec 9) : (s.setCplen n).start = s.start := rfl
@[simp] theorem State.setCplen_st (s : State) (n : BitVec 9) : (s.setCplen n).st = s.st := rfl
@[simp] theorem State.setCplen_pos (s : State) (n : BitVec 9) : (s.setCplen n).pos = s.pos := rfl
@[simp] theorem State.setCplen_bfinal (s : State) (n : BitVec 9) : (s.setCplen n).bfinal = s.bfinal := rfl
@[simp] theorem State.setCplen_btype (s : State) (n : BitVec 9) : (s.setCplen n).btype = s.btype := rfl
@[simp] theorem State.setCplen_srem (s : State) (n : BitVec 9) : (s.setCplen n).srem = s.srem := rfl
@[simp] theorem State.setCplen_hlit (s : State) (n : BitVec 9) : (s.setCplen n).hlit = s.hlit := rfl
@[simp] theorem State.setCplen_hdist (s : State) (n : BitVec 9) : (s.setCplen n).hdist = s.hdist := rfl
@[simp] theorem State.setCplen_hclen (s : State) (n : BitVec 9) : (s.setCplen n).hclen = s.hclen := rfl
@[simp] theorem State.setCplen_clcl (s : State) (n : BitVec 9) : (s.setCplen n).clcl = s.clcl := rfl
@[simp] theorem State.setCplen_ci (s : State) (n : BitVec 9) : (s.setCplen n).ci = s.ci := rfl
@[simp] theorem State.setCplen_lens (s : State) (n : BitVec 9) : (s.setCplen n).lens = s.lens := rfl
@[simp] theorem State.setCplen_li (s : State) (n : BitVec 9) : (s.setCplen n).li = s.li := rfl
@[simp] theorem State.setCplen_clt (s : State) (n : BitVec 9) : (s.setCplen n).clt = s.clt := rfl
@[simp] theorem State.setCplen_llt (s : State) (n : BitVec 9) : (s.setCplen n).llt = s.llt := rfl
@[simp] theorem State.setCplen_dt (s : State) (n : BitVec 9) : (s.setCplen n).dt = s.dt := rfl
@[simp] theorem State.setCplen_cplen (s : State) (n : BitVec 9) : (s.setCplen n).cplen = n := rfl
@[simp] theorem State.setCplen_cpdist (s : State) (n : BitVec 9) : (s.setCplen n).cpdist = s.cpdist := rfl
@[simp] theorem State.setCplen_emitted (s : State) (n : BitVec 9) : (s.setCplen n).emitted = s.emitted := rfl
@[simp] theorem State.setCplen_win (s : State) (n : BitVec 9) : (s.setCplen n).win = s.win := rfl
@[simp] theorem State.setCplen_errk (s : State) (n : BitVec 9) : (s.setCplen n).errk = s.errk := rfl
@[simp] theorem State.setCplen_errpos (s : State) (n : BitVec 9) : (s.setCplen n).errpos = s.errpos := rfl
@[simp] theorem State.setCplen_out (s : State) (n : BitVec 9) : (s.setCplen n).out = s.out := rfl
@[simp] theorem State.setCplen_frontEnd (s : State) (n : BitVec 9) : (s.setCplen n).frontEnd = s.frontEnd := rfl

/-! ### setLlt -/

@[simp] theorem State.setLlt_input (s : State) (t : Tree) : (s.setLlt t).input = s.input := rfl
@[simp] theorem State.setLlt_inLen (s : State) (t : Tree) : (s.setLlt t).inLen = s.inLen := rfl
@[simp] theorem State.setLlt_start (s : State) (t : Tree) : (s.setLlt t).start = s.start := rfl
@[simp] theorem State.setLlt_st (s : State) (t : Tree) : (s.setLlt t).st = s.st := rfl
@[simp] theorem State.setLlt_pos (s : State) (t : Tree) : (s.setLlt t).pos = s.pos := rfl
@[simp] theorem State.setLlt_bfinal (s : State) (t : Tree) : (s.setLlt t).bfinal = s.bfinal := rfl
@[simp] theorem State.setLlt_btype (s : State) (t : Tree) : (s.setLlt t).btype = s.btype := rfl
@[simp] theorem State.setLlt_srem (s : State) (t : Tree) : (s.setLlt t).srem = s.srem := rfl
@[simp] theorem State.setLlt_hlit (s : State) (t : Tree) : (s.setLlt t).hlit = s.hlit := rfl
@[simp] theorem State.setLlt_hdist (s : State) (t : Tree) : (s.setLlt t).hdist = s.hdist := rfl
@[simp] theorem State.setLlt_hclen (s : State) (t : Tree) : (s.setLlt t).hclen = s.hclen := rfl
@[simp] theorem State.setLlt_clcl (s : State) (t : Tree) : (s.setLlt t).clcl = s.clcl := rfl
@[simp] theorem State.setLlt_ci (s : State) (t : Tree) : (s.setLlt t).ci = s.ci := rfl
@[simp] theorem State.setLlt_lens (s : State) (t : Tree) : (s.setLlt t).lens = s.lens := rfl
@[simp] theorem State.setLlt_li (s : State) (t : Tree) : (s.setLlt t).li = s.li := rfl
@[simp] theorem State.setLlt_clt (s : State) (t : Tree) : (s.setLlt t).clt = s.clt := rfl
@[simp] theorem State.setLlt_llt (s : State) (t : Tree) : (s.setLlt t).llt = some t := rfl
@[simp] theorem State.setLlt_dt (s : State) (t : Tree) : (s.setLlt t).dt = s.dt := rfl
@[simp] theorem State.setLlt_cplen (s : State) (t : Tree) : (s.setLlt t).cplen = s.cplen := rfl
@[simp] theorem State.setLlt_cpdist (s : State) (t : Tree) : (s.setLlt t).cpdist = s.cpdist := rfl
@[simp] theorem State.setLlt_emitted (s : State) (t : Tree) : (s.setLlt t).emitted = s.emitted := rfl
@[simp] theorem State.setLlt_win (s : State) (t : Tree) : (s.setLlt t).win = s.win := rfl
@[simp] theorem State.setLlt_errk (s : State) (t : Tree) : (s.setLlt t).errk = s.errk := rfl
@[simp] theorem State.setLlt_errpos (s : State) (t : Tree) : (s.setLlt t).errpos = s.errpos := rfl
@[simp] theorem State.setLlt_out (s : State) (t : Tree) : (s.setLlt t).out = s.out := rfl
@[simp] theorem State.setLlt_frontEnd (s : State) (t : Tree) : (s.setLlt t).frontEnd = s.frontEnd := rfl

/-! ### putClcl -/

@[simp] theorem State.putClcl_input (s : State) (k : Nat) (v : BitVec 3) : (s.putClcl k v).input = s.input := rfl
@[simp] theorem State.putClcl_inLen (s : State) (k : Nat) (v : BitVec 3) : (s.putClcl k v).inLen = s.inLen := rfl
@[simp] theorem State.putClcl_start (s : State) (k : Nat) (v : BitVec 3) : (s.putClcl k v).start = s.start := rfl
@[simp] theorem State.putClcl_st (s : State) (k : Nat) (v : BitVec 3) : (s.putClcl k v).st = s.st := rfl
@[simp] theorem State.putClcl_pos (s : State) (k : Nat) (v : BitVec 3) : (s.putClcl k v).pos = s.pos := rfl
@[simp] theorem State.putClcl_bfinal (s : State) (k : Nat) (v : BitVec 3) : (s.putClcl k v).bfinal = s.bfinal := rfl
@[simp] theorem State.putClcl_btype (s : State) (k : Nat) (v : BitVec 3) : (s.putClcl k v).btype = s.btype := rfl
@[simp] theorem State.putClcl_srem (s : State) (k : Nat) (v : BitVec 3) : (s.putClcl k v).srem = s.srem := rfl
@[simp] theorem State.putClcl_hlit (s : State) (k : Nat) (v : BitVec 3) : (s.putClcl k v).hlit = s.hlit := rfl
@[simp] theorem State.putClcl_hdist (s : State) (k : Nat) (v : BitVec 3) : (s.putClcl k v).hdist = s.hdist := rfl
@[simp] theorem State.putClcl_hclen (s : State) (k : Nat) (v : BitVec 3) : (s.putClcl k v).hclen = s.hclen := rfl
@[simp] theorem State.putClcl_clcl (s : State) (k : Nat) (v : BitVec 3) : (s.putClcl k v).clcl = s.clcl.setIfInBounds k v := rfl
@[simp] theorem State.putClcl_ci (s : State) (k : Nat) (v : BitVec 3) : (s.putClcl k v).ci = s.ci + 1 := rfl
@[simp] theorem State.putClcl_lens (s : State) (k : Nat) (v : BitVec 3) : (s.putClcl k v).lens = s.lens := rfl
@[simp] theorem State.putClcl_li (s : State) (k : Nat) (v : BitVec 3) : (s.putClcl k v).li = s.li := rfl
@[simp] theorem State.putClcl_clt (s : State) (k : Nat) (v : BitVec 3) : (s.putClcl k v).clt = s.clt := rfl
@[simp] theorem State.putClcl_llt (s : State) (k : Nat) (v : BitVec 3) : (s.putClcl k v).llt = s.llt := rfl
@[simp] theorem State.putClcl_dt (s : State) (k : Nat) (v : BitVec 3) : (s.putClcl k v).dt = s.dt := rfl
@[simp] theorem State.putClcl_cplen (s : State) (k : Nat) (v : BitVec 3) : (s.putClcl k v).cplen = s.cplen := rfl
@[simp] theorem State.putClcl_cpdist (s : State) (k : Nat) (v : BitVec 3) : (s.putClcl k v).cpdist = s.cpdist := rfl
@[simp] theorem State.putClcl_emitted (s : State) (k : Nat) (v : BitVec 3) : (s.putClcl k v).emitted = s.emitted := rfl
@[simp] theorem State.putClcl_win (s : State) (k : Nat) (v : BitVec 3) : (s.putClcl k v).win = s.win := rfl
@[simp] theorem State.putClcl_errk (s : State) (k : Nat) (v : BitVec 3) : (s.putClcl k v).errk = s.errk := rfl
@[simp] theorem State.putClcl_errpos (s : State) (k : Nat) (v : BitVec 3) : (s.putClcl k v).errpos = s.errpos := rfl
@[simp] theorem State.putClcl_out (s : State) (k : Nat) (v : BitVec 3) : (s.putClcl k v).out = s.out := rfl
@[simp] theorem State.putClcl_frontEnd (s : State) (k : Nat) (v : BitVec 3) : (s.putClcl k v).frontEnd = s.frontEnd := rfl

/-! ### failMember -/

@[simp] theorem State.failMember_input (s : State) (k : ErrKind) (r : Option HeaderReason) (p : Nat) : (s.failMember k r p).input = s.input := rfl
@[simp] theorem State.failMember_inLen (s : State) (k : ErrKind) (r : Option HeaderReason) (p : Nat) : (s.failMember k r p).inLen = s.inLen := rfl
@[simp] theorem State.failMember_start (s : State) (k : ErrKind) (r : Option HeaderReason) (p : Nat) : (s.failMember k r p).start = s.start := rfl
@[simp] theorem State.failMember_st (s : State) (k : ErrKind) (r : Option HeaderReason) (p : Nat) : (s.failMember k r p).st = s.st := rfl
@[simp] theorem State.failMember_pos (s : State) (k : ErrKind) (r : Option HeaderReason) (p : Nat) : (s.failMember k r p).pos = s.pos := rfl
@[simp] theorem State.failMember_bfinal (s : State) (k : ErrKind) (r : Option HeaderReason) (p : Nat) : (s.failMember k r p).bfinal = s.bfinal := rfl
@[simp] theorem State.failMember_btype (s : State) (k : ErrKind) (r : Option HeaderReason) (p : Nat) : (s.failMember k r p).btype = s.btype := rfl
@[simp] theorem State.failMember_srem (s : State) (k : ErrKind) (r : Option HeaderReason) (p : Nat) : (s.failMember k r p).srem = s.srem := rfl
@[simp] theorem State.failMember_hlit (s : State) (k : ErrKind) (r : Option HeaderReason) (p : Nat) : (s.failMember k r p).hlit = s.hlit := rfl
@[simp] theorem State.failMember_hdist (s : State) (k : ErrKind) (r : Option HeaderReason) (p : Nat) : (s.failMember k r p).hdist = s.hdist := rfl
@[simp] theorem State.failMember_hclen (s : State) (k : ErrKind) (r : Option HeaderReason) (p : Nat) : (s.failMember k r p).hclen = s.hclen := rfl
@[simp] theorem State.failMember_clcl (s : State) (k : ErrKind) (r : Option HeaderReason) (p : Nat) : (s.failMember k r p).clcl = s.clcl := rfl
@[simp] theorem State.failMember_ci (s : State) (k : ErrKind) (r : Option HeaderReason) (p : Nat) : (s.failMember k r p).ci = s.ci := rfl
@[simp] theorem State.failMember_lens (s : State) (k : ErrKind) (r : Option HeaderReason) (p : Nat) : (s.failMember k r p).lens = s.lens := rfl
@[simp] theorem State.failMember_li (s : State) (k : ErrKind) (r : Option HeaderReason) (p : Nat) : (s.failMember k r p).li = s.li := rfl
@[simp] theorem State.failMember_clt (s : State) (k : ErrKind) (r : Option HeaderReason) (p : Nat) : (s.failMember k r p).clt = s.clt := rfl
@[simp] theorem State.failMember_llt (s : State) (k : ErrKind) (r : Option HeaderReason) (p : Nat) : (s.failMember k r p).llt = s.llt := rfl
@[simp] theorem State.failMember_dt (s : State) (k : ErrKind) (r : Option HeaderReason) (p : Nat) : (s.failMember k r p).dt = s.dt := rfl
@[simp] theorem State.failMember_cplen (s : State) (k : ErrKind) (r : Option HeaderReason) (p : Nat) : (s.failMember k r p).cplen = s.cplen := rfl
@[simp] theorem State.failMember_cpdist (s : State) (k : ErrKind) (r : Option HeaderReason) (p : Nat) : (s.failMember k r p).cpdist = s.cpdist := rfl
@[simp] theorem State.failMember_emitted (s : State) (k : ErrKind) (r : Option HeaderReason) (p : Nat) : (s.failMember k r p).emitted = s.emitted := rfl
@[simp] theorem State.failMember_win (s : State) (k : ErrKind) (r : Option HeaderReason) (p : Nat) : (s.failMember k r p).win = s.win := rfl
@[simp] theorem State.failMember_errk (s : State) (k : ErrKind) (r : Option HeaderReason) (p : Nat) : (s.failMember k r p).errk = s.errk := rfl
@[simp] theorem State.failMember_errpos (s : State) (k : ErrKind) (r : Option HeaderReason) (p : Nat) : (s.failMember k r p).errpos = s.errpos := rfl
@[simp] theorem State.failMember_out (s : State) (k : ErrKind) (r : Option HeaderReason) (p : Nat) : (s.failMember k r p).out = s.out := rfl
@[simp] theorem State.failMember_frontEnd (s : State) (k : ErrKind) (r : Option HeaderReason) (p : Nat) : (s.failMember k r p).frontEnd = .failed k r p := rfl

/-! ### hostGzip, startMember and the front end's array -/

@[simp] theorem hostGzip_input (s : State) (input : Memory) (len : Nat) : (hostGzip s input len).input = s.input := rfl
@[simp] theorem hostGzip_inLen (s : State) (input : Memory) (len : Nat) : (hostGzip s input len).inLen = s.inLen := rfl
@[simp] theorem hostGzip_start (s : State) (input : Memory) (len : Nat) : (hostGzip s input len).start = s.start := rfl
@[simp] theorem hostGzip_st (s : State) (input : Memory) (len : Nat) : (hostGzip s input len).st = s.st := rfl
@[simp] theorem hostGzip_pos (s : State) (input : Memory) (len : Nat) : (hostGzip s input len).pos = s.pos := rfl
@[simp] theorem hostGzip_bfinal (s : State) (input : Memory) (len : Nat) : (hostGzip s input len).bfinal = s.bfinal := rfl
@[simp] theorem hostGzip_btype (s : State) (input : Memory) (len : Nat) : (hostGzip s input len).btype = s.btype := rfl
@[simp] theorem hostGzip_srem (s : State) (input : Memory) (len : Nat) : (hostGzip s input len).srem = s.srem := rfl
@[simp] theorem hostGzip_hlit (s : State) (input : Memory) (len : Nat) : (hostGzip s input len).hlit = s.hlit := rfl
@[simp] theorem hostGzip_hdist (s : State) (input : Memory) (len : Nat) : (hostGzip s input len).hdist = s.hdist := rfl
@[simp] theorem hostGzip_hclen (s : State) (input : Memory) (len : Nat) : (hostGzip s input len).hclen = s.hclen := rfl
@[simp] theorem hostGzip_clcl (s : State) (input : Memory) (len : Nat) : (hostGzip s input len).clcl = s.clcl := rfl
@[simp] theorem hostGzip_ci (s : State) (input : Memory) (len : Nat) : (hostGzip s input len).ci = s.ci := rfl
@[simp] theorem hostGzip_lens (s : State) (input : Memory) (len : Nat) : (hostGzip s input len).lens = s.lens := rfl
@[simp] theorem hostGzip_li (s : State) (input : Memory) (len : Nat) : (hostGzip s input len).li = s.li := rfl
@[simp] theorem hostGzip_clt (s : State) (input : Memory) (len : Nat) : (hostGzip s input len).clt = s.clt := rfl
@[simp] theorem hostGzip_llt (s : State) (input : Memory) (len : Nat) : (hostGzip s input len).llt = s.llt := rfl
@[simp] theorem hostGzip_dt (s : State) (input : Memory) (len : Nat) : (hostGzip s input len).dt = s.dt := rfl
@[simp] theorem hostGzip_cplen (s : State) (input : Memory) (len : Nat) : (hostGzip s input len).cplen = s.cplen := rfl
@[simp] theorem hostGzip_cpdist (s : State) (input : Memory) (len : Nat) : (hostGzip s input len).cpdist = s.cpdist := rfl
@[simp] theorem hostGzip_emitted (s : State) (input : Memory) (len : Nat) : (hostGzip s input len).emitted = s.emitted := rfl
@[simp] theorem hostGzip_win (s : State) (input : Memory) (len : Nat) : (hostGzip s input len).win = s.win := rfl
@[simp] theorem hostGzip_errk (s : State) (input : Memory) (len : Nat) : (hostGzip s input len).errk = s.errk := rfl
@[simp] theorem hostGzip_errpos (s : State) (input : Memory) (len : Nat) : (hostGzip s input len).errpos = s.errpos := rfl
@[simp] theorem hostGzip_out (s : State) (input : Memory) (len : Nat) : (hostGzip s input len).out = s.out := rfl
@[simp] theorem hostGzip_frontEnd (s : State) (input : Memory) (len : Nat) : (hostGzip s input len).frontEnd = .requested input len := rfl

@[simp] theorem State.startMember_input (s : State) (h : GzipHeader) : (s.startMember h).input = s.member.input := rfl
@[simp] theorem State.startMember_inLen (s : State) (h : GzipHeader) : (s.startMember h).inLen = s.member.len := rfl
@[simp] theorem State.startMember_start (s : State) (h : GzipHeader) : (s.startMember h).start = h.size := rfl
@[simp] theorem State.startMember_st (s : State) (h : GzipHeader) : (s.startMember h).st = (State.atReset s.member.input s.member.len h.size).st := rfl
@[simp] theorem State.startMember_pos (s : State) (h : GzipHeader) : (s.startMember h).pos = 8 * h.size := rfl
@[simp] theorem State.startMember_bfinal (s : State) (h : GzipHeader) : (s.startMember h).bfinal = (State.atReset s.member.input s.member.len h.size).bfinal := rfl
@[simp] theorem State.startMember_btype (s : State) (h : GzipHeader) : (s.startMember h).btype = (State.atReset s.member.input s.member.len h.size).btype := rfl
@[simp] theorem State.startMember_srem (s : State) (h : GzipHeader) : (s.startMember h).srem = (State.atReset s.member.input s.member.len h.size).srem := rfl
@[simp] theorem State.startMember_hlit (s : State) (h : GzipHeader) : (s.startMember h).hlit = (State.atReset s.member.input s.member.len h.size).hlit := rfl
@[simp] theorem State.startMember_hdist (s : State) (h : GzipHeader) : (s.startMember h).hdist = (State.atReset s.member.input s.member.len h.size).hdist := rfl
@[simp] theorem State.startMember_hclen (s : State) (h : GzipHeader) : (s.startMember h).hclen = (State.atReset s.member.input s.member.len h.size).hclen := rfl
@[simp] theorem State.startMember_clcl (s : State) (h : GzipHeader) : (s.startMember h).clcl = (State.atReset s.member.input s.member.len h.size).clcl := rfl
@[simp] theorem State.startMember_ci (s : State) (h : GzipHeader) : (s.startMember h).ci = (State.atReset s.member.input s.member.len h.size).ci := rfl
@[simp] theorem State.startMember_lens (s : State) (h : GzipHeader) : (s.startMember h).lens = (State.atReset s.member.input s.member.len h.size).lens := rfl
@[simp] theorem State.startMember_li (s : State) (h : GzipHeader) : (s.startMember h).li = (State.atReset s.member.input s.member.len h.size).li := rfl
@[simp] theorem State.startMember_clt (s : State) (h : GzipHeader) : (s.startMember h).clt = (State.atReset s.member.input s.member.len h.size).clt := rfl
@[simp] theorem State.startMember_llt (s : State) (h : GzipHeader) : (s.startMember h).llt = (State.atReset s.member.input s.member.len h.size).llt := rfl
@[simp] theorem State.startMember_dt (s : State) (h : GzipHeader) : (s.startMember h).dt = (State.atReset s.member.input s.member.len h.size).dt := rfl
@[simp] theorem State.startMember_cplen (s : State) (h : GzipHeader) : (s.startMember h).cplen = (State.atReset s.member.input s.member.len h.size).cplen := rfl
@[simp] theorem State.startMember_cpdist (s : State) (h : GzipHeader) : (s.startMember h).cpdist = (State.atReset s.member.input s.member.len h.size).cpdist := rfl
@[simp] theorem State.startMember_emitted (s : State) (h : GzipHeader) : (s.startMember h).emitted = (State.atReset s.member.input s.member.len h.size).emitted := rfl
@[simp] theorem State.startMember_win (s : State) (h : GzipHeader) : (s.startMember h).win = (State.atReset s.member.input s.member.len h.size).win := rfl
@[simp] theorem State.startMember_errk (s : State) (h : GzipHeader) : (s.startMember h).errk = (State.atReset s.member.input s.member.len h.size).errk := rfl
@[simp] theorem State.startMember_errpos (s : State) (h : GzipHeader) : (s.startMember h).errpos = (State.atReset s.member.input s.member.len h.size).errpos := rfl
@[simp] theorem State.startMember_out (s : State) (h : GzipHeader) : (s.startMember h).out = (State.atReset s.member.input s.member.len h.size).out := rfl
@[simp] theorem State.startMember_frontEnd (s : State) (h : GzipHeader) : (s.startMember h).frontEnd = .accepted h h.size := rfl

theorem State.member_of_requested {s : State} {input : Memory} {len : Nat} (h : s.frontEnd = .requested input len) :
    s.member = ⟨input, len, 0⟩ := by simp [State.member, h]

theorem State.member_of_not_requested {s : State} (h : ∀ input len, s.frontEnd ≠ .requested input len) :
    s.member = ⟨s.input, s.inLen, 0⟩ := by
  unfold State.member
  split
  · rename_i he
    exact absurd he (h _ _)
  all_goals rfl

/-! ### updates by a plain function -/

@[simp] theorem startMatch_input (c : Nat) (e : Nat) (s : State) : (startMatch c e s).input = s.input := rfl
@[simp] theorem startMatch_inLen (c : Nat) (e : Nat) (s : State) : (startMatch c e s).inLen = s.inLen := rfl
@[simp] theorem startMatch_start (c : Nat) (e : Nat) (s : State) : (startMatch c e s).start = s.start := rfl
@[simp] theorem startMatch_st (c : Nat) (e : Nat) (s : State) : (startMatch c e s).st = .dist := rfl
@[simp] theorem startMatch_pos (c : Nat) (e : Nat) (s : State) : (startMatch c e s).pos = s.pos := rfl
@[simp] theorem startMatch_bfinal (c : Nat) (e : Nat) (s : State) : (startMatch c e s).bfinal = s.bfinal := rfl
@[simp] theorem startMatch_btype (c : Nat) (e : Nat) (s : State) : (startMatch c e s).btype = s.btype := rfl
@[simp] theorem startMatch_srem (c : Nat) (e : Nat) (s : State) : (startMatch c e s).srem = s.srem := rfl
@[simp] theorem startMatch_hlit (c : Nat) (e : Nat) (s : State) : (startMatch c e s).hlit = s.hlit := rfl
@[simp] theorem startMatch_hdist (c : Nat) (e : Nat) (s : State) : (startMatch c e s).hdist = s.hdist := rfl
@[simp] theorem startMatch_hclen (c : Nat) (e : Nat) (s : State) : (startMatch c e s).hclen = s.hclen := rfl
@[simp] theorem startMatch_clcl (c : Nat) (e : Nat) (s : State) : (startMatch c e s).clcl = s.clcl := rfl
@[simp] theorem startMatch_ci (c : Nat) (e : Nat) (s : State) : (startMatch c e s).ci = s.ci := rfl
@[simp] theorem startMatch_lens (c : Nat) (e : Nat) (s : State) : (startMatch c e s).lens = s.lens := rfl
@[simp] theorem startMatch_li (c : Nat) (e : Nat) (s : State) : (startMatch c e s).li = s.li := rfl
@[simp] theorem startMatch_clt (c : Nat) (e : Nat) (s : State) : (startMatch c e s).clt = s.clt := rfl
@[simp] theorem startMatch_llt (c : Nat) (e : Nat) (s : State) : (startMatch c e s).llt = s.llt := rfl
@[simp] theorem startMatch_dt (c : Nat) (e : Nat) (s : State) : (startMatch c e s).dt = s.dt := rfl
@[simp] theorem startMatch_cplen (c : Nat) (e : Nat) (s : State) : (startMatch c e s).cplen = BitVec.ofNat 9 (matchLength c e) := rfl
@[simp] theorem startMatch_cpdist (c : Nat) (e : Nat) (s : State) : (startMatch c e s).cpdist = s.cpdist := rfl
@[simp] theorem startMatch_emitted (c : Nat) (e : Nat) (s : State) : (startMatch c e s).emitted = s.emitted := rfl
@[simp] theorem startMatch_win (c : Nat) (e : Nat) (s : State) : (startMatch c e s).win = s.win := rfl
@[simp] theorem startMatch_errk (c : Nat) (e : Nat) (s : State) : (startMatch c e s).errk = s.errk := rfl
@[simp] theorem startMatch_errpos (c : Nat) (e : Nat) (s : State) : (startMatch c e s).errpos = s.errpos := rfl
@[simp] theorem startMatch_out (c : Nat) (e : Nat) (s : State) : (startMatch c e s).out = s.out := rfl
@[simp] theorem startMatch_frontEnd (c : Nat) (e : Nat) (s : State) : (startMatch c e s).frontEnd = s.frontEnd := rfl

/-! ### the cursor -/

@[simp] theorem State.cursor_input (s : State) : s.cursor.input = s.input := rfl
@[simp] theorem State.cursor_len (s : State) : s.cursor.len = s.inLen := rfl
@[simp] theorem State.cursor_pos (s : State) : s.cursor.pos = s.pos := rfl

/-- closeLens moves ST and nothing else. -/
theorem State.closeLens_eq (s : State) :
    s.closeLens = { s with st := if s.li.toNat = s.lensTotal then .dynTrees else s.st } := by
  unfold State.closeLens
  split <;> rfl

/-- keep writes BFINAL, HLIT and HDIST and nothing else. -/
theorem State.keep_eq (s : State) (k : Kept) :
    s.keep k = { s with bfinal := (s.keep k).bfinal, hlit := (s.keep k).hlit, hdist := (s.keep k).hdist } := by
  cases k <;> rfl

end Sys2Proof.Machine
end

