-- ==== Sys2Proof/Laws/Ops.lean ====
section
/-! SUPPORT. What each shared operation can do: Emit and the window, the end of a block, the code-length run, and what a rejection keeps. -/

namespace Sys2Proof.Machine

/-! ### Emit and the window (47_window_copy.md R262, R264) -/

/-- The emitted byte stands in its cell. -/
theorem emit_read_self (s : State) (v : Byte) : (s.emit v).winRead (s.emitted % Config.windowSize) = some v :=
  Memory.read_write_self_window _ _ _

/-- Every other cell is as before. -/
theorem emit_read_ne (s : State) (v : Byte) {a : Nat} (h : a ≠ s.emitted % Config.windowSize) :
    (s.emit v).winRead a = s.winRead a :=
  Memory.read_write_ne _ _ h

/-- The window index of a distance that does not exceed EMITTED. -/
theorem windowIndex_of_le {e d : Nat} (h : d ≤ e) : windowIndex e d = (e - d) % Config.windowSize := by
  unfold windowIndex
  rw [← Int.ofNat_sub h]
  rfl

/-- Emit keeps the window's contents right (R263). -/
theorem emit_windowOk {s : State} (h : s.windowOk) (v : Byte) : (s.emit v).windowOk := by
  obtain ⟨hwf, hb, he, hk⟩ := h
  have hlt : s.emitted % Config.windowSize < Config.windowSize := Nat.mod_lt _ (by decide)
  refine ⟨Memory.wf_write hwf _ _, Memory.below_write hb hlt _, by simp [he], fun k h1 h2 => ?_⟩
  simp only [State.emit_emitted, State.emit_out] at h1 h2 ⊢
  by_cases hke : k = s.emitted
  · subst hke
    rw [emit_read_self, he]
    simp
  · have hne : k % Config.windowSize ≠ s.emitted % Config.windowSize := by
      unfold Config.windowSize at *
      omega
    rw [emit_read_ne s v hne, hk k (by omega) (by omega), List.getElem?_append_left (by omega)]

/-- In a window that is right, the byte d back is there (R266). -/
theorem windowOk_read {s : State} (h : s.windowOk) {d : Nat} (h1 : 1 ≤ d) (h2 : d ≤ s.emitted)
    (h3 : d ≤ Config.windowSize) :
    ∃ hk : s.emitted - d < s.out.length,
      s.winRead (windowIndex s.emitted d) = some s.out[s.emitted - d] := by
  obtain ⟨_, _, he, hk⟩ := h
  refine ⟨by omega, ?_⟩
  rw [windowIndex_of_le h2, hk (s.emitted - d) (by omega) (by omega)]
  exact List.getElem?_eq_getElem _

/-! ### the code-length run (45_dynamic.md R209) -/

theorem setRange_getElem (lens : Vector (BitVec 4) 320) (v : BitVec 4) (i r : Nat) {j : Nat} (hj : j < 320) :
    (setRange lens v i r)[j] = if i ≤ j ∧ j < i + r then v else lens[j] := by
  induction r generalizing lens i with
  | zero =>
    have : ¬(i ≤ j ∧ j < i + 0) := by omega
    rw [if_neg this, setRange]
  | succ r ih =>
    rw [setRange, ih, Vector.getElem_setIfInBounds]
    by_cases h1 : i + 1 ≤ j ∧ j < i + 1 + r
    · rw [if_pos h1, if_pos (by omega)]
    · rw [if_neg h1]
      by_cases h2 : i = j
      · rw [if_pos h2, if_pos (by omega)]
      · rw [if_neg h2, if_neg (by omega)]

/-- The writes of a run: exactly LENS[LI .. LI + r). -/
theorem writeLens_getElem (s : State) (v : BitVec 4) (r : Nat) {j : Nat} (hj : j < 320) :
    (s.writeLens v r).lens[j] = if s.li.toNat ≤ j ∧ j < s.li.toNat + r then v else s.lens[j] :=
  setRange_getElem _ _ _ _ hj

theorem writeLens_li_toNat {s : State} {v : BitVec 4} {r : Nat} (h : s.li.toNat + r < 512) :
    (s.writeLens v r).li.toNat = s.li.toNat + r := by
  simp only [State.writeLens, BitVec.toNat_ofNat]
  exact Nat.mod_eq_of_lt h

/-- Everything fill can do. -/
theorem fillLens_cases (v : BitVec 4) (r : Nat) (s : State) :
    (s.lensTotal < s.li.toNat + r ∧ fillLens v r s = .next (s.raise .invalidRunLength)) ∨
    (s.li.toNat + r ≤ s.lensTotal ∧ 320 < s.li.toNat + r ∧ fillLens v r s = .fault .lensIndex) ∨
    (s.li.toNat + r ≤ s.lensTotal ∧ s.li.toNat + r ≤ 320 ∧ fillLens v r s = .next (s.writeLens v r).closeLens) := by
  unfold fillLens Config.lensEntries
  split
  · exact .inl ⟨‹_›, rfl⟩
  · split
    · exact .inr (.inl ⟨by omega, by omega, rfl⟩)
    · exact .inr (.inr ⟨by omega, by omega, rfl⟩)

/-- closeLens goes to DYN_TREES when the run is complete, and changes nothing else. -/
theorem closeLens_eq (s : State) :
    s.closeLens = { s with st := if s.li.toNat = s.lensTotal then .dynTrees else s.st } := by
  unfold State.closeLens
  split <;> rfl

/-! ### the end of a block (43_block_control.md R178) -/

theorem afterBlock_eq (b : Bool) : afterBlock b = if b then .done else .hdr := by
  cases b <;> rfl

theorem afterBlock_cases (b : Bool) : afterBlock b = .done ∨ afterBlock b = .hdr := by
  cases b <;> simp [afterBlock]

theorem endBlock_eq (s : State) :
    s.endBlock = { s with clt := none, llt := none, dt := none, st := afterBlock s.bfinal } := by
  rfl

theorem closeStored_eq (s : State) : s.closeStored = if s.srem = 0 then s.endBlock else s := rfl

/-- closeClcl goes to DYN_CLTREE after HCLEN entries, and changes nothing else. -/
theorem closeClcl_eq (s : State) : s.closeClcl = { s with st := if s.ci = s.hclen then .dynClTree else s.st } := by
  unfold State.closeClcl
  split <;> rfl

/-- closeCopy goes to SYM when CPLEN is 0, and changes nothing else. -/
theorem closeCopy_eq (s : State) : s.closeCopy = { s with st := if s.cplen = 0 then .sym else s.st } := by
  unfold State.closeCopy
  split <;> rfl

/-! ### what a rejection keeps (43_block_control.md R172) -/

theorem keep_eq (s : State) (k : Kept) :
    s.keep k = { s with bfinal := (s.keep k).bfinal, hlit := (s.keep k).hlit, hdist := (s.keep k).hdist } := by
  cases k <;> rfl

end Sys2Proof.Machine
end

