-- ==== Sys2Proof/Laws/Exec.lean ====
section
/-! SUPPORT. What exec does with the coded symbols, one lemma for each alphabet. -/

namespace Sys2Proof.Machine

/-- A match length is 3 to 258 (30_encoding.md R84). -/
theorem matchLength_range {c e w : Nat} (h1 : 257 ≤ c) (h2 : c ≤ 285) (hw : w = Rom.lengthExtra c) (he : e < 2 ^ w) :
    3 ≤ matchLength c e ∧ matchLength c e ≤ 258 := by
  have key : ∀ k : Fin 29, 3 ≤ Rom.lengthBases.getD k 0 ∧
      Rom.lengthBases.getD k 0 + 2 ^ Rom.lengthExtras.getD k 0 ≤ 259 := by decide
  have := key ⟨c - 257, by omega⟩
  rw [hw] at he
  unfold matchLength Rom.lengthBase
  unfold Rom.lengthExtra at he
  simp only at this
  generalize Rom.lengthBases.getD (c - 257) 0 = b at this ⊢
  generalize 2 ^ Rom.lengthExtras.getD (c - 257) 0 = p at this he
  omega

/-- A distance is 1 to 32768 (30_encoding.md R85). -/
theorem matchDistance_range {d e w : Nat} (h2 : d ≤ 29) (hw : w = Rom.distanceExtra d) (he : e < 2 ^ w) :
    1 ≤ matchDistance d e ∧ matchDistance d e ≤ 32768 := by
  have key : ∀ k : Fin 30, 1 ≤ Rom.distanceBase k ∧ Rom.distanceBase k + 2 ^ Rom.distanceExtra k ≤ 32769 := by decide
  have := key ⟨d, by omega⟩
  unfold matchDistance
  rw [hw] at he
  simp only at this
  omega

/-- Everything exec does with a literal/length symbol (46_symbol_loop.md R230 to R234). -/
theorem exec_litLen_cases {i : Instr} (h : i.litLenCoded.isSome = true) :
    (∃ v, ∀ s, exec i s = .next (s.emit v)) ∨ (∀ s, exec i s = .next s.endBlock) ∨
    (∃ c e, 3 ≤ matchLength c e ∧ matchLength c e ≤ 258 ∧ ∀ s, exec i s = .next (startMatch c e s)) ∨
    (∀ s, exec i s = .next (s.raise .corruptLengthCode)) := by
  have len : ∀ (c : Nat) {w : Nat} (e : BitVec w), 257 ≤ c → c ≤ 285 → w = Rom.lengthExtra c →
      (∀ s, exec i s = .next (startMatch c e.toNat s)) →
      ∃ c e, 3 ≤ matchLength c e ∧ matchLength c e ≤ 258 ∧ ∀ s, exec i s = .next (startMatch c e s) :=
    fun c w e h1 h2 hw hs => ⟨c, e.toNat, (matchLength_range h1 h2 hw e.isLt).1, (matchLength_range h1 h2 hw e.isLt).2, hs⟩
  cases i with
  | lit v => exact .inl ⟨v, fun _ => rfl⟩
  | eob => exact .inr (.inl fun _ => rfl)
  | lenReserved n => exact .inr (.inr (.inr fun _ => rfl))
  | len257 => exact .inr (.inr (.inl (len 257 (0 : BitVec 0) (by decide) (by decide) rfl fun _ => rfl)))
  | len258 => exact .inr (.inr (.inl (len 258 (0 : BitVec 0) (by decide) (by decide) rfl fun _ => rfl)))
  | len259 => exact .inr (.inr (.inl (len 259 (0 : BitVec 0) (by decide) (by decide) rfl fun _ => rfl)))
  | len260 => exact .inr (.inr (.inl (len 260 (0 : BitVec 0) (by decide) (by decide) rfl fun _ => rfl)))
  | len261 => exact .inr (.inr (.inl (len 261 (0 : BitVec 0) (by decide) (by decide) rfl fun _ => rfl)))
  | len262 => exact .inr (.inr (.inl (len 262 (0 : BitVec 0) (by decide) (by decide) rfl fun _ => rfl)))
  | len263 => exact .inr (.inr (.inl (len 263 (0 : BitVec 0) (by decide) (by decide) rfl fun _ => rfl)))
  | len264 => exact .inr (.inr (.inl (len 264 (0 : BitVec 0) (by decide) (by decide) rfl fun _ => rfl)))
  | len285 => exact .inr (.inr (.inl (len 285 (0 : BitVec 0) (by decide) (by decide) rfl fun _ => rfl)))
  | len265 e => exact .inr (.inr (.inl (len 265 e (by decide) (by decide) rfl fun _ => rfl)))
  | len266 e => exact .inr (.inr (.inl (len 266 e (by decide) (by decide) rfl fun _ => rfl)))
  | len267 e => exact .inr (.inr (.inl (len 267 e (by decide) (by decide) rfl fun _ => rfl)))
  | len268 e => exact .inr (.inr (.inl (len 268 e (by decide) (by decide) rfl fun _ => rfl)))
  | len269 e => exact .inr (.inr (.inl (len 269 e (by decide) (by decide) rfl fun _ => rfl)))
  | len270 e => exact .inr (.inr (.inl (len 270 e (by decide) (by decide) rfl fun _ => rfl)))
  | len271 e => exact .inr (.inr (.inl (len 271 e (by decide) (by decide) rfl fun _ => rfl)))
  | len272 e => exact .inr (.inr (.inl (len 272 e (by decide) (by decide) rfl fun _ => rfl)))
  | len273 e => exact .inr (.inr (.inl (len 273 e (by decide) (by decide) rfl fun _ => rfl)))
  | len274 e => exact .inr (.inr (.inl (len 274 e (by decide) (by decide) rfl fun _ => rfl)))
  | len275 e => exact .inr (.inr (.inl (len 275 e (by decide) (by decide) rfl fun _ => rfl)))
  | len276 e => exact .inr (.inr (.inl (len 276 e (by decide) (by decide) rfl fun _ => rfl)))
  | len277 e => exact .inr (.inr (.inl (len 277 e (by decide) (by decide) rfl fun _ => rfl)))
  | len278 e => exact .inr (.inr (.inl (len 278 e (by decide) (by decide) rfl fun _ => rfl)))
  | len279 e => exact .inr (.inr (.inl (len 279 e (by decide) (by decide) rfl fun _ => rfl)))
  | len280 e => exact .inr (.inr (.inl (len 280 e (by decide) (by decide) rfl fun _ => rfl)))
  | len281 e => exact .inr (.inr (.inl (len 281 e (by decide) (by decide) rfl fun _ => rfl)))
  | len282 e => exact .inr (.inr (.inl (len 282 e (by decide) (by decide) rfl fun _ => rfl)))
  | len283 e => exact .inr (.inr (.inl (len 283 e (by decide) (by decide) rfl fun _ => rfl)))
  | len284 e => exact .inr (.inr (.inl (len 284 e (by decide) (by decide) rfl fun _ => rfl)))
  | _ => simp [Instr.litLenCoded] at h

/-- Everything exec does with a distance symbol (R236 to R238). -/
theorem exec_dist_cases {i : Instr} (h : i.distCoded.isSome = true) :
    (∃ d e, 1 ≤ matchDistance d e ∧ matchDistance d e ≤ 32768 ∧ ∀ s, exec i s = .next (acceptDistance d e s)) ∨
    (∀ s, exec i s = .next (s.raise .invalidDistance)) := by
  have dist : ∀ (d : Nat) {w : Nat} (e : BitVec w), d ≤ 29 → w = Rom.distanceExtra d →
      (∀ s, exec i s = .next (acceptDistance d e.toNat s)) →
      ∃ d e, 1 ≤ matchDistance d e ∧ matchDistance d e ≤ 32768 ∧ ∀ s, exec i s = .next (acceptDistance d e s) :=
    fun d w e h2 hw hs => ⟨d, e.toNat, (matchDistance_range h2 hw e.isLt).1, (matchDistance_range h2 hw e.isLt).2, hs⟩
  cases i with
  | distReserved n => exact .inr fun _ => rfl
  | dist0 => exact .inl (dist 0 (0 : BitVec 0) (by decide) rfl fun _ => rfl)
  | dist1 => exact .inl (dist 1 (0 : BitVec 0) (by decide) rfl fun _ => rfl)
  | dist2 => exact .inl (dist 2 (0 : BitVec 0) (by decide) rfl fun _ => rfl)
  | dist3 => exact .inl (dist 3 (0 : BitVec 0) (by decide) rfl fun _ => rfl)
  | dist4 e => exact .inl (dist 4 e (by decide) rfl fun _ => rfl)
  | dist5 e => exact .inl (dist 5 e (by decide) rfl fun _ => rfl)
  | dist6 e => exact .inl (dist 6 e (by decide) rfl fun _ => rfl)
  | dist7 e => exact .inl (dist 7 e (by decide) rfl fun _ => rfl)
  | dist8 e => exact .inl (dist 8 e (by decide) rfl fun _ => rfl)
  | dist9 e => exact .inl (dist 9 e (by decide) rfl fun _ => rfl)
  | dist10 e => exact .inl (dist 10 e (by decide) rfl fun _ => rfl)
  | dist11 e => exact .inl (dist 11 e (by decide) rfl fun _ => rfl)
  | dist12 e => exact .inl (dist 12 e (by decide) rfl fun _ => rfl)
  | dist13 e => exact .inl (dist 13 e (by decide) rfl fun _ => rfl)
  | dist14 e => exact .inl (dist 14 e (by decide) rfl fun _ => rfl)
  | dist15 e => exact .inl (dist 15 e (by decide) rfl fun _ => rfl)
  | dist16 e => exact .inl (dist 16 e (by decide) rfl fun _ => rfl)
  | dist17 e => exact .inl (dist 17 e (by decide) rfl fun _ => rfl)
  | dist18 e => exact .inl (dist 18 e (by decide) rfl fun _ => rfl)
  | dist19 e => exact .inl (dist 19 e (by decide) rfl fun _ => rfl)
  | dist20 e => exact .inl (dist 20 e (by decide) rfl fun _ => rfl)
  | dist21 e => exact .inl (dist 21 e (by decide) rfl fun _ => rfl)
  | dist22 e => exact .inl (dist 22 e (by decide) rfl fun _ => rfl)
  | dist23 e => exact .inl (dist 23 e (by decide) rfl fun _ => rfl)
  | dist24 e => exact .inl (dist 24 e (by decide) rfl fun _ => rfl)
  | dist25 e => exact .inl (dist 25 e (by decide) rfl fun _ => rfl)
  | dist26 e => exact .inl (dist 26 e (by decide) rfl fun _ => rfl)
  | dist27 e => exact .inl (dist 27 e (by decide) rfl fun _ => rfl)
  | dist28 e => exact .inl (dist 28 e (by decide) rfl fun _ => rfl)
  | dist29 e => exact .inl (dist 29 e (by decide) rfl fun _ => rfl)
  | _ => simp [Instr.distCoded] at h

/-- Everything exec does with a code-length symbol (45_dynamic.md R204 to R207). -/
theorem exec_cl_cases {i : Instr} (h : i.clCoded.isSome = true) (s : State) :
    (∃ v r, 1 ≤ r ∧ r ≤ 138 ∧ exec i s = fillLens v r s) ∨
    (s.li = 0 ∧ (∃ e, i = .clRepPrev e) ∧ exec i s = .next (s.raise .invalidRunLength)) := by
  cases i with
  | clLen len => exact .inl ⟨len, 1, by omega, by omega, rfl⟩
  | clRepZero3 e => exact .inl ⟨0, shortRepeat e.toNat, by unfold shortRepeat; omega, by unfold shortRepeat; omega, rfl⟩
  | clRepZero11 e => exact .inl ⟨0, longRepeat e.toNat, by unfold longRepeat; omega, by unfold longRepeat; omega, rfl⟩
  | clRepPrev e =>
    by_cases h0 : s.li = 0
    · exact .inr ⟨h0, ⟨e, rfl⟩, by simp [exec, execClRepPrev, h0]⟩
    · refine .inl ⟨s.lastLen, shortRepeat e.toNat, by unfold shortRepeat; omega, by unfold shortRepeat; omega, ?_⟩
      simp only [exec, execClRepPrev, if_neg h0]
  | _ => simp [Instr.clCoded] at h

end Sys2Proof.Machine
end

