-- ==== Sys2Proof/Laws/Gzip.lean ====
section
/-! SUPPORT. The laws of the gzip header's parts (42_gzip_front_end.md): what a part that was read says, and that a part which the stream
holds is read. -/

namespace Sys2Proof

theorem bytesBits_cons (b : Byte) (bytes : List Byte) : bytesBits (b :: bytes) = fieldBits 8 b.toNat ++ bytesBits bytes :=
  rfl

theorem bytesBits_append (a b : List Byte) : bytesBits (a ++ b) = bytesBits a ++ bytesBits b := by
  simp [bytesBits]

theorem bytesBits_length (bytes : List Byte) : (bytesBits bytes).length = 8 * bytes.length := by
  induction bytes with
  | nil => rfl
  | cons b rest ih => rw [bytesBits_cons, List.length_append, ih, Cursor.fieldBits_length, List.length_cons]; omega

/-- Between c and c' the stream holds exactly these bytes. -/
def Cursor.Reads (c : Cursor) (bytes : List Byte) (c' : Cursor) : Prop :=
  c' = c.advance (8 * bytes.length) ∧ c.Holds (bytesBits bytes)

theorem Cursor.Reads.trans {a b c : Cursor} {x y : List Byte} (h : a.Reads x b) (h' : b.Reads y c) : a.Reads (x ++ y) c := by
  obtain ⟨rfl, hx⟩ := h
  obtain ⟨rfl, hy⟩ := h'
  refine ⟨by rw [Cursor.advance_advance, List.length_append, Nat.mul_add], ?_⟩
  rw [bytesBits_append, Cursor.holds_append, bytesBits_length]
  exact ⟨hx, hy⟩

/-- A read that began within IN ends within it. -/
theorem Cursor.Reads.pos_le {c c' : Cursor} {bytes : List Byte} (h : c.Reads bytes c') : c'.pos ≤ 8 * c'.len := by
  obtain ⟨rfl, hl, -⟩ := h
  rwa [bytesBits_length] at hl

theorem Cursor.reads_nil {c : Cursor} (h : c.pos ≤ 8 * c.len) : c.Reads [] c :=
  ⟨rfl, Cursor.holds_nil c h⟩

/-- The next byte. -/
theorem Cursor.reads_byte {c : Cursor} (h : 8 ≤ c.remainingBits) :
    c.Reads [BitVec.ofNat 8 (c.packed 8 c.pos)] (c.advance 8) := by
  refine ⟨rfl, ?_⟩
  rw [bytesBits_cons, BitVec.toNat_ofNat, Cursor.fieldBits_mod]
  simpa [bytesBits] using Cursor.holds_packed h

/-- The next 16-bit value's two bytes. -/
theorem Cursor.reads_word {c : Cursor} (h : 16 ≤ c.remainingBits) :
    c.Reads [BitVec.ofNat 8 (c.packed 16 c.pos), BitVec.ofNat 8 (c.packed 16 c.pos / 256)] (c.advance 16) := by
  refine ⟨rfl, ?_⟩
  rw [bytesBits_cons, bytesBits_cons, BitVec.toNat_ofNat, BitVec.toNat_ofNat, Cursor.fieldBits_mod, Cursor.fieldBits_mod,
    ← List.append_assoc, show (256 : Nat) = 2 ^ 8 from rfl, ← Cursor.fieldBits_add 8 8]
  simpa [bytesBits] using Cursor.holds_packed h

/-! ### runs of bytes -/

/-- What nextBytes gives. -/
theorem nextBytes_ok {n : Nat} {c c' : Cursor} {bytes : List Byte} (hp : c.pos ≤ 8 * c.len)
    (h : c.nextBytes n = .ok (bytes, c')) : bytes.length = n ∧ c.Reads bytes c' := by
  induction n generalizing c bytes with
  | zero =>
    simp only [Cursor.nextBytes, Except.ok.injEq, Prod.mk.injEq] at h
    obtain ⟨rfl, rfl⟩ := h
    exact ⟨rfl, Cursor.reads_nil hp⟩
  | succ n ih =>
    simp only [Cursor.nextBytes] at h
    rcases Nat.lt_or_ge c.remainingBits 8 with hr | hr
    · rw [Cursor.nextByte_of_lt hr] at h
      cases h
    · rw [Cursor.nextByte_of_le hr] at h
      simp only at h
      split at h
      · cases h
      · rename_i bs c2 hb
        simp only [Except.ok.injEq, Prod.mk.injEq] at h
        obtain ⟨rfl, rfl⟩ := h
        obtain ⟨hl, ht⟩ := ih (Cursor.reads_byte hr).pos_le hb
        exact ⟨by simp [hl], (Cursor.reads_byte hr).trans ht⟩

/-- What zstring gives (R157). -/
theorem zstring_ok {fuel : Nat} {c c' : Cursor} {bytes : List Byte} (h : zstring fuel c = .ok (bytes, c')) :
    (∀ b ∈ bytes, b ≠ 0) ∧ c.Reads (bytes ++ [0]) c' := by
  induction fuel generalizing c bytes with
  | zero => cases h
  | succ n ih =>
    simp only [zstring] at h
    rcases Nat.lt_or_ge c.remainingBits 8 with hr | hr
    · rw [Cursor.nextByte_of_lt hr] at h
      cases h
    · have hread := Cursor.reads_byte hr
      rw [Cursor.nextByte_of_le hr] at h
      simp only at h
      split at h
      · rename_i h0
        simp only [Except.ok.injEq, Prod.mk.injEq] at h
        obtain ⟨rfl, rfl⟩ := h
        exact ⟨by simp, h0 ▸ hread⟩
      · rename_i h0
        split at h
        · cases h
        · rename_i bs c2 hb
          simp only [Except.ok.injEq, Prod.mk.injEq] at h
          obtain ⟨rfl, rfl⟩ := h
          obtain ⟨hl, ht⟩ := ih hb
          exact ⟨List.forall_mem_cons.mpr ⟨h0, hl⟩, hread.trans ht⟩

/-- Bytes that the stream holds are read. -/
theorem nextBytes_of_holds {bytes : List Byte} {c : Cursor} (h : c.Holds (bytesBits bytes)) :
    c.nextBytes bytes.length = .ok (bytes, c.advance (8 * bytes.length)) := by
  induction bytes generalizing c with
  | nil => rfl
  | cons b rest ih =>
    rw [bytesBits_cons, Cursor.holds_append, Cursor.fieldBits_length] at h
    simp only [List.length_cons, Cursor.nextBytes, Cursor.nextByte_of_holds h.1, ih h.2, Cursor.advance_advance]
    rw [show 8 + 8 * rest.length = 8 * (rest.length + 1) by omega]

/-- A null-terminated field that the stream holds is read. -/
theorem zstring_of_holds {bytes : List Byte} (h0 : ∀ b ∈ bytes, b ≠ 0) {c : Cursor} (h : c.Holds (bytesBits (bytes ++ [0])))
    {fuel : Nat} (hf : bytes.length < fuel) : zstring fuel c = .ok (bytes, c.advance (8 * (bytes.length + 1))) := by
  induction bytes generalizing c fuel with
  | nil =>
    obtain ⟨n, rfl⟩ : ∃ n, fuel = n + 1 := ⟨fuel - 1, by simp at hf; omega⟩
    rw [List.nil_append, bytesBits_cons, Cursor.holds_append] at h
    simp [zstring, Cursor.nextByte_of_holds h.1]
  | cons b rest ih =>
    obtain ⟨n, rfl⟩ : ∃ n, fuel = n + 1 := ⟨fuel - 1, by simp at hf; omega⟩
    rw [List.cons_append, bytesBits_cons, Cursor.holds_append, Cursor.fieldBits_length] at h
    have hb : b ≠ 0 := h0 b (by simp)
    have := ih (fun x hx => h0 x (by simp [hx])) h.2 (fuel := n) (by simpa using hf)
    simp only [zstring, Cursor.nextByte_of_holds h.1, if_neg hb, this, Cursor.advance_advance, List.length_cons]
    rw [show 8 + 8 * (rest.length + 1) = 8 * (rest.length + 1 + 1) by omega]

/-! ### the parts of the header -/

theorem check_instr {ok : Bool} {r : HeaderReason} {c c' : Cursor} {k : DecodeResult} {i : Instr}
    (h : check ok r c k = .instr i c') : ok = true ∧ k = .instr i c' := by
  unfold check at h
  split at h
  · exact ⟨‹_›, h⟩
  · cases h

/-- What EXTRA says where an instruction comes out (R156). -/
theorem withExtra_instr {present : Bool} {c c' : Cursor} {k : Option (List Byte) → Cursor → DecodeResult} {i : Instr}
    (hp : c.pos ≤ 8 * c.len) (h : withExtra present c k = .instr i c') :
    ∃ e c1, k e c1 = .instr i c' ∧ ∀ g : GzipHeader, g.extra = e → g.flg.getLsbD 2 = present →
      g.extraOk = true ∧ c.Reads g.extraBytes c1 := by
  unfold withExtra at h
  cases present with
  | false =>
    refine ⟨none, c, by simpa using h, fun g he hf => ⟨by simp only [GzipHeader.extraOk, he, hf, Bool.not_false], ?_⟩⟩
    simp only [GzipHeader.extraBytes, he]
    exact Cursor.reads_nil hp
  | true =>
    rw [if_pos rfl] at h
    obtain ⟨hr, h⟩ := withBits_instr h
    split at h
    · cases h
    · rename_i bytes c1 hb
      have hw := Cursor.reads_word hr
      obtain ⟨hl, ht⟩ := nextBytes_ok hw.pos_le hb
      have h16 : c.packed 16 c.pos < 65536 := c.packed_lt 16 c.pos
      refine ⟨some bytes, c1, h, fun g he hf => ⟨?_, ?_⟩⟩
      · simp only [GzipHeader.extraOk, he, hf, Bool.true_and, decide_eq_true_eq]
        omega
      · simp only [GzipHeader.extraBytes, he, hl]
        exact hw.trans ht

/-- What NAME or COMMENT says where an instruction comes out (R157). -/
theorem withString_instr {present : Bool} {c c' : Cursor} {k : Option (List Byte) → Cursor → DecodeResult} {i : Instr}
    (hp : c.pos ≤ 8 * c.len) (h : withString present c k = .instr i c') :
    ∃ f c1, k f c1 = .instr i c' ∧ GzipHeader.stringOk present f = true ∧ c.Reads (GzipHeader.stringBytes f) c1 := by
  unfold withString at h
  cases present with
  | false => exact ⟨none, c, by simpa using h, rfl, Cursor.reads_nil hp⟩
  | true =>
    rw [if_pos rfl] at h
    split at h
    · cases h
    · rename_i bytes c1 hb
      obtain ⟨hl, ht⟩ := zstring_ok hb
      exact ⟨some bytes, c1, h, by simpa [GzipHeader.stringOk] using hl, ht⟩

/-- What HCRC says where an instruction comes out (R158). -/
theorem withHcrc_instr {present : Bool} {c c' : Cursor} {k : Option (BitVec 16) → Cursor → DecodeResult} {i : Instr}
    (hp : c.pos ≤ 8 * c.len) (h : withHcrc present c k = .instr i c') :
    ∃ v c1, k v c1 = .instr i c' ∧ ∀ g : GzipHeader, g.hcrc = v → g.flg.getLsbD 1 = present →
      g.hcrcOk = true ∧ c.Reads g.hcrcBytes c1 := by
  unfold withHcrc at h
  cases present with
  | false =>
    refine ⟨none, c, by simpa using h, fun g he hf => ⟨by simp only [GzipHeader.hcrcOk, he, hf]; rfl, ?_⟩⟩
    simp only [GzipHeader.hcrcBytes, he]
    exact Cursor.reads_nil hp
  | true =>
    rw [if_pos rfl] at h
    obtain ⟨hr, h⟩ := withBits_instr h
    refine ⟨_, _, h, fun g he hf => ⟨by simp only [GzipHeader.hcrcOk, he, hf]; rfl, ?_⟩⟩
    have hw := Cursor.reads_word hr
    have h16 : c.packed 16 c.pos < 65536 := c.packed_lt 16 c.pos
    simp only [GzipHeader.hcrcBytes, he]
    have lo : (BitVec.ofNat 16 (c.packed 16 c.pos)).extractLsb' 0 8 = BitVec.ofNat 8 (c.packed 16 c.pos) :=
      BitVec.eq_of_toNat_eq (by simp only [BitVec.extractLsb'_toNat, BitVec.toNat_ofNat]; omega)
    have hi : (BitVec.ofNat 16 (c.packed 16 c.pos)).extractLsb' 8 8 = BitVec.ofNat 8 (c.packed 16 c.pos / 256) :=
      BitVec.eq_of_toNat_eq (by
        simp only [BitVec.extractLsb'_toNat, BitVec.toNat_ofNat, Nat.shiftRight_eq_div_pow]; omega)
    rwa [lo, hi]

/-- A NAME or COMMENT that the stream holds is read. -/
theorem withString_of_holds {flag : Bool} {f : Option (List Byte)} (hok : GzipHeader.stringOk flag f = true) {c : Cursor}
    (h : c.Holds (bytesBits (GzipHeader.stringBytes f))) (k : Option (List Byte) → Cursor → DecodeResult) :
    withString flag c k = k f (c.advance (8 * (GzipHeader.stringBytes f).length)) := by
  cases f with
  | none =>
    have : flag = false := by simpa [GzipHeader.stringOk] using hok
    subst this
    rfl
  | some bytes =>
    simp only [GzipHeader.stringOk, Bool.and_eq_true, List.all_eq_true, bne_iff_ne, ne_eq] at hok
    obtain ⟨hf, h0⟩ := hok
    have hrem := Cursor.holds_remaining h
    rw [bytesBits_length] at hrem
    simp only [GzipHeader.stringBytes, List.length_append, List.length_cons, List.length_nil, Nat.zero_add] at hrem h ⊢
    unfold withString
    rw [if_pos hf, zstring_of_holds h0 h (by omega)]

/-- An EXTRA that the stream holds is read. -/
theorem withExtra_of_holds {h : GzipHeader} (hok : h.extraOk = true) {c : Cursor} (hc : c.Holds (bytesBits h.extraBytes))
    (k : Option (List Byte) → Cursor → DecodeResult) :
    withExtra (h.flg.getLsbD 2) c k = k h.extra (c.advance (8 * h.extraBytes.length)) := by
  unfold GzipHeader.extraOk at hok
  unfold GzipHeader.extraBytes at hc ⊢
  cases he : h.extra with
  | none =>
    rw [he] at hok
    have : h.flg.getLsbD 2 = false := by simpa using hok
    rw [this]
    rfl
  | some bytes =>
    rw [he] at hok hc
    simp only [Bool.and_eq_true, decide_eq_true_eq] at hok
    obtain ⟨hf, hl⟩ := hok
    rw [bytesBits_cons, Cursor.holds_append, Cursor.fieldBits_length, bytesBits_cons, Cursor.holds_append,
      Cursor.fieldBits_length] at hc
    obtain ⟨h1, h2, h3⟩ := hc
    have hw : c.Holds (fieldBits 16 bytes.length) := by
      rw [Cursor.fieldBits_add 8 8, ← Cursor.fieldBits_mod, ← Cursor.fieldBits_mod 8 (bytes.length / _), Cursor.holds_append,
        Cursor.fieldBits_length]
      exact ⟨by simpa using h1, by simpa using h2⟩
    simp only [withExtra, hf, if_true]
    rw [withBits_of_holds hw, Nat.mod_eq_of_lt (by omega)]
    rw [Cursor.advance_advance] at h3
    rw [nextBytes_of_holds h3]
    simp only [Cursor.advance_advance, List.length_cons]
    rw [show 8 + 8 + 8 * bytes.length = 8 * (bytes.length + 1 + 1) by omega]

/-- A 16-bit value's two bytes are its field. -/
theorem fieldBits_two_bytes (v : BitVec 16) :
    fieldBits 16 v.toNat = bytesBits [v.extractLsb' 0 8, v.extractLsb' 8 8] := by
  rw [bytesBits_cons, bytesBits_cons, Cursor.fieldBits_extract, Cursor.fieldBits_extract, Cursor.fieldBits_add 8 8]
  simp [bytesBits]

/-- A 32-bit value's four bytes are its two 16-bit halves. -/
theorem fieldBits_four_bytes (v : BitVec 32) :
    bytesBits [v.extractLsb' 0 8, v.extractLsb' 8 8, v.extractLsb' 16 8, v.extractLsb' 24 8] =
      fieldBits 16 v.toNat ++ fieldBits 16 (v.toNat / 65536) := by
  simp only [bytesBits, List.flatMap_cons, List.flatMap_nil, List.append_nil, Cursor.fieldBits_extract]
  rw [Cursor.fieldBits_add 8 8, Cursor.fieldBits_add 8 8, Nat.div_div_eq_div_mul]
  simp

/-- An HCRC that the stream holds is read. -/
theorem withHcrc_of_holds {h : GzipHeader} (hok : h.hcrcOk = true) {c : Cursor} (hc : c.Holds (bytesBits h.hcrcBytes))
    (k : Option (BitVec 16) → Cursor → DecodeResult) :
    withHcrc (h.flg.getLsbD 1) c k = k h.hcrc (c.advance (8 * h.hcrcBytes.length)) := by
  unfold GzipHeader.hcrcOk at hok
  unfold GzipHeader.hcrcBytes at hc ⊢
  cases he : h.hcrc with
  | none =>
    rw [he] at hok
    have : h.flg.getLsbD 1 = false := by simpa using hok
    rw [this]
    rfl
  | some v =>
    rw [he] at hok hc
    have hf : h.flg.getLsbD 1 = true := by simpa using hok
    simp only at hc
    rw [← fieldBits_two_bytes] at hc
    simp only [withHcrc, hf, if_true]
    rw [withBits_of_holds hc, Nat.mod_eq_of_lt v.isLt]
    simp

end Sys2Proof
end

