-- ==== Sys2Proof/Laws/PerInstr.lean ====
section
/-! SUPPORT. A statement about every instruction as syntax: the opcode table names it, by its ST and selecting value, and names no other
row there (30_encoding.md R88). -/

namespace Sys2Proof.Laws.TableRow

-- One proof at a time: each that waits for the kernel holds a thread.
set_option Elab.async false

/-- Exactly one row of the opcode table matches the instruction's ST and selecting value, and it is the instruction's own. -/
def Statement (i : Instr) : Prop :=
  i.wf = true → rowsMatching i.selector.1 i.selector.2 = [i.mnemonic]

/-- No two rows overlap at a row's own pattern. -/
theorem rows_distinct : ∀ r ∈ rows, rowsMatching r.state r.pattern = [r.mnemonic] := by decide +kernel

theorem row_at (n : Nat) (h : n < 76) : rowsMatching rows[n].state rows[n].pattern = [rows[n].mnemonic] :=
  rows_distinct _ (List.getElem_mem h)

/-- The block header rows, for both values of BFINAL. -/
theorem header_rows : ∀ f : Bool, ∀ i ∈ [Instr.blkStored f, .blkFixed f, .blkDynamic f, .blkReserved f],
    rowsMatching i.selector.1 i.selector.2 = [i.mnemonic] := by decide +kernel

/-- The literal row, for every byte. -/
theorem literal_rows : ∀ n : Fin 256, rowsMatching (some .sym) n = ["LIT"] := by decide +kernel

/-- The length row of the code-length alphabet, for every length. -/
theorem length_rows : ∀ n : Fin 16, rowsMatching (some .dynLens) n = ["CL_LEN"] := by decide +kernel

/-- The second value of each reserved row. -/
theorem reserved_rows : rowsMatching (some .sym) 287 = ["LEN_RESERVED"] ∧ rowsMatching (some .dist) 31 = ["DIST_RESERVED"] := by
  decide +kernel

theorem blkStored (bfinal : Bool) : Statement (.blkStored bfinal) := fun _ => header_rows bfinal _ (by simp)

theorem blkFixed (bfinal : Bool) : Statement (.blkFixed bfinal) := fun _ => header_rows bfinal _ (by simp)

theorem blkDynamic (bfinal : Bool) : Statement (.blkDynamic bfinal) := fun _ => header_rows bfinal _ (by simp)

theorem blkReserved (bfinal : Bool) : Statement (.blkReserved bfinal) := fun _ => header_rows bfinal _ (by simp)

theorem storedHdr (len nlen : BitVec 16) : Statement (.storedHdr len nlen) := fun _ => row_at 4 (by decide)

theorem storedByte (data : Byte) : Statement (.storedByte data) := fun _ => row_at 5 (by decide)

theorem dynHdr (hlit hdist : BitVec 5) (hclen : BitVec 4) : Statement (.dynHdr hlit hdist hclen) := fun _ => row_at 6 (by decide)

theorem dynClcl (len : BitVec 3) : Statement (.dynClcl len) := fun _ => row_at 7 (by decide)

theorem clLen (len : BitVec 4) : Statement (.clLen len) := fun _ => length_rows len.toFin

theorem clRepPrev (extra : BitVec 2) : Statement (.clRepPrev extra) := fun _ => row_at 9 (by decide)

theorem clRepZero3 (extra : BitVec 3) : Statement (.clRepZero3 extra) := fun _ => row_at 10 (by decide)

theorem clRepZero11 (extra : BitVec 7) : Statement (.clRepZero11 extra) := fun _ => row_at 11 (by decide)

theorem lit (byte : Byte) : Statement (.lit byte) := fun _ => literal_rows byte.toFin

theorem eob : Statement .eob := fun _ => row_at 13 (by decide)

theorem len257 : Statement .len257 := fun _ => row_at 14 (by decide)

theorem len258 : Statement .len258 := fun _ => row_at 15 (by decide)

theorem len259 : Statement .len259 := fun _ => row_at 16 (by decide)

theorem len260 : Statement .len260 := fun _ => row_at 17 (by decide)

theorem len261 : Statement .len261 := fun _ => row_at 18 (by decide)

theorem len262 : Statement .len262 := fun _ => row_at 19 (by decide)

theorem len263 : Statement .len263 := fun _ => row_at 20 (by decide)

theorem len264 : Statement .len264 := fun _ => row_at 21 (by decide)

theorem len265 (extra : BitVec 1) : Statement (.len265 extra) := fun _ => row_at 22 (by decide)

theorem len266 (extra : BitVec 1) : Statement (.len266 extra) := fun _ => row_at 23 (by decide)

theorem len267 (extra : BitVec 1) : Statement (.len267 extra) := fun _ => row_at 24 (by decide)

theorem len268 (extra : BitVec 1) : Statement (.len268 extra) := fun _ => row_at 25 (by decide)

theorem len269 (extra : BitVec 2) : Statement (.len269 extra) := fun _ => row_at 26 (by decide)

theorem len270 (extra : BitVec 2) : Statement (.len270 extra) := fun _ => row_at 27 (by decide)

theorem len271 (extra : BitVec 2) : Statement (.len271 extra) := fun _ => row_at 28 (by decide)

theorem len272 (extra : BitVec 2) : Statement (.len272 extra) := fun _ => row_at 29 (by decide)

theorem len273 (extra : BitVec 3) : Statement (.len273 extra) := fun _ => row_at 30 (by decide)

theorem len274 (extra : BitVec 3) : Statement (.len274 extra) := fun _ => row_at 31 (by decide)

theorem len275 (extra : BitVec 3) : Statement (.len275 extra) := fun _ => row_at 32 (by decide)

theorem len276 (extra : BitVec 3) : Statement (.len276 extra) := fun _ => row_at 33 (by decide)

theorem len277 (extra : BitVec 4) : Statement (.len277 extra) := fun _ => row_at 34 (by decide)

theorem len278 (extra : BitVec 4) : Statement (.len278 extra) := fun _ => row_at 35 (by decide)

theorem len279 (extra : BitVec 4) : Statement (.len279 extra) := fun _ => row_at 36 (by decide)

theorem len280 (extra : BitVec 4) : Statement (.len280 extra) := fun _ => row_at 37 (by decide)

theorem len281 (extra : BitVec 5) : Statement (.len281 extra) := fun _ => row_at 38 (by decide)

theorem len282 (extra : BitVec 5) : Statement (.len282 extra) := fun _ => row_at 39 (by decide)

theorem len283 (extra : BitVec 5) : Statement (.len283 extra) := fun _ => row_at 40 (by decide)

theorem len284 (extra : BitVec 5) : Statement (.len284 extra) := fun _ => row_at 41 (by decide)

theorem len285 : Statement .len285 := fun _ => row_at 42 (by decide)

theorem lenReserved (symbol : Nat) : Statement (.lenReserved symbol) := by
  intro h
  simp only [Instr.wf, Bool.or_eq_true, beq_iff_eq] at h
  rcases h with rfl | rfl
  · exact row_at 43 (by decide)
  · exact reserved_rows.1

theorem dist0 : Statement .dist0 := fun _ => row_at 44 (by decide)

theorem dist1 : Statement .dist1 := fun _ => row_at 45 (by decide)

theorem dist2 : Statement .dist2 := fun _ => row_at 46 (by decide)

theorem dist3 : Statement .dist3 := fun _ => row_at 47 (by decide)

theorem dist4 (extra : BitVec 1) : Statement (.dist4 extra) := fun _ => row_at 48 (by decide)

theorem dist5 (extra : BitVec 1) : Statement (.dist5 extra) := fun _ => row_at 49 (by decide)

theorem dist6 (extra : BitVec 2) : Statement (.dist6 extra) := fun _ => row_at 50 (by decide)

theorem dist7 (extra : BitVec 2) : Statement (.dist7 extra) := fun _ => row_at 51 (by decide)

theorem dist8 (extra : BitVec 3) : Statement (.dist8 extra) := fun _ => row_at 52 (by decide)

theorem dist9 (extra : BitVec 3) : Statement (.dist9 extra) := fun _ => row_at 53 (by decide)

theorem dist10 (extra : BitVec 4) : Statement (.dist10 extra) := fun _ => row_at 54 (by decide)

theorem dist11 (extra : BitVec 4) : Statement (.dist11 extra) := fun _ => row_at 55 (by decide)

theorem dist12 (extra : BitVec 5) : Statement (.dist12 extra) := fun _ => row_at 56 (by decide)

theorem dist13 (extra : BitVec 5) : Statement (.dist13 extra) := fun _ => row_at 57 (by decide)

theorem dist14 (extra : BitVec 6) : Statement (.dist14 extra) := fun _ => row_at 58 (by decide)

theorem dist15 (extra : BitVec 6) : Statement (.dist15 extra) := fun _ => row_at 59 (by decide)

theorem dist16 (extra : BitVec 7) : Statement (.dist16 extra) := fun _ => row_at 60 (by decide)

theorem dist17 (extra : BitVec 7) : Statement (.dist17 extra) := fun _ => row_at 61 (by decide)

theorem dist18 (extra : BitVec 8) : Statement (.dist18 extra) := fun _ => row_at 62 (by decide)

theorem dist19 (extra : BitVec 8) : Statement (.dist19 extra) := fun _ => row_at 63 (by decide)

theorem dist20 (extra : BitVec 9) : Statement (.dist20 extra) := fun _ => row_at 64 (by decide)

theorem dist21 (extra : BitVec 9) : Statement (.dist21 extra) := fun _ => row_at 65 (by decide)

theorem dist22 (extra : BitVec 10) : Statement (.dist22 extra) := fun _ => row_at 66 (by decide)

theorem dist23 (extra : BitVec 10) : Statement (.dist23 extra) := fun _ => row_at 67 (by decide)

theorem dist24 (extra : BitVec 11) : Statement (.dist24 extra) := fun _ => row_at 68 (by decide)

theorem dist25 (extra : BitVec 11) : Statement (.dist25 extra) := fun _ => row_at 69 (by decide)

theorem dist26 (extra : BitVec 12) : Statement (.dist26 extra) := fun _ => row_at 70 (by decide)

theorem dist27 (extra : BitVec 12) : Statement (.dist27 extra) := fun _ => row_at 71 (by decide)

theorem dist28 (extra : BitVec 13) : Statement (.dist28 extra) := fun _ => row_at 72 (by decide)

theorem dist29 (extra : BitVec 13) : Statement (.dist29 extra) := fun _ => row_at 73 (by decide)

theorem distReserved (symbol : Nat) : Statement (.distReserved symbol) := by
  intro h
  simp only [Instr.wf, Bool.or_eq_true, beq_iff_eq] at h
  rcases h with rfl | rfl
  · exact row_at 74 (by decide)
  · exact reserved_rows.2

theorem gzipHdr (header : GzipHeader) : Statement (.gzipHdr header) := fun _ => row_at 75 (by decide)

end Sys2Proof.Laws.TableRow
end

