-- ==== Sys2Proof/Laws/Step.lean ====
section
/-! SUPPORT. Everything a step of the core can do, said once: `coreStep_cases`. -/

namespace Sys2Proof.Machine

theorem step_of_started {s : State} (h : s.coreStarted = true) : step s = coreStep s := by
  unfold step
  cases hf : s.frontEnd <;> simp_all [State.coreStarted]

/-- Everything a step can do where the host has asked for the front end (42_gzip_front_end.md R151, R160; log 4): launch the member
with the header that the parse gives, or fail. -/
theorem step_of_requested {s : State} {input : Memory} {len : Nat} (h : s.frontEnd = .requested input len) :
    (∃ i c, decode .gzip ⟨input, len, 0⟩ = .instr i c ∧ step s = exec i s) ∨
    (∃ w kept c, decode .gzip ⟨input, len, 0⟩ = .rejected w kept c ∧
      step s = match rejectKind w with
        | some kind => .next (s.failMember kind (rejectReason w) c.pos)
        | none => .fault .noSuchSymbol) := by
  have hs : step s = runFetched (fetchGzip s) := by rw [step]; split <;> simp_all
  rw [hs, fetchGzip, State.member_of_requested h]
  cases hd : decode .gzip ⟨input, len, 0⟩ with
  | instr i c => exact .inl ⟨i, c, rfl, rfl⟩
  | rejected w kept c => exact .inr ⟨w, kept, c, rfl, by cases hk : rejectKind w <;> simp only [runFetched, hk]⟩

/-- After the front end's failure the core is not started (R160). -/
theorem step_of_failed {s : State} {k : ErrKind} {r : Option HeaderReason} {p : Nat} (h : s.frontEnd = .failed k r p) :
    step s = .next s := by
  rw [step]
  split <;> simp_all

/-- POS has moved to p, by at least `low` bits and within IN (40_bitcursor.md R107). -/
def Moves (low : Nat) (s : State) (p : Nat) : Prop :=
  s.pos ≤ 8 * s.inLen → s.pos + low ≤ p ∧ p ≤ 8 * s.inLen

/-- The fields that a raising step of a control state may have written (43_block_control.md R172). -/
def keeps : Ctrl → Kept → Bool
  | _, .nothing => true
  | .hdr, .bfinal _ => true
  | .dynHdr, .hlit _ => true
  | .dynHdr, .hlitHdist _ _ => true
  | _, _ => false

/-- What a step of the core leads to from s. -/
inductive Stepped (s : State) : State → Prop where
  | idle : s.ended = true → Stepped s s
  | stopped (kept : Kept) (k : ErrKind) (p : Nat) : keeps s.st kept = true → k ∈ mayRaise s.st → Moves 0 s p →
      Stepped s (((s.keep kept).atPos p).raise k)
  | blkStored (f : Bool) (p : Nat) : s.st = .hdr → Moves 1 s p →
      Stepped s { s with pos := p, bfinal := f, btype := 0, st := .storedHdr }
  | blkFixed (f : Bool) (p : Nat) : s.st = .hdr → Moves 1 s p →
      Stepped s { s with pos := p, bfinal := f, btype := 1, llt := some Huffman.fixedLitLen,
                         dt := some Huffman.fixedDist, st := .sym }
  | blkDynamic (f : Bool) (p : Nat) : s.st = .hdr → Moves 1 s p →
      Stepped s { s with pos := p, bfinal := f, btype := 2, st := .dynHdr }
  | storedEmpty (p : Nat) : s.st = .storedHdr → Moves 1 s p → Stepped s ((s.atPos p).setSrem 0).endBlock
  | storedHdr (len : BitVec 16) (p : Nat) : s.st = .storedHdr → Moves 1 s p → len ≠ 0 → p % 8 = 0 →
      Stepped s (((s.atPos p).setSrem len).goto .storedCopy)
  | storedByte (v : Byte) : s.st = .storedCopy → Moves 1 s (s.pos + 8) → s.srem ≠ 0 →
      Stepped s (((s.atPos (s.pos + 8)).emit v).setSrem (s.srem - 1)).closeStored
  | dynHdr (a b : BitVec 5) (d : BitVec 4) (p : Nat) : s.st = .dynHdr → Moves 1 s p →
      Stepped s { s with pos := p, hlit := hlitOf a, hdist := hdistOf b, hclen := hclenOf d,
                         clcl := Vector.replicate 19 0, ci := 0, st := .dynClcl }
  | dynClcl (v : BitVec 3) (k p : Nat) : s.st = .dynClcl → Moves 1 s p → Rom.permAt s.ci.toNat = some k →
      Stepped s ((s.atPos p).putClcl k v).closeClcl
  | dynClTree (t : Tree) : s.st = .dynClTree → Huffman.build (s.clcl.toList.map BitVec.toNat) = .ok t →
      Stepped s { s with clt := some t, lens := Vector.replicate 320 0, li := 0, st := .dynLens }
  | fill (v : BitVec 4) (r p : Nat) : s.st = .dynLens → Moves 1 s p → 1 ≤ r → s.li.toNat + r ≤ s.lensTotal →
      s.li.toNat + r ≤ 320 → Stepped s ((s.atPos p).writeLens v r).closeLens
  | trees (l d : Tree) : s.st = .dynTrees → Huffman.build (s.lensSlice 0 s.hlit.toNat) = .ok l →
      Huffman.build (s.lensSlice s.hlit.toNat s.hdist.toNat) = .ok d →
      Stepped s { (s.setLlt l) with dt := some d, clt := none, st := .sym }
  | treesHalf (l : Tree) (e : BuildError) : s.st = .dynTrees → Huffman.build (s.lensSlice 0 s.hlit.toNat) = .ok l →
      Huffman.build (s.lensSlice s.hlit.toNat s.hdist.toNat) = .error e →
      Stepped s ((s.setLlt l).raise (buildErrKind e))
  | lit (v : Byte) (p : Nat) : s.st = .sym → Moves 1 s p → Stepped s ((s.atPos p).emit v)
  | eob (p : Nat) : s.st = .sym → Moves 1 s p → Stepped s (s.atPos p).endBlock
  | length (c e p : Nat) : s.st = .sym → Moves 1 s p → 3 ≤ matchLength c e → matchLength c e ≤ 258 →
      Stepped s (startMatch c e (s.atPos p))
  | distance (d e p : Nat) : s.st = .dist → Moves 1 s p → 1 ≤ matchDistance d e → matchDistance d e ≤ 32768 →
      matchDistance d e ≤ s.emitted →
      Stepped s { s with pos := p, cpdist := BitVec.ofNat 16 (matchDistance d e), st := .copy }
  | copy (v : Byte) : s.st = .copy → s.cplen ≠ 0 → s.winRead (windowIndex s.emitted s.cpdist.toNat) = some v →
      Stepped s ((s.emit v).setCplen (s.cplen - 1)).closeCopy

/-- A fetch in a control state: an instruction of its format with POS past the element, or a raised error. -/
theorem fetch_cases {s : State} {m : Mode} (hm : m ≠ .gzip) :
    (∃ i c, decode m s.cursor = .instr i c ∧ m.admits i = true ∧ Moves 1 s c.pos ∧ fetch m s = .instr i (s.atPos c.pos)) ∨
    (∃ w kept k p, m.rejects w kept = true ∧ rejectKind w = some k ∧ Moves 0 s p ∧
      fetch m s = .stopped (((s.keep kept).atPos p).raise k)) ∨
    fetch m s = .fault .noSuchSymbol := by
  have hof := decode_of m s.cursor
  have hw : s.pos ≤ 8 * s.inLen → (decode m s.cursor).Within 1 s.cursor := fun h => decode_within hm h
  unfold fetch
  cases hd : decode m s.cursor with
  | instr i c =>
    rw [hd] at hof hw
    cases hof with
    | instr _ _ ha =>
      refine .inl ⟨i, c, rfl, ha, fun h => ?_, rfl⟩
      cases hw h with
      | instr _ n h1 h2 =>
        simp only [State.cursor, Cursor.remainingBits, Cursor.advance_pos] at h2 ⊢
        omega
  | rejected w kept c =>
    rw [hd] at hof hw
    cases hof with
    | rejected _ _ _ ha =>
      cases hk : rejectKind w with
      | none => exact .inr (.inr (by simp only [hk]))
      | some k =>
        refine .inr (.inl ⟨w, kept, k, c.pos, ha, hk, fun h => ?_, by simp only [hk]⟩)
        cases hw h with
        | rejected _ _ n h2 =>
          simp only [State.cursor, Cursor.remainingBits, Cursor.advance_pos] at h2 ⊢
          omega

/-- The format that a control state selects (R176). -/
theorem mode_cases {s : State} {m : Mode} (hm : s.mode = .ok (some m)) :
    (s.st = .hdr ∧ m = .header) ∨ (s.st = .storedHdr ∧ m = .storedHdr) ∨ (s.st = .storedCopy ∧ m = .storedByte) ∨
    (s.st = .dynHdr ∧ m = .dynHdr) ∨ (s.st = .dynClcl ∧ m = .dynClcl) ∨
    (∃ t, s.st = .dynLens ∧ s.clt = some t ∧ m = .clSymbol t (s.li == 0)) ∨
    (∃ t, s.st = .sym ∧ s.llt = some t ∧ m = .litLen t) ∨ (∃ t, s.st = .dist ∧ s.dt = some t ∧ m = .dist t) := by
  unfold State.mode at hm
  cases hs : s.st <;> rw [hs] at hm <;> simp only [Except.ok.injEq, Option.some.injEq, reduceCtorEq] at hm
  case dynLens => split at hm <;> simp_all
  case sym => split at hm <;> simp_all
  case dist => split at hm <;> simp_all
  all_goals simp_all

theorem mode_ne_gzip {s : State} {m : Mode} (hm : s.mode = .ok (some m)) : m ≠ .gzip := by
  rcases mode_cases hm with ⟨-, rfl⟩ | ⟨-, rfl⟩ | ⟨-, rfl⟩ | ⟨-, rfl⟩ | ⟨-, rfl⟩ | ⟨t, -, -, rfl⟩ | ⟨t, -, -, rfl⟩ |
    ⟨t, -, -, rfl⟩ <;> simp

/-- A format's rejections raise what its control state may raise, and keep what it may keep (60_exceptions.md R282). -/
theorem mode_rejects {s : State} {m : Mode} (hm : s.mode = .ok (some m)) {w : Reject} {kept : Kept} {k : ErrKind}
    (hr : m.rejects w kept = true) (hk : rejectKind w = some k) : keeps s.st kept = true ∧ k ∈ mayRaise s.st := by
  rcases mode_cases hm with ⟨h, rfl⟩ | ⟨h, rfl⟩ | ⟨h, rfl⟩ | ⟨h, rfl⟩ | ⟨h, rfl⟩ | ⟨t, h, -, rfl⟩ | ⟨t, h, -, rfl⟩ |
    ⟨t, h, -, rfl⟩ <;> rw [h] <;> cases w <;> cases kept <;>
    first
      | (simp [Mode.rejects] at hr; done)
      | (simp [rejectKind] at hk; done)
      | (simp only [rejectKind, Option.some.injEq] at hk; subst hk; exact ⟨rfl, by decide⟩)

/-- Where a stored header's decode ends: 32 bits past the byte boundary (44_stored.md R190). -/
theorem decodeStoredHdr_aligned {c c' : Cursor} {i : Instr} (h : decodeStoredHdr c = .instr i c') : c'.pos % 8 = 0 := by
  unfold decodeStoredHdr at h
  obtain ⟨_, h⟩ := withBits_instr h
  obtain ⟨_, h⟩ := withBits_instr h
  simp only [DecodeResult.instr.injEq] at h
  rw [← h.2, Cursor.alignToByte_eq]
  simp only [Cursor.advance_pos]
  omega

/-- Where a stored byte's decode ends (R191). -/
theorem decodeStoredByte_pos {c c' : Cursor} {i : Instr} (h : decodeStoredByte c = .instr i c') : c'.pos = c.pos + 8 := by
  obtain ⟨_, h⟩ := withByte_instr h
  simp only [DecodeResult.instr.injEq] at h
  rw [← h.2, Cursor.advance_pos]

/-- A raise that keeps nothing. -/
theorem Stepped.raise {s : State} {k : ErrKind} {p : Nat} (hk : k ∈ mayRaise s.st) (hp : Moves 1 s p) :
    Stepped s ((s.atPos p).raise k) :=
  .stopped .nothing k p (by cases s.st <;> rfl) hk (fun h => by have := hp h; omega)

/-- What running a fetched instruction can do, in the control state that fetched it. -/
theorem exec_cases {s t : State} {m : Mode} {i : Instr} {c : Cursor} (hm : s.mode = .ok (some m))
    (hd : decode m s.cursor = .instr i c) (ha : m.admits i = true) (hp : Moves 1 s c.pos)
    (h : exec i (s.atPos c.pos) = .next t) : Stepped s t := by
  rcases mode_cases hm with ⟨hs, rfl⟩ | ⟨hs, rfl⟩ | ⟨hs, rfl⟩ | ⟨hs, rfl⟩ | ⟨hs, rfl⟩ | ⟨tr, hs, -, rfl⟩ | ⟨tr, hs, -, rfl⟩ |
    ⟨tr, hs, -, rfl⟩
  · -- HDR
    cases i <;> simp only [Mode.admits, Bool.false_eq_true] at ha
    · cases h; exact .blkStored _ _ hs hp
    · cases h; exact .blkFixed _ _ hs hp
    · cases h; exact .blkDynamic _ _ hs hp
    · rename_i f
      cases h
      exact .stopped (.bfinal f) .corruptBlock c.pos (by rw [hs]; rfl) (by rw [hs]; decide)
        (fun h => by have := hp h; omega)
  · -- STORED_HDR
    cases i <;> simp only [Mode.admits, Bool.false_eq_true] at ha
    rename_i len nlen
    simp only [exec, execStoredHdr] at h
    split at h
    · split at h
      · rename_i h0; cases h; subst h0; exact .storedEmpty _ hs hp
      · rename_i h0; cases h; exact .storedHdr _ _ hs hp h0 (decodeStoredHdr_aligned hd)
    · cases h; exact .raise (by rw [hs]; decide) hp
  · -- STORED_COPY
    cases i <;> simp only [Mode.admits, Bool.false_eq_true] at ha
    rename_i v
    have hc := decodeStoredByte_pos hd
    change c.pos = s.pos + 8 at hc
    rw [hc] at h hp
    simp only [exec, execStoredByte] at h
    split at h
    · cases h
    · cases h; exact .storedByte v hs hp ‹_›
  · -- DYN_HDR
    cases i <;> simp only [Mode.admits, Bool.false_eq_true] at ha
    cases h; exact .dynHdr _ _ _ _ hs hp
  · -- DYN_CLCL
    cases i <;> simp only [Mode.admits, Bool.false_eq_true] at ha
    rename_i v
    simp only [exec, execDynClcl] at h
    split at h
    · cases h
    · cases h; exact .dynClcl v _ c.pos hs hp ‹_›
  · -- DYN_LENS
    have hcl : i.clCoded.isSome = true := clSymbol_admits ha
    rcases exec_cl_cases hcl (s.atPos c.pos) with ⟨v, r, h1, _, he⟩ | ⟨_, _, he⟩
    · rw [he] at h
      rcases fillLens_cases v r (s.atPos c.pos) with ⟨_, e⟩ | ⟨_, _, e⟩ | ⟨ht, hl, e⟩
      · rw [e] at h; cases h; exact .raise (by rw [hs]; decide) hp
      · rw [e] at h; cases h
      · rw [e] at h; cases h; exact .fill v r c.pos hs hp h1 ht hl
    · rw [he] at h; cases h; exact .raise (by rw [hs]; decide) hp
  · -- SYM
    have hll : i.litLenCoded.isSome = true := litLen_admits ha
    rcases exec_litLen_cases hll with ⟨v, he⟩ | he | ⟨a, e, h1, h2, he⟩ | he
    · rw [he] at h; cases h; exact .lit v _ hs hp
    · rw [he] at h; cases h; exact .eob _ hs hp
    · rw [he] at h; cases h; exact .length a e _ hs hp h1 h2
    · rw [he] at h; cases h; exact .raise (by rw [hs]; decide) hp
  · -- DIST
    have hdc : i.distCoded.isSome = true := dist_admits ha
    rcases exec_dist_cases hdc with ⟨d, e, h1, h2, he⟩ | he
    · rw [he] at h
      cases h
      unfold acceptDistance
      split
      · exact .raise (by rw [hs]; decide) hp
      · rename_i hle
        exact .distance d e _ hs hp h1 h2 (Nat.not_lt.mp hle)
    · rw [he] at h; cases h; exact .raise (by rw [hs]; decide) hp

/-- Everything a step of the core can lead to (43_block_control.md R176). -/
theorem coreStep_cases {s t : State} (h : coreStep s = .next t) : Stepped s t := by
  unfold coreStep at h
  split at h
  · cases h
  · rename_i m hm
    rcases fetch_cases (mode_ne_gzip hm) with ⟨i, c, hd, ha, hp, e⟩ | ⟨w, kept, k, p, hr, hk, hp, e⟩ | e
    · rw [e] at h; exact exec_cases hm hd ha hp h
    · rw [e] at h
      cases h
      have := mode_rejects hm hr hk
      exact .stopped kept k p this.1 this.2 hp
    · rw [e] at h; cases h
  · unfold internalStep at h
    have stop : ∀ e : BuildError, (s.st = .dynClTree ∨ s.st = .dynTrees) → Stepped s (s.raise (buildErrKind e)) := by
      intro e hs
      refine .stopped .nothing _ s.pos (by cases s.st <;> rfl) ?_ (fun h => ⟨Nat.le_refl _, h⟩)
      rcases hs with hs | hs <;> rw [hs] <;> cases e <;> decide
    split at h
    · rename_i hs
      unfold stepDynClTree at h
      split at h
      · cases h; exact stop _ (.inl hs)
      · cases h; exact .dynClTree _ hs ‹_›
    · rename_i hs
      unfold stepDynTrees at h
      split at h
      · cases h
      · split at h
        · cases h; exact stop _ (.inr hs)
        · split at h
          · cases h; exact .treesHalf _ _ hs ‹_› ‹_›
          · cases h; exact .trees _ _ hs ‹_› ‹_›
    · rename_i hs
      unfold stepCopy at h
      split at h
      · cases h
      · rename_i h0
        split at h
        · cases h
        · cases h; exact .copy _ hs h0 ‹_›
    · rename_i hm _ hs1 hs2 hs3
      cases h
      refine .idle ?_
      unfold State.mode at hm
      cases hs : s.st <;> rw [hs] at hm hs1 hs2 hs3 <;> simp_all [State.ended]
      all_goals (split at hm <;> simp at hm)

/-- Everything a step can lead to once the core has been started. -/
theorem step_cases {s t : State} (hc : s.coreStarted = true) (h : step s = .next t) : Stepped s t :=
  coreStep_cases (step_of_started hc ▸ h)

end Sys2Proof.Machine
end

