-- ==== Sys2Proof/Tests/Slice0.lean ====
section
/-! SUPPORT. The model's own tests: the well-formedness smoke, a word for every constructor, one step per instruction, and a witness for
every statement with hypotheses. Words and expected results come from the spec: 30_encoding.md's encodings (R72 to R86) and
95_test_vectors.md's vectors (BC, HU, GZ, BK, SB, DY, SY, WC, P and E names). -/

open Sys2Proof Sys2Proof.Machine

namespace Sys2Proof.Tests

-- One proof at a time: the kernel evaluates most of these, and each one that waits for it holds a thread.
set_option Elab.async false

/-! ### helpers -/

/-- The cursor at bit p of these bytes. -/
def at' (bytes : List Byte) (p : Nat) : Cursor := ⟨Memory.ofBytes 0 bytes, bytes.length, p⟩

/-- A decode from bit p of these bytes gives i and stands n bits further on. -/
def reads (m : Mode) (bytes : List Byte) (p : Nat) (i : Instr) (n : Nat) : Bool :=
  decode m (at' bytes p) == .instr i (at' bytes (p + n))

/-- Each row's bytes decode to its instruction, with its number of bits. -/
def readsAll (m : Mode) (rows : List (List Byte × Instr × Nat)) : Bool :=
  rows.all (fun r => reads m r.1 0 r.2.1 r.2.2)

/-- A decode from bit p of these bytes is rejected so, at bit n. -/
def rejects (m : Mode) (bytes : List Byte) (p : Nat) (w : Reject) (k : Kept) (n : Nat) : Bool :=
  decode m (at' bytes p) == .rejected w k (at' bytes n)

/-- A state at bit p of these bytes, the other registers as reset leaves them. -/
def start (bytes : List Byte) (p : Nat) (c : Ctrl) : State :=
  { State.atReset (Memory.ofBytes 0 bytes) bytes.length 0 with pos := p, st := c }

/-- A state of a fixed block's symbol loop, with both fixed trees. -/
def fixed (bytes : List Byte) (p : Nat) (c : Ctrl) : State :=
  { start bytes p c with btype := 1, llt := some Huffman.fixedLitLen, dt := some Huffman.fixedDist }

/-- That state after these bytes have been output. -/
def after (out : List Byte) (s : State) : State := out.foldl State.emit s

/-- Something of the next state; none where the step stops. -/
def see {α : Type} (r : Result) (f : State → α) : Option α :=
  match r with
  | .next t => some (f t)
  | .fault _ => none
  | .refused _ => none

/-- The fault of an outcome. -/
def faultOf (r : Result) : Option Fault :=
  match r with
  | .fault f => some f
  | .next _ => none
  | .refused _ => none

/-- ST, POS, ERRK and ERRPOS. -/
def ends (s : State) : Ctrl × Nat × ErrKind × Nat := (s.st, s.pos, s.errk, s.errpos)

/-! ### well-formedness refuses an ill-formed term for each check -/

/-- The header of vector GZ1. -/
def plainHeader : GzipHeader := ⟨0, 0, 0, 3, none, none, none, none⟩

/-- The header of vector GZ15. -/
def fullHeader : GzipHeader := ⟨0x1F, 0, 0, 3, some [0x55], some [0x6E], some [0x63], some 0x1234⟩

theorem test_wf_accepts : (Instr.gzipHdr plainHeader).wf = true ∧ (Instr.gzipHdr fullHeader).wf = true ∧
    (Instr.lenReserved 286).wf = true ∧ (Instr.lenReserved 287).wf = true ∧ (Instr.distReserved 30).wf = true ∧
    (Instr.distReserved 31).wf = true ∧ Instr.eob.wf = true := by decide

theorem test_wf_lenReserved : (Instr.lenReserved 285).wf = false ∧ (Instr.lenReserved 288).wf = false := by decide

theorem test_wf_distReserved : (Instr.distReserved 29).wf = false ∧ (Instr.distReserved 32).wf = false := by decide

theorem test_wf_flags : (Instr.gzipHdr { plainHeader with flg := 0x20 }).wf = false := by decide

theorem test_wf_xfl : (Instr.gzipHdr { plainHeader with xfl := 2 }).wf = false := by decide

theorem test_wf_extra : (Instr.gzipHdr { plainHeader with flg := 4 }).wf = false ∧
    (Instr.gzipHdr { plainHeader with extra := some [] }).wf = false ∧
    ({ plainHeader with flg := 4, extra := some (List.replicate 65536 0) } : GzipHeader).extraOk = false := by
  refine ⟨by decide, by decide, ?_⟩
  simp only [GzipHeader.extraOk, List.length_replicate]
  decide

theorem test_wf_name : (Instr.gzipHdr { plainHeader with flg := 8, name := some [1, 0] }).wf = false ∧
    (Instr.gzipHdr { plainHeader with flg := 8 }).wf = false := by decide

theorem test_wf_comment : (Instr.gzipHdr { plainHeader with flg := 16, comment := some [0] }).wf = false ∧
    (Instr.gzipHdr { plainHeader with comment := some [1] }).wf = false := by decide

theorem test_wf_hcrc : (Instr.gzipHdr { plainHeader with flg := 2 }).wf = false ∧
    (Instr.gzipHdr { plainHeader with hcrc := some 0 }).wf = false := by decide

/-! ### the bit cursor and the trees (95_test_vectors.md 2.1, 2.2) -/

theorem test_cursor_fields :
    (at' [0xB5, 0x01] 0).nextBits 3 = some (5, at' [0xB5, 0x01] 3) ∧ (at' [0xB5, 0x01] 3).nextBits 5 = some (22, at' [0xB5, 0x01] 8) ∧
    (at' [0x34, 0x12] 0).nextBits 16 = some (0x1234, at' [0x34, 0x12] 16) ∧ (at' [0xB5] 8).nextBits 0 = some (0, at' [0xB5] 8) ∧
    (at' [0xB5] 6).nextBits 3 = none ∧ (at' [0xFF, 0x00] 4).nextByte = some (0x0F, at' [0xFF, 0x00] 12) := by decide +kernel

theorem test_cursor_align : (at' [0, 0] 3).alignToByte.pos = 8 ∧ (at' [0, 0] 8).alignToByte.pos = 8 ∧
    (at' [0] 5).alignToByte.pos = 8 ∧ (at' [0, 0, 0, 0] 13).remainingBits = 19 := by decide

/-- The construction error, where there is one. -/
def buildError (lengths : List Nat) : Option BuildError :=
  match Huffman.build lengths with
  | .ok _ => none
  | .error e => some e

theorem test_build_errors : buildError [1, 1, 1] = some .duplicateCode ∧ buildError [1, 1, 2] = some .invalidTreeShape ∧
    buildError [2, 1, 1] = some .invalidTreeShape ∧ buildError [2, 2, 2, 2, 1] = some .invalidTreeShape ∧
    buildError [1] = none ∧ buildError [0, 0, 0] = none := by decide +kernel

/-- HU1: the example of the canonical code. -/
theorem test_build_codes :
    ((Huffman.build [3, 3, 3, 3, 3, 2, 4, 4]).toOption.map fun t => (List.range 8).map (Huffman.codeOf t)) =
      some ([[false, true, false], [false, true, true], [true, false, false], [true, false, true], [true, true, false],
        [false, false], [true, true, true, false], [true, true, true, true]].map some) := by decide +kernel

/-! ### a word for every constructor, written out from the spec's encoding of it (DECODING IS RIGHT) -/

theorem test_decode_block_headers :
    readsAll .header [([0x01], .blkStored true, 3), ([0x00], .blkStored false, 3), ([0x03], .blkFixed true, 3),
      ([0x05], .blkDynamic true, 3), ([0x04], .blkDynamic false, 3), ([0x07], .blkReserved true, 3)] = true := by decide

/-- SB1 and SB3 (pad bits of 1), with LEN at byte 1. -/
theorem test_decode_stored :
    reads .storedHdr [0x01, 0x03, 0x00, 0xFC, 0xFF] 3 (.storedHdr 3 0xFFFC) 37 = true ∧
    reads .storedHdr [0xF9, 0x01, 0x00, 0xFE, 0xFF] 3 (.storedHdr 1 0xFFFE) 37 = true ∧
    reads .storedByte [0x61] 0 (.storedByte 0x61) 8 = true := by decide

/-- P5's header: HLIT 257, HDIST 1, HCLEN 18; and DY2's: HLIT 257 + 6, HDIST 1 + 3, HCLEN 4 + 14. Then P5's first code lengths. -/
theorem test_decode_dynamic :
    reads .dynHdr [0x05, 0xC0, 0x81] 3 (.dynHdr 0 0 14) 14 = true ∧
    reads .dynHdr [0x35, 0xC3, 0x47] 3 (.dynHdr 6 3 14) 14 = true ∧
    reads .dynClcl [0x05, 0xC0, 0x81, 0x08] 23 (.dynClcl 1) 3 = true ∧ reads .dynClcl [0x06] 0 (.dynClcl 6) 3 = true := by decide

/-- The code-length symbols under the tree of all 19 symbols with length 5, where the code of s is s: the code MSB first, then the
extra bits LSB first. -/
theorem test_decode_cl :
    readsAll (.clSymbol tableClTree false)
      [([0x1E], .clLen 15, 5), ([0x00], .clLen 0, 5), ([0x41], .clRepPrev 2, 7), ([0x91], .clRepZero3 4, 8),
       ([0x29, 0x0C], .clRepZero11 97, 12)] = true := by decide +kernel

theorem test_decode_litLen_0 :
    readsAll (.litLen Huffman.fixedLitLen)
      [([0x0C], .lit 0, 8),
       ([0xFD], .lit 143, 8),
       ([0x13, 0x00], .lit 144, 9),
       ([0xFF, 0x01], .lit 255, 9),
       ([0x00], .eob, 7),
       ([0x40], .len257, 7),
       ([0x20], .len258, 7),
       ([0x60], .len259, 7),
       ([0x10], .len260, 7)] = true := by decide +kernel

theorem test_decode_litLen_1 :
    readsAll (.litLen Huffman.fixedLitLen)
      [([0x50], .len261, 7),
       ([0x30], .len262, 7),
       ([0x70], .len263, 7),
       ([0x08], .len264, 7),
       ([0xC8], .len265 1, 8),
       ([0xA8], .len266 1, 8),
       ([0xE8], .len267 1, 8),
       ([0x98], .len268 1, 8),
       ([0xD8, 0x01], .len269 3, 9)] = true := by decide +kernel

theorem test_decode_litLen_2 :
    readsAll (.litLen Huffman.fixedLitLen)
      [([0xB8, 0x01], .len270 3, 9),
       ([0xF8, 0x01], .len271 3, 9),
       ([0x84, 0x01], .len272 3, 9),
       ([0xC4, 0x02], .len273 5, 10),
       ([0xA4, 0x02], .len274 5, 10),
       ([0xE4, 0x02], .len275 5, 10),
       ([0x94, 0x02], .len276 5, 10),
       ([0xD4, 0x05], .len277 11, 11),
       ([0xB4, 0x05], .len278 11, 11)] = true := by decide +kernel

theorem test_decode_litLen_3 :
    readsAll (.litLen Huffman.fixedLitLen)
      [([0xF4, 0x05], .len279 11, 11),
       ([0x03, 0x0B], .len280 11, 12),
       ([0x83, 0x17], .len281 23, 13),
       ([0x43, 0x17], .len282 23, 13),
       ([0xC3, 0x17], .len283 23, 13),
       ([0x23, 0x17], .len284 23, 13),
       ([0xA3], .len285, 8),
       ([0x63], .lenReserved 286, 8),
       ([0xE3], .lenReserved 287, 8)] = true := by decide +kernel

theorem test_decode_dist_0 :
    readsAll (.dist Huffman.fixedDist)
      [([0x00], .dist0, 5),
       ([0x10], .dist1, 5),
       ([0x08], .dist2, 5),
       ([0x18], .dist3, 5),
       ([0x24], .dist4 1, 6),
       ([0x34], .dist5 1, 6),
       ([0x4C], .dist6 2, 7),
       ([0x5C], .dist7 2, 7),
       ([0xA2], .dist8 5, 8)] = true := by decide +kernel

theorem test_decode_dist_1 :
    readsAll (.dist Huffman.fixedDist)
      [([0xB2], .dist9 5, 8),
       ([0x6A, 0x01], .dist10 11, 9),
       ([0x7A, 0x01], .dist11 11, 9),
       ([0xC6, 0x02], .dist12 22, 10),
       ([0xD6, 0x02], .dist13 22, 10),
       ([0x8E, 0x05], .dist14 44, 11),
       ([0x9E, 0x05], .dist15 44, 11),
       ([0x21, 0x0B], .dist16 89, 12),
       ([0x31, 0x0B], .dist17 89, 12)] = true := by decide +kernel

theorem test_decode_dist_2 :
    readsAll (.dist Huffman.fixedDist)
      [([0x49, 0x16], .dist18 178, 13),
       ([0x59, 0x16], .dist19 178, 13),
       ([0xA5, 0x2C], .dist20 357, 14),
       ([0xB5, 0x2C], .dist21 357, 14),
       ([0x6D, 0x59], .dist22 715, 15),
       ([0x7D, 0x59], .dist23 715, 15),
       ([0xC3, 0xB2], .dist24 1430, 16),
       ([0xD3, 0xB2], .dist25 1430, 16),
       ([0x8B, 0x65, 0x01], .dist26 2860, 17)] = true := by decide +kernel

theorem test_decode_dist_3 :
    readsAll (.dist Huffman.fixedDist)
      [([0x9B, 0x65, 0x01], .dist27 2860, 17),
       ([0x27, 0xCB, 0x02], .dist28 5721, 18),
       ([0x37, 0xCB, 0x02], .dist29 5721, 18),
       ([0x0F], .distReserved 30, 5),
       ([0x1F], .distReserved 31, 5)] = true := by decide +kernel

/-- GZ1, GZ15 and GZ10. -/
theorem test_decode_gzip :
    reads .gzip [0x1F, 0x8B, 8, 0, 0, 0, 0, 0, 0, 3] 0 (.gzipHdr plainHeader) 80 = true ∧
    reads .gzip [0x1F, 0x8B, 8, 0x1F, 0, 0, 0, 0, 0, 3, 1, 0, 0x55, 0x6E, 0, 0x63, 0, 0x34, 0x12] 0 (.gzipHdr fullHeader) 152 = true ∧
    reads .gzip [0x1F, 0x8B, 8, 4, 1, 2, 3, 4, 0, 3, 3, 0, 0xAA, 0xBB, 0xCC] 0
      (.gzipHdr ⟨4, 0x04030201, 0, 3, some [0xAA, 0xBB, 0xCC], none, none, none⟩) 120 = true := by decide +kernel

/-! ### rejections, at the bit where they are found -/

/-- GZ3 to GZ9, GZ11 and GZ13. -/
theorem test_reject_gzip :
    rejects .gzip [0x1E, 0x8B] 0 (.header .badMagic) .nothing 8 = true ∧ rejects .gzip [0x1F, 0x8C] 0 (.header .badMagic) .nothing 16 = true ∧
    rejects .gzip [0x1F] 0 .endOfStream .nothing 8 = true ∧ rejects .gzip [0x1F, 0x8B, 7] 0 (.header .badMethod) .nothing 24 = true ∧
    rejects .gzip [0x1F, 0x8B, 8, 0x20] 0 (.header .reservedFlags) .nothing 32 = true ∧
    rejects .gzip [0x1F, 0x8B, 8, 0, 0, 0, 0, 0, 2, 3] 0 (.header .badXfl) .nothing 72 = true ∧
    rejects .gzip [0x1F, 0x8B, 8, 4, 0, 0, 0, 0, 0, 3, 3, 0, 0xAA] 0 .endOfStream .nothing 104 = true ∧
    rejects .gzip [0x1F, 0x8B, 8, 8, 0, 0, 0, 0, 0, 3, 0x61, 0x62] 0 .endOfStream .nothing 96 = true := by decide +kernel

/-- SB6, SB7, DY4, DY5, SY12, SY13, HU13 and HU14. -/
theorem test_reject_core :
    rejects .storedHdr [0x01, 0x03] 3 .endOfStream .nothing 8 = true ∧ rejects .storedHdr [0x01, 0x03, 0x00] 3 .endOfStream .nothing 24 = true ∧
    rejects .dynHdr [0x05] 3 (.endOfStream) (.hlit 0) 8 = true ∧ rejects .dynHdr [0x05, 0x20] 3 .endOfStream (.hlitHdist 0 0) 13 = true ∧
    rejects (.litLen Huffman.fixedLitLen) [0x63] 3 .endOfStream .nothing 8 = true ∧
    rejects (.litLen Huffman.fixedLitLen) [0x9B, 0x30, 0x61, 0xC2, 0x84, 0x09, 0x13, 0x90] 57 .endOfStream .nothing 64 = true ∧
    rejects (.litLen (.internal (.leaf 0) .absent)) [0x01] 0 .incompleteTree .nothing 1 = true ∧
    rejects (.dist .emptyRoot) [0x00] 0 .incompleteTree .nothing 1 = true := by decide +kernel

/-- DY10: symbol 16 as the first code length is rejected before its extra bits, and is read once a length has been written. -/
theorem test_reject_repeat_first :
    rejects (.clSymbol tableClTree true) [0x01] 0 .noPreviousLength .nothing 5 = true ∧
    reads (.clSymbol tableClTree false) [0x01] 0 (.clRepPrev 0) 7 = true := by decide +kernel

/-! ### the opcode table's words -/

theorem test_table_words :
    decodeTableWord 3 0 = some (.blkStored false) ∧ decodeTableWord 3 2 = some (.blkFixed false) ∧
    decodeTableWord 16 65 = some (.lit 65) ∧ decodeTableWord 16 256 = some .eob ∧ decodeTableWord 16 257 = some .len257 ∧
    decodeTableWord 16 286 = some (.lenReserved 286) ∧ decodeTableWord 8 16 = some (.clRepPrev 0) ∧
    decodeTableWord 8 29 = some (.dist29 0) ∧ decodeTableWord 8 30 = some (.distReserved 30) ∧
    decodeTableWord 16 288 = none := by decide +kernel

theorem test_withFetchWord :
    see (step (State.reset.withFetchWord 16 65)) (fun t => (t.out, t.pos)) = some ([65], 8) ∧
    see (step (State.reset.withFetchWord 16 257)) (fun t => (t.st, t.cplen)) = some (.dist, 3) ∧
    see (step (State.reset.withFetchWord 3 2)) (fun t => (t.st, t.btype)) = some (.sym, 1) := by decide +kernel

/-! ### reset (70_reset_and_hazards.md R310) -/

theorem test_reset : State.reset.st = .hdr ∧ State.reset.pos = 0 ∧ State.reset.errk = .none ∧ State.reset.emitted = 0 ∧
    State.reset.out = [] ∧ State.reset.clt = none ∧ State.reset.win = [] ∧
    (State.atReset [] 40 16).pos = 128 := by decide

/-- BK3: with no input the first step raises UnexpectedEndOfStream at bit 0. -/
theorem test_reset_step : see (step State.reset) ends = some (.error, 0, .unexpectedEndOfStream, 0) := by decide

/-! ### one step of each instruction -/

/-- BK1's first step, and the other two legal types. -/
theorem test_step_blkFixed : see (step (start [0x03, 0x00] 0 .hdr)) (fun t => (t.st, t.pos, t.bfinal, t.btype, t.llt == some Huffman.fixedLitLen)) =
    some (.sym, 3, true, 1, true) := by decide +kernel

theorem test_step_blkStored : see (step (start [0x00] 0 .hdr)) (fun t => (t.st, t.pos, t.bfinal, t.btype)) = some (.storedHdr, 3, false, 0) := by
  decide

theorem test_step_blkDynamic : see (step (start [0x05] 0 .hdr)) (fun t => (t.st, t.pos, t.bfinal, t.btype)) = some (.dynHdr, 3, true, 2) := by
  decide

/-- BK2: BTYPE 3. -/
theorem test_step_blkReserved : see (step (start [0x07] 0 .hdr)) (fun t => (ends t, t.bfinal, t.btype)) =
    some ((.error, 3, .corruptBlock, 3), true, 0) := by decide

/-- SB1 and SB2. -/
theorem test_step_storedHdr :
    see (step (start [0x01, 0x03, 0x00, 0xFC, 0xFF] 3 .storedHdr)) (fun t => (t.st, t.pos, t.srem)) = some (.storedCopy, 40, 3) ∧
    see (step { start [0x01, 0x00, 0x00, 0xFF, 0xFF] 3 .storedHdr with bfinal := true }) (fun t => (t.st, t.pos, t.srem)) =
      some (.done, 40, 0) := by decide

/-- SB4. -/
theorem test_step_storedHdr_check : see (step (start [0x01, 0x03, 0x00, 0xFC, 0xFE] 3 .storedHdr)) ends =
    some (.error, 40, .lengthCheckFailed, 40) := by decide

/-- SB1's last byte ends the final block; an earlier byte does not. -/
theorem test_step_storedByte :
    see (step { start [0x61, 0x62, 0x63] 16 .storedCopy with srem := 1, bfinal := true }) (fun t => (t.st, t.pos, t.srem, t.out)) =
      some (.done, 24, 0, [0x63]) ∧
    see (step { start [0x61, 0x62, 0x63] 0 .storedCopy with srem := 3 }) (fun t => (t.st, t.pos, t.srem, t.out)) =
      some (.storedCopy, 8, 2, [0x61]) := by decide

/-- P5's header. -/
theorem test_step_dynHdr : see (step (start [0x05, 0xC0, 0x81] 3 .dynHdr)) (fun t => (t.st, t.pos, t.hlit, t.hdist, t.hclen, t.ci)) =
    some (.dynClcl, 17, 257, 1, 18, 0) := by decide

/-- The third code length goes to CLCL[18]; the last one ends the state. -/
theorem test_step_dynClcl :
    see (step { start [0x01] 0 .dynClcl with ci := 2, hclen := 18 }) (fun t => (t.st, t.pos, t.clcl[18], t.clcl[2], t.ci)) =
      some (.dynClcl, 3, 1, 0, 3) ∧
    see (step { start [0x02] 0 .dynClcl with ci := 17, hclen := 18 }) (fun t => (t.st, t.clcl[1], t.ci)) = some (.dynClTree, 2, 18) := by
  decide

/-- DY6 and DY7's code-length codes raise; a single code is accepted (R210). -/
theorem test_step_dynClTree :
    see (step { start [] 0 .dynClTree with clcl := ((Vector.replicate 19 0).set 0 1 |>.set 8 1 |>.set 18 1) }) ends =
      some (.error, 0, .duplicateCode, 0) ∧
    see (step { start [] 0 .dynClTree with clcl := ((Vector.replicate 19 0).set 0 1 |>.set 7 1 |>.set 8 2) }) ends =
      some (.error, 0, .invalidTreeShape, 0) ∧
    see (step { start [] 0 .dynClTree with clcl := (Vector.replicate 19 0).set 0 1 }) (fun t => (t.st, t.li, t.clt)) =
      some (.dynLens, 0, some (.internal (.leaf 0) .absent)) := by decide +kernel

/-- A code-length state: HLIT 257, HDIST 1, the 19-symbol tree, LI = n. -/
def lensAt (n : BitVec 9) (bytes : List Byte) : State :=
  { start bytes 0 .dynLens with hlit := 257, hdist := 1, hclen := 18, clt := some tableClTree, li := n, lens := (Vector.replicate 320 0).set 97 7 }

theorem test_step_clLen : see (step (lensAt 98 [0x1E])) (fun t => (t.st, t.pos, t.lens[98], t.li)) = some (.dynLens, 5, 15, 99) ∧
    see (step (lensAt 257 [0x1E])) (fun t => (t.st, t.lens[257], t.li)) = some (.dynTrees, 15, 258) := by decide +kernel

theorem test_step_clRepPrev : see (step (lensAt 98 [0x41])) (fun t => (t.pos, t.lens[102], t.lens[103], t.li)) = some (7, 7, 0, 103) ∧
    see (step (lensAt 0 [0x41])) ends = some (.error, 5, .invalidRunLength, 5) := by decide +kernel

theorem test_step_clRepZero3 : see (step (lensAt 97 [0x91])) (fun t => (t.pos, t.lens[97], t.li)) = some (8, 0, 104) ∧
    see (step (lensAt 256 [0x11])) (fun t => (ends t, t.li)) = some ((.error, 8, .invalidRunLength, 8), 256) := by decide +kernel

/-- E2: 138 zeros, LI from 98 to 236; and one too many. -/
theorem test_step_clRepZero11 : see (step (lensAt 98 [0xE9, 0x0F])) (fun t => (t.pos, t.li, t.st)) = some (12, 236, .dynLens) ∧
    see (step (lensAt 121 [0xE9, 0x0F])) ends = some (.error, 12, .invalidRunLength, 12) := by decide +kernel

/-- P5's literal/length code ('a' and 256 of length 1) with no distance code, and an over-subscribed distance code (DY19). -/
theorem test_step_dynTrees :
    see (step { start [] 0 .dynTrees with hlit := 257, hdist := 1, lens := ((Vector.replicate 320 0).set 97 1 |>.set 256 1) })
      (fun t => (t.st, t.llt, t.dt, t.clt)) = some (.sym, some (.internal (.leaf 97) (.leaf 256)), some .emptyRoot, none) ∧
    see (step { start [] 0 .dynTrees with
        hlit := 257, hdist := 3, lens := ((Vector.replicate 320 0).set 97 1 |>.set 256 1 |>.set 257 1 |>.set 258 1 |>.set 259 1) })
      (fun t => (ends t, t.llt.isSome)) = some ((.error, 0, .duplicateCode, 0), true) := by decide +kernel

/-- P3's literal. -/
theorem test_step_lit : see (step (fixed [0x73, 0x44] 3 .sym)) (fun t => ((t.st, t.pos, t.out), t.emitted, t.winRead 0)) =
    some ((.sym, 11, [0x41]), 1, some 0x41) := by decide +kernel

/-- BK1. -/
theorem test_step_eob : see (step { fixed [0x03, 0x00] 3 .sym with bfinal := true }) (fun t => (t.st, t.pos, t.llt, t.dt)) =
    some (.done, 10, none, none) ∧ see (step (fixed [0x02, 0x00] 3 .sym)) (fun t => t.st) = some .hdr := by decide +kernel

/-- The length of each length symbol with these extra bits, and the state it leads to. -/
def lengthsOf (l : List (Instr × BitVec 9)) : Bool :=
  l.all (fun p => see (exec p.1 State.reset) (fun t => (t.cplen, t.st)) == some (p.2, .dist))

/-- The length table of 95_test_vectors.md 2.7: the first value and the last one of each symbol (30_encoding.md R84). -/
theorem test_step_lengths_short : lengthsOf [(.len257, 3), (.len258, 4), (.len259, 5), (.len260, 6), (.len261, 7), (.len262, 8), (.len263, 9),
    (.len264, 10), (.len265 0, 11), (.len265 1, 12), (.len266 0, 13), (.len266 1, 14), (.len267 0, 15), (.len267 1, 16)] = true := by
  decide +kernel

theorem test_step_lengths_middle : lengthsOf [(.len268 0, 17), (.len268 1, 18), (.len269 0, 19), (.len269 3, 22), (.len270 0, 23),
    (.len270 3, 26), (.len271 0, 27), (.len271 3, 30), (.len272 0, 31), (.len272 3, 34), (.len273 0, 35), (.len273 7, 42),
    (.len274 0, 43), (.len274 7, 50), (.len275 0, 51), (.len275 7, 58), (.len276 0, 59), (.len276 7, 66)] = true := by decide +kernel

theorem test_step_lengths_long : lengthsOf [(.len277 0, 67), (.len277 15, 82), (.len278 0, 83), (.len278 15, 98), (.len279 0, 99),
    (.len279 15, 114), (.len280 0, 115), (.len280 15, 130), (.len281 0, 131), (.len281 31, 162), (.len282 0, 163),
    (.len282 31, 194), (.len283 0, 195), (.len283 31, 226), (.len284 0, 227), (.len284 30, 257), (.len284 31, 258),
    (.len285, 258)] = true := by decide +kernel

/-- SY9 and SY10. -/
theorem test_step_lenReserved : see (step (fixed [0x63, 0x18, 0x03, 0x00] 11 .sym)) ends = some (.error, 19, .corruptLengthCode, 19) ∧
    see (step (fixed [0x63, 0x18, 0x07, 0x00] 11 .sym)) ends = some (.error, 19, .corruptLengthCode, 19) := by decide +kernel

/-- The distance of each distance symbol with these extra bits, once 32768 bytes have been output. -/
def distancesOf (l : List (Instr × BitVec 16)) : Bool :=
  l.all (fun p => see (exec p.1 { State.reset with emitted := 32768 }) (fun t => (t.cpdist, t.st)) == some (p.2, .copy))

/-- The distance table of 95_test_vectors.md 2.8 (30_encoding.md R85). -/
theorem test_step_distances_short : distancesOf [(.dist0, 1), (.dist1, 2), (.dist2, 3), (.dist3, 4), (.dist4 0, 5), (.dist4 1, 6),
    (.dist5 0, 7), (.dist5 1, 8), (.dist6 0, 9), (.dist6 3, 12), (.dist7 0, 13), (.dist7 3, 16), (.dist8 0, 17), (.dist8 7, 24),
    (.dist9 0, 25), (.dist9 7, 32), (.dist10 0, 33), (.dist10 15, 48), (.dist11 0, 49), (.dist11 15, 64)] = true := by decide +kernel

theorem test_step_distances_middle : distancesOf [(.dist12 0, 65), (.dist12 31, 96), (.dist13 0, 97), (.dist13 31, 128), (.dist14 0, 129),
    (.dist14 63, 192), (.dist15 0, 193), (.dist15 63, 256), (.dist16 0, 257), (.dist16 127, 384), (.dist17 0, 385), (.dist17 127, 512),
    (.dist18 0, 513), (.dist18 255, 768), (.dist19 0, 769), (.dist19 255, 1024), (.dist20 0, 1025), (.dist20 511, 1536)] = true := by
  decide +kernel

theorem test_step_distances_long : distancesOf [(.dist21 0, 1537), (.dist21 511, 2048), (.dist22 0, 2049), (.dist22 1023, 3072),
    (.dist23 0, 3073), (.dist23 1023, 4096), (.dist24 0, 4097), (.dist24 2047, 6144), (.dist25 0, 6145), (.dist25 2047, 8192),
    (.dist26 0, 8193), (.dist26 4095, 12288), (.dist27 0, 12289), (.dist27 4095, 16384), (.dist28 0, 16385), (.dist28 8191, 24576),
    (.dist29 0, 24577), (.dist29 8191, 32768)] = true := by decide +kernel

/-- WC4 and WC5: a distance beyond EMITTED. -/
theorem test_step_distance_beyond :
    see (step (after [0x00] (fixed [0x63, 0x00, 0x42, 0x00] 18 .dist))) ends = some (.error, 23, .invalidDistance, 23) ∧
    see (step (fixed [0x03, 0x02, 0x00] 10 .dist)) ends = some (.error, 15, .invalidDistance, 15) := by decide +kernel

/-- WC1 and WC2. -/
theorem test_step_distReserved : see (step (after [0x00] (fixed [0x63, 0x00, 0x3E, 0x00] 18 .dist))) ends = some (.error, 23, .invalidDistance, 23) ∧
    see (step (after [0x00] (fixed [0x63, 0x00, 0x7E, 0x00] 18 .dist))) ends = some (.error, 23, .invalidDistance, 23) := by decide +kernel

/-- WC7: the missing extra bit comes before the check against EMITTED. -/
theorem test_step_distance_end : see (step (after [0x90] (fixed [0x9B, 0x00, 0x24] 19 .dist))) ends =
    some (.error, 24, .unexpectedEndOfStream, 24) := by decide +kernel

/-- E1: a COPY step of distance 1. -/
theorem test_step_copy : see (step { after [0x41] (fixed [] 0 .copy) with cplen := 10, cpdist := 1 }) (fun t => (t.st, t.cplen, t.out, t.emitted)) =
    some (.copy, 9, [0x41, 0x41], 2) ∧
    see (step { after [0x61, 0x62, 0x63] (fixed [] 0 .copy) with cplen := 1, cpdist := 3 }) (fun t => (t.st, t.cplen, t.out)) =
      some (.sym, 0, [0x61, 0x62, 0x63, 0x61]) := by decide +kernel

/-- WC10: at EMITTED = 32768 and distance 32768 the old byte of WIN[0] is read before it is written. -/
theorem test_copy_same_cell :
    see (step { (fixed [] 0 .copy) with win := [(0, 0x77), (1, 0x78)], emitted := 32768, cplen := 3, cpdist := 32768 })
      (fun t => (t.out, t.winRead 0, t.winRead 1, t.emitted)) = some ([0x77], some 0x77, some 0x78, 32769) := by decide +kernel

/-- GZ17 (E5): the front end gives NAME "a.txt" and S = 16, and POS starts at bit 128. -/
theorem test_step_gzipHdr :
    see (step (hostGzip State.reset (Memory.ofBytes 0 [0x1F, 0x8B, 8, 8, 0, 0, 0, 0, 0, 3, 0x61, 0x2E, 0x74, 0x78, 0x74, 0, 0x03, 0]) 18))
      (fun t => (t.start, t.pos, t.st, t.frontEnd)) =
      some (16, 128, .hdr, .accepted ⟨8, 0, 0, 3, none, some [0x61, 0x2E, 0x74, 0x78, 0x74], none, none⟩ 16) := by decide +kernel

/-- GZ7, and the step after a failure changes nothing. -/
theorem test_step_gzipHdr_fails :
    see (step (hostGzip State.reset (Memory.ofBytes 0 [0x1F, 0x8B, 8, 0x20]) 4)) (fun t => (t.frontEnd, t.errk, t.st)) =
      some (.failed .corruptHeader (some .reservedFlags) 32, .none, .hdr) ∧
    see (step { State.reset with frontEnd := .failed .corruptHeader none 8 }) (fun t => (t.frontEnd, t.st, t.pos)) =
      some (.failed .corruptHeader none 8, .hdr, 0) := by decide +kernel

/-- R55: a rejected member is not written into the IN of the core. -/
theorem test_gzip_keeps_IN :
    see (step (hostGzip (start [0x03, 0x00] 3 .sym) (Memory.ofBytes 0 [0x1F, 0x8C]) 2)) (fun t => (t.input, t.inLen, t.st, t.pos)) =
      some (Memory.ofBytes 0 [0x03, 0x00], 2, .sym, 3) := by decide +kernel

/-! ### the stops, and reset -/

theorem test_faults :
    faultOf (step { fixed [] 0 .copy with cplen := 1, cpdist := 1 }) = some .windowUnwritten ∧
    faultOf (step { fixed [] 0 .copy with cplen := 0 }) = some .counterEmpty ∧ faultOf (step (start [0] 0 .sym)) = some .treeNotLoaded ∧
    faultOf (step { start [0] 0 .dynLens with clt := some (.internal (.leaf 19) .absent) }) = some .noSuchSymbol ∧
    faultOf (step { start [0] 0 .dynClcl with ci := 19 }) = some .permIndex ∧
    faultOf (step { start [] 0 .dynTrees with hlit := 300, hdist := 21 }) = some .lensIndex ∧
    faultOf (step (start [0x61] 0 .storedCopy)) = some .counterEmpty := by decide +kernel

theorem test_hostReset : see (hostReset [] 4 4) (fun t => t.pos) = some 32 ∧ see (hostReset [] 4 5) (fun t => t.pos) = none := by decide

theorem test_view : (start [] 7 .done).view = ⟨.done, 0, none, some 7, 0, []⟩ ∧
    ((start [] 7 .sym).raise .incompleteTree).view = ⟨.error, 6, some 7, none, 0, []⟩ ∧ (start [] 7 .sym).view = ⟨.running, 0, none, none, 0, []⟩ := by
  decide

/-! ### witnesses: for each statement with hypotheses, states and operands that meet them, for each clause -/

/-- P3 at its length symbol: bits 11 to 17 hold the code of 264. -/
theorem witness_DecodeOfEncodeIsTheInstruction :
    (∃ (m : Mode) (i : Instr) (c : Cursor) (bits : List Bool), i.wf = true ∧ encode m c.pos i = some bits ∧ c.Holds bits) ∧
    (∃ bits, encode .gzip 0 (.gzipHdr plainHeader) = some bits ∧
      (at' [0x1F, 0x8B, 8, 0, 0, 0, 0, 0, 0, 3] 0).Holds bits) :=
  ⟨⟨.litLen Huffman.fixedLitLen, .len264, at' [0x73, 0x44, 0x00] 11, [false, false, false, true, false, false, false], by decide,
    by decide +kernel, by decide, by decide +kernel⟩,
   ⟨bytesBits plainHeader.bytes, rfl, by decide, by decide +kernel⟩⟩

theorem witness_EveryInstructionHasAnEncoding : (Instr.lenReserved 287).wf = true ∧ (Instr.gzipHdr fullHeader).wf = true := by decide

theorem witness_StepRunsTheDecodedInstruction :
    (∃ (s : State) (m : Mode) (i : Instr) (c : Cursor), s.coreStarted = true ∧ s.mode = .ok (some m) ∧ decode m s.cursor = .instr i c) ∧
    (∃ (s : State) (input : Memory) (len : Nat) (i : Instr) (c : Cursor), s.frontEnd = .requested input len ∧
      decode .gzip ⟨input, len, 0⟩ = .instr i c) :=
  ⟨⟨start [0x03, 0x00] 0 .hdr, .header, .blkFixed true, at' [0x03, 0x00] 3, rfl, rfl, by decide⟩,
   ⟨hostGzip State.reset (Memory.ofBytes 0 [0x1F, 0x8B, 8, 0, 0, 0, 0, 0, 0, 3]) 10, _, _, .gzipHdr plainHeader,
    at' [0x1F, 0x8B, 8, 0, 0, 0, 0, 0, 0, 3] 80, rfl, by decide +kernel⟩⟩

theorem witness_EncodedElementIsExecuted :
    ∃ (s : State) (m : Mode) (i : Instr) (bits : List Bool), s.coreStarted = true ∧ s.mode = .ok (some m) ∧ i.wf = true ∧
      encode m s.pos i = some bits ∧ s.cursor.Holds bits :=
  ⟨start [0x03, 0x00] 0 .hdr, .header, .blkFixed true, [true, true, false], rfl, rfl, rfl, rfl, by decide, by decide⟩

/-- n = 8·N − POS + 1 and n = 8·N − POS. -/
theorem witness_NextBitsPacksLowBitFirst :
    8 * (at' [0xB5] 6).len - (at' [0xB5] 6).pos < 3 ∧ 2 ≤ 8 * (at' [0xB5] 6).len - (at' [0xB5] 6).pos := by decide

/-- The last two bytes, and the last one. -/
theorem witness_AlignedWordIsLittleEndian :
    (at' [1, 2, 3] 8).pos = 8 * 1 ∧ 1 + 2 ≤ (at' [1, 2, 3] 8).len ∧ (at' [1, 2, 3] 16).pos = 8 * 2 ∧ 2 + 1 ≤ (at' [1, 2, 3] 16).len := by
  decide

/-- The tree of `0` alone: its leaf, a path through it, its root's child, and a free path. -/
theorem witness_InsertRaisesOnTakenPaths :
    (Tree.internal (.leaf 5) (.internal .absent (.leaf 6))).rooted = true ∧
    (Huffman.insert 7 [false] (.internal (.leaf 5) (.internal .absent (.leaf 6))) matches .error .duplicateCode) = true ∧
    (Huffman.insert 7 [false, true] (.internal (.leaf 5) (.internal .absent (.leaf 6))) matches .error .invalidTreeShape) = true ∧
    (Huffman.insert 7 [true] (.internal (.leaf 5) (.internal .absent (.leaf 6))) matches .error .invalidTreeShape) = true ∧
    (Huffman.insert 7 [true, false] (.internal (.leaf 5) (.internal .absent (.leaf 6))) matches .ok _) = true := by decide

/-- HU13 and HU15's trees: a symbol, a missing child, and the end of IN. -/
theorem witness_DecodeFollowsThePath :
    (at' [0x02] 0).pos ≤ 8 * (at' [0x02] 0).len ∧ (at' [0x02] 8).pos ≤ 8 * (at' [0x02] 8).len ∧
    Huffman.decode (.internal (.leaf 0) .absent) (at' [0x02] 0) = .symbol 0 (at' [0x02] 1) ∧
    Huffman.decode (.internal (.leaf 0) .absent) (at' [0x02] 1) = .incomplete (at' [0x02] 2) ∧
    Huffman.decode .emptyRoot (at' [0x02] 8) = .endOfStream (at' [0x02] 8) := by decide

/-- HU1's code of symbol 7, `1111`. -/
theorem witness_CanonicalCodesDecode :
    (∀ l ∈ [3, 3, 3, 3, 3, 2, 4, 4], l ≤ 15) ∧ (∃ t, Huffman.build [3, 3, 3, 3, 3, 2, 4, 4] = .ok t) ∧
    (at' [0x0F] 0).Holds (Huffman.codePath
      (Huffman.firstCode [3, 3, 3, 3, 3, 2, 4, 4] 4 + ([3, 3, 3, 3, 3, 2, 4].countP (fun l => l == 4))) 4) :=
  ⟨by decide, ⟨_, rfl⟩, by decide, by decide⟩

/-- Complete, over-subscribed, incomplete, and the longest length. -/
theorem witness_BuildSucceedsExactlyWithinKraft :
    buildError [1, 1] = none ∧ buildError [1, 1, 15] = some .invalidTreeShape ∧ buildError [15] = none := by decide +kernel

/-- The ends of each range of the fixed code table. -/
theorem witness_FixedCodeTable :
    (at' [0x0C] 0).Holds (Huffman.codePath (0x30 + 0) 8) ∧ (at' [0xFD] 0).Holds (Huffman.codePath (0x30 + 143) 8) ∧
    (at' [0x13, 0x00] 0).Holds (Huffman.codePath (0x190 + (144 - 144)) 9) ∧ (at' [0xFF, 0x01] 0).Holds (Huffman.codePath (0x190 + (255 - 144)) 9) ∧
    (at' [0x00] 0).Holds (Huffman.codePath (256 - 256) 7) ∧ (at' [0x74] 0).Holds (Huffman.codePath (279 - 256) 7) ∧
    (at' [0x03] 0).Holds (Huffman.codePath (0xC0 + (280 - 280)) 8) ∧ (at' [0xE3] 0).Holds (Huffman.codePath (0xC0 + (287 - 280)) 8) ∧
    (at' [0x1F] 0).Holds (Huffman.codePath 31 5) :=
  ⟨⟨by decide, by decide⟩, ⟨by decide, by decide⟩, ⟨by decide, by decide⟩, ⟨by decide, by decide⟩, ⟨by decide, by decide⟩,
   ⟨by decide, by decide⟩, ⟨by decide, by decide⟩, ⟨by decide, by decide⟩, ⟨by decide, by decide⟩⟩

/-- The HDR state with 0, 1, 2 and 3 bits left, and the four types. -/
theorem witness_BlockHeaderStep :
    (start [0x07] 0 .hdr).coreStarted = true ∧ (start [0x07] 0 .hdr).st = .hdr ∧
    see (step (start [0x07] 8 .hdr)) ends = some (.error, 8, .unexpectedEndOfStream, 8) ∧
    see (step (start [0x80] 7 .hdr)) (fun t => (ends t, t.bfinal)) = some ((.error, 8, .unexpectedEndOfStream, 8), true) ∧
    see (step (start [0x80] 6 .hdr)) (fun t => (ends t, t.bfinal)) = some ((.error, 7, .unexpectedEndOfStream, 7), false) ∧
    see (step (start [0xE0] 5 .hdr)) ends = some (.error, 8, .corruptBlock, 8) ∧
    see (step (start [0x00] 5 .hdr)) (fun t => t.st) = some .storedHdr ∧ see (step (start [0x40] 5 .hdr)) (fun t => t.st) = some .sym ∧
    see (step (start [0x80] 5 .hdr)) (fun t => t.st) = some .dynHdr := by decide

theorem witness_EndStatesAreFinal :
    (start [] 0 .done).frontEnd = .unused ∧ (start [] 0 .done).st = .done ∧ ((start [] 0 .sym).raise .corruptBlock).frontEnd = .unused ∧
    ((start [] 0 .sym).raise .corruptBlock).st = .error := by decide

/-- A step of the core that goes on, one that raises, and one at the end: TransitionTable, OnlyListedErrorsAreRaised,
RaisingStepWritesNoOutput, PositionOnlyAdvances, OutputOnlyGrows and InputIsConstant. -/
theorem witness_steps :
    (∃ s t : State, s.coreStarted = true ∧ 8 * s.start ≤ s.pos ∧ s.pos ≤ 8 * s.inLen ∧ step s = .next t ∧ t.st = .sym) ∧
    (∃ s t : State, s.coreStarted = true ∧ s.st ≠ .error ∧ step s = .next t ∧ t.st = .error) ∧
    (∃ s t : State, s.coreStarted = true ∧ s.ended = true ∧ step s = .next t) ∧
    (∃ s t : State, s.coreStarted = true ∧ step s = .next t ∧ t.out = s.out ++ [0x61]) :=
  ⟨⟨start [0x03, 0x00] 0 .hdr, _, rfl, by decide, by decide, rfl, by decide⟩,
   ⟨start [0x07] 0 .hdr, _, rfl, by decide, rfl, by decide⟩, ⟨start [] 0 .done, _, rfl, rfl, rfl⟩,
   ⟨{ start [0x61] 0 .storedCopy with srem := 2 }, _, rfl, rfl, by decide⟩⟩

/-- LEN's first byte is byte 1 of 0, 2, 4 and 5 bytes. -/
theorem witness_StoredHeaderStep :
    (start [0x01] 3 .storedHdr).coreStarted = true ∧ (start [0x01] 3 .storedHdr).pos ≤ 8 * (start [0x01] 3 .storedHdr).inLen ∧
    see (step (start [0x01, 0x00] 3 .storedHdr)) ends = some (.error, 8, .unexpectedEndOfStream, 8) ∧
    see (step (start [0x01, 0x00, 0x00] 3 .storedHdr)) ends = some (.error, 24, .unexpectedEndOfStream, 24) ∧
    see (step (start [0x01, 0x00, 0x00, 0xFF] 3 .storedHdr)) ends = some (.error, 24, .unexpectedEndOfStream, 24) ∧
    see (step (start [0x01, 0x00, 0x00, 0xFF, 0xFE] 3 .storedHdr)) ends = some (.error, 40, .lengthCheckFailed, 40) ∧
    see (step (start [0x01, 0x00, 0x00, 0xFF, 0xFF] 3 .storedHdr)) (fun t => (t.st, t.pos)) = some (.hdr, 40) ∧
    see (step (start [0x00, 0x00, 0xFF, 0xFF] 0 .storedHdr)) (fun t => (t.st, t.pos)) = some (.hdr, 32) ∧
    see (step (start [0x01, 0xFF, 0xFF, 0x00, 0x00] 3 .storedHdr)) (fun t => (t.st, t.srem)) = some (.storedCopy, 0xFFFF) := by decide

theorem witness_StoredHeaderRow : (0xFFFC : BitVec 16) = ~~~3 ∧ (3 : BitVec 16) ≠ 0 ∧ (0xFFFF : BitVec 16) = ~~~0 ∧
    (0xFEFC : BitVec 16) ≠ ~~~3 := by decide

/-- The last byte of a block and one before it, and no byte left: StoredByteRow and StoredCopyStep. -/
theorem witness_StoredCopyStep :
    ({ start [0x61] 0 .storedCopy with srem := 1 } : State).coreStarted = true ∧
    see (step { start [0x61] 0 .storedCopy with srem := 1 }) (fun t => (t.st, t.out)) = some (.hdr, [0x61]) ∧
    see (step { start [0x61] 0 .storedCopy with srem := 2 }) (fun t => (t.st, t.out)) = some (.storedCopy, [0x61]) ∧
    see (step { start [0x61] 8 .storedCopy with srem := 2 }) ends = some (.error, 8, .unexpectedEndOfStream, 8) := by decide

/-- 4, 5, 9, 10 and 13 bits left. -/
theorem witness_DynamicHeaderMissingFields :
    (start [0xFF] 4 .dynHdr).coreStarted = true ∧ (start [0xFF] 4 .dynHdr).st = .dynHdr ∧
    see (step (start [0xFF] 4 .dynHdr)) (fun t => (ends t, t.hlit)) = some ((.error, 4, .unexpectedEndOfStream, 4), 0) ∧
    see (step (start [0xFF] 3 .dynHdr)) (fun t => (ends t, t.hlit, t.hdist)) = some ((.error, 8, .unexpectedEndOfStream, 8), 288, 0) := by
  decide

theorem witness_DynamicHeaderMissingFields_hdist :
    see (step (start [0xFF, 0xFF] 7 .dynHdr)) (fun t => (t.pos, t.hlit, t.hdist)) = some (12, 288, 0) ∧
    see (step (start [0xFF, 0xFF] 6 .dynHdr)) (fun t => (t.pos, t.hlit, t.hdist)) = some (16, 288, 32) ∧
    see (step (start [0xFF, 0xFF] 3 .dynHdr)) (fun t => (t.pos, t.hlit, t.hdist, t.hclen)) = some (13, 288, 32, 0) := by decide

/-- The last index of PERM, and the one past it. -/
theorem witness_CodeLengthCodeRow :
    see (exec (.dynClcl 5) { State.reset with ci := 18, hclen := 19 }) (fun t => (t.clcl[15], t.ci, t.st)) = some (5, 19, .dynClTree) ∧
    faultOf (exec (.dynClcl 5) { State.reset with ci := 19, hclen := 19 }) = some .permIndex ∧
    see (step { start [0xB4] 5 .dynClcl with hclen := 19 }) (fun t => (t.clcl[16], t.ci, t.pos, t.st)) = some (5, 1, 8, .dynClcl) ∧
    see (step { start [0xB4] 6 .dynClcl with hclen := 19 }) ends = some (.error, 6, .unexpectedEndOfStream, 6) := by decide

theorem witness_CodeLengthTreeStep :
    (start [] 0 .dynClTree).coreStarted = true ∧ (start [] 0 .dynClTree).st = .dynClTree ∧
    buildError (List.replicate 19 0) = none ∧ buildError ([1, 0, 0, 0, 0, 0, 0, 0, 1] ++ List.replicate 9 0 ++ [1]) = some .duplicateCode ∧
    buildError ([1, 0, 0, 0, 0, 0, 0, 1, 2] ++ List.replicate 10 0) = some .invalidTreeShape := by decide +kernel

/-- A run that ends at HLIT + HDIST, one that passes it by 1, and both cases of symbol 16 (LI = 0, LI = 1). -/
theorem witness_CodeLengthRows :
    see (exec (.clRepZero3 0) (lensAt 255 [])) (fun t => (t.li, t.st)) = some (258, .dynTrees) ∧
    see (exec (.clRepZero3 0) (lensAt 256 [])) (fun t => (t.li, t.st)) = some (256, .error) ∧
    see (exec (.clRepPrev 0) (lensAt 0 [])) (fun t => t.st) = some .error ∧
    see (exec (.clRepPrev 0) (lensAt 1 [])) (fun t => (t.li, t.st)) = some (4, .dynLens) ∧
    (lensAt 255 []).hlit.toNat + (lensAt 255 []).hdist.toNat ≤ 320 := by decide +kernel

/-- Symbols 15, 16 (LI = 0 and LI = 1), 17 and 18 under 5-bit codes, and HLIT + HDIST passed by 1. -/
theorem witness_CodeLengthSymbolStep :
    (lensAt 0 [0x01]).coreStarted = true ∧ (lensAt 0 [0x01]).st = .dynLens ∧ (lensAt 0 [0x01]).clt = some tableClTree ∧
    see (step (lensAt 0 [0x1E])) (fun t => (t.li, t.lens[0], t.pos)) = some (1, 15, 5) ∧
    see (step (lensAt 0 [0x01])) ends = some (.error, 5, .invalidRunLength, 5) ∧
    see (step (lensAt 1 [0x61])) (fun t => (t.li, t.pos)) = some (7, 7) ∧
    see (step (lensAt 0 [0xF1])) (fun t => (t.li, t.pos)) = some (10, 8) ∧
    see (step (lensAt 0 [0xE9, 0x0F])) (fun t => (t.li, t.pos)) = some (138, 12) ∧
    see (step (lensAt 255 [0x11])) (fun t => (t.li, t.st)) = some (258, .dynTrees) ∧
    see (step (lensAt 256 [0x11])) ends = some (.error, 8, .invalidRunLength, 8) := by decide +kernel

/-- No bits, and a missing code; then one extra bit too few for 16, 17 and 18. -/
theorem witness_CodeLengthSymbolStep_missing :
    see (step (lensAt 0 [])) ends = some (.error, 0, .unexpectedEndOfStream, 0) ∧
    see (step (lensAt 0 [0x19])) ends = some (.error, 5, .incompleteTree, 5) := by decide +kernel

theorem witness_CodeLengthSymbolStep_extra :
    see (step ((lensAt 1 [0x04]).atPos 2)) ends = some (.error, 7, .unexpectedEndOfStream, 7) ∧
    see (step ((lensAt 0 [0x22]).atPos 1)) ends = some (.error, 6, .unexpectedEndOfStream, 6) ∧
    see (step ((lensAt 0 [0x20, 0x01]).atPos 5)) ends = some (.error, 10, .unexpectedEndOfStream, 10) := by decide +kernel

/-- Each way the two builds can end, over 257 + 1 lengths. -/
theorem witness_TreesStep :
    ({ start [] 0 .dynTrees with hlit := 257, hdist := 1 } : State).coreStarted = true ∧ (257 : Nat) + 1 ≤ 320 ∧
    see (step { start [] 0 .dynTrees with hlit := 257, hdist := 1 }) (fun t => t.st) = some .sym ∧
    see (step { start [] 0 .dynTrees with hlit := 257, hdist := 3, lens := ((Vector.replicate 320 0).set 257 1 |>.set 258 1 |>.set 259 1) }) ends =
      some (.error, 0, .duplicateCode, 0) ∧
    see (step { start [] 0 .dynTrees with hlit := 257, hdist := 3, lens := ((Vector.replicate 320 0).set 257 1 |>.set 258 1 |>.set 259 2) }) ends =
      some (.error, 0, .invalidTreeShape, 0) ∧
    see (step { start [] 0 .dynTrees with hlit := 257, hdist := 1, lens := ((Vector.replicate 320 0).set 0 1 |>.set 1 1 |>.set 2 1) }) ends =
      some (.error, 0, .duplicateCode, 0) ∧
    see (step { start [] 0 .dynTrees with hlit := 257, hdist := 1, lens := ((Vector.replicate 320 0).set 0 1 |>.set 1 1 |>.set 2 2) }) ends =
      some (.error, 0, .invalidTreeShape, 0) := by decide +kernel

/-- A distance equal to EMITTED, and one more than it. -/
theorem witness_DistanceRows :
    see (exec .dist1 { State.reset with emitted := 2 }) (fun t => (t.st, t.cpdist)) = some (.copy, 2) ∧
    see (exec .dist1 { State.reset with emitted := 1 }) (fun t => t.st) = some .error := by decide

/-- Symbols 255, 256, 257, 285, 286; a missing extra bit; a missing code; no bits. -/
theorem witness_SymbolStep :
    (fixed [0xFF, 0x01] 0 .sym).coreStarted = true ∧ (fixed [0xFF, 0x01] 0 .sym).llt = some Huffman.fixedLitLen ∧
    see (step (fixed [0xFF, 0x01] 0 .sym)) (fun t => t.out) = some [0xFF] ∧ see (step (fixed [0x00] 0 .sym)) (fun t => t.st) = some .hdr ∧
    see (step (fixed [0x40] 0 .sym)) (fun t => (t.st, t.cplen)) = some (.dist, 3) ∧
    see (step (fixed [0xA3] 0 .sym)) (fun t => (t.st, t.cplen)) = some (.dist, 258) ∧
    see (step (fixed [0x63] 0 .sym)) ends = some (.error, 8, .corruptLengthCode, 8) ∧
    see (step (fixed [0x23] 0 .sym)) ends = some (.error, 8, .unexpectedEndOfStream, 8) ∧
    see (step { fixed [0x01] 0 .sym with llt := some (.internal (.leaf 0) .absent) }) ends = some (.error, 1, .incompleteTree, 1) ∧
    see (step (fixed [] 0 .sym)) ends = some (.error, 0, .unexpectedEndOfStream, 0) := by decide +kernel

/-- Symbols 29 (the distance equal to EMITTED, and one more than it) and 30; a missing extra bit; a missing code; no bits. -/
theorem witness_DistanceStep :
    (fixed [0x0F] 0 .dist).coreStarted = true ∧ (fixed [0x0F] 0 .dist).dt = some Huffman.fixedDist ∧
    see (step { fixed [0xF7, 0xFF, 0x03] 0 .dist with emitted := 32768 }) (fun t => (t.st, t.cpdist, t.pos)) = some (.copy, 32768, 18) ∧
    see (step { fixed [0xF7, 0xFF, 0x03] 0 .dist with emitted := 32767 }) ends = some (.error, 18, .invalidDistance, 18) ∧
    see (step (fixed [0x0F] 0 .dist)) ends = some (.error, 5, .invalidDistance, 5) := by decide +kernel

theorem witness_DistanceStep_missing :
    see (step (fixed [0x17] 0 .dist)) ends = some (.error, 5, .unexpectedEndOfStream, 5) ∧
    see (step { fixed [0x01] 0 .dist with dt := some .emptyRoot }) ends = some (.error, 1, .incompleteTree, 1) ∧
    see (step (fixed [] 0 .dist)) ends = some (.error, 0, .unexpectedEndOfStream, 0) := by decide +kernel

/-- A legal COPY state: E1 after its distance, nine copies to go. CopyStep, WindowHoldsTheRecentOutput,
MatchCopiesFromTheDistanceBack, StepKeepsLegality and LegalStatesNeverStop. -/
def copying : State := { after [0x41, 0x42] (fixed [0x73, 0x44, 0x00] 23 .copy) with cplen := 9, cpdist := 2 }

theorem witness_copying : Inv copying ∧ copying.coreStarted = true ∧ copying.st = .copy ∧ copying.cplen ≠ 0 ∧
    copying.cpdist.toNat ≤ copying.emitted ∧ copying.winRead ((copying.emitted - copying.cpdist.toNat) % 32768) = some 0x41 ∧
    1 ≤ copying.cpdist.toNat ∧ copying.cpdist.toNat ≤ 32768 :=
  ⟨⟨by decide +kernel, by decide +kernel, fun _ =>
    { pos := by decide +kernel, block := by decide +kernel, window := by decide +kernel, error := by decide +kernel,
      treesLegal := by decide +kernel, treesInPlace := by decide +kernel, stored := by decide +kernel, dynamic := by decide +kernel,
      copying := by decide +kernel }⟩,
   by decide +kernel⟩

/-- The last COPY step of a match. -/
theorem witness_CopyStep_last : ({ copying with cplen := 1 } : State).cplen = 1 ∧
    see (step { copying with cplen := 1 }) (fun t => (t.st, t.out)) = some (.sym, [0x41, 0x42, 0x41]) := by decide +kernel

/-- The reset state is legal, and a step of it is a next state. -/
theorem witness_StepKeepsLegality : Inv State.reset ∧ (∃ t, step State.reset = .next t) :=
  ⟨⟨by decide, by decide, fun _ =>
    { pos := by decide, block := by decide, window := by decide, error := by decide, treesLegal := by decide,
      treesInPlace := by decide, stored := by decide, dynamic := by decide, copying := by decide }⟩, _, rfl⟩

/-- S = N and S = N + 1: RunsEndWithinTheBound and ResetValues. -/
theorem witness_launches : (4 : Nat) ≤ 4 ∧ (4 : Nat) < 5 := by decide

theorem witness_StatusInterface : (start [] 0 .done).st = .done ∧ ((start [] 0 .sym).raise .corruptBlock).st = .error ∧
    (start [] 0 .sym).st ≠ .done ∧ (start [] 0 .sym).st ≠ .error := by decide

theorem witness_LaunchesAreLegal : Memory.wf Config.inputUnlisted (Memory.ofBytes 0 [0, 7, 0]) = true ∧
    Memory.below 3 (Memory.ofBytes 0 [0, 7, 0]) = true ∧ (3 : Nat) ≤ 3 := by decide

/-- A header of exactly N bytes: GzipHeaderRow and GzipMemberLaunches; and the launch is the reset that InputIsConstant names. -/
theorem witness_GzipMemberLaunches :
    (hostGzip State.reset (Memory.ofBytes 0 fullHeader.bytes) 19).frontEnd = .requested (Memory.ofBytes 0 fullHeader.bytes) 19 ∧
    fullHeader.wf = true ∧ fullHeader.bytes.length ≤ 19 ∧ (at' fullHeader.bytes 0).Holds (bytesBits fullHeader.bytes) ∧
    (hostGzip State.reset (Memory.ofBytes 0 fullHeader.bytes) 19).coreStarted = false ∧
    see (step (hostGzip State.reset (Memory.ofBytes 0 fullHeader.bytes) 19)) (fun t => (t.input, t.inLen, t.start)) =
      some (Memory.ofBytes 0 fullHeader.bytes, 19, 19) :=
  ⟨rfl, by decide, by decide, ⟨by decide +kernel, by decide +kernel⟩, rfl, by decide +kernel⟩

/-- GZIP_HDR with no front end asked for, and a header that just fits. -/
theorem witness_GzipHeaderRow : (start fullHeader.bytes 0 .hdr).frontEnd = .unused ∧
    fullHeader.bytes.length ≤ (start fullHeader.bytes 0 .hdr).inLen := by decide

theorem witness_GzipParseIsExact : (at' plainHeader.bytes 0).pos ≤ 8 * (at' plainHeader.bytes 0).len ∧
    decode .gzip (at' plainHeader.bytes 0) = .instr (.gzipHdr plainHeader) (at' plainHeader.bytes 80) := by decide +kernel

/-- What the front end leaves on these bytes. -/
def fails (bytes : List Byte) (k : ErrKind) (r : Option HeaderReason) (p : Nat) : Bool :=
  see (step (hostGzip State.reset (Memory.ofBytes 0 bytes) bytes.length)) (fun t => t.frontEnd) == some (.failed k r p)

/-- GZ2, GZ3, GZ4, GZ6, GZ7 and GZ8, each cut after the byte that fails. -/
theorem witness_GzipHeaderChecks :
    (hostGzip State.reset [] 0).frontEnd = .requested [] 0 ∧ fails [] .unexpectedEndOfStream none 0 = true ∧
    fails [0x1E] .corruptHeader (some .badMagic) 8 = true ∧ fails [0x1F, 0x8C] .corruptHeader (some .badMagic) 16 = true ∧
    fails [0x1F, 0x8B, 7] .corruptHeader (some .badMethod) 24 = true ∧
    fails [0x1F, 0x8B, 8, 0x20] .corruptHeader (some .reservedFlags) 32 = true ∧
    fails [0x1F, 0x8B, 8, 0, 0, 0, 0, 0, 2] .corruptHeader (some .badXfl) 72 = true := by decide +kernel

/-- Where a beginning of `header` with n bytes fails. -/
def cutAt (header : GzipHeader) (n p : Nat) : Bool :=
  fails (header.bytes.take n) .unexpectedEndOfStream none p

/-- R159 at every cut: byte by byte, but for the halves of MTIME (bytes 4 to 7), XLEN (10, 11) and HCRC (17, 18). -/
theorem witness_GzipTruncation :
    ([0, 8, 16, 24, 32, 32, 48, 48, 64, 72, 80, 80, 96, 104, 112, 120, 128, 136, 136].zipIdx.all
      (fun (p, n) => cutAt fullHeader n p)) = true ∧
    cutAt ⟨8, 0, 0, 3, none, some [0x61], none, none⟩ 11 88 = true ∧ cutAt ⟨8, 0, 0, 3, none, some [0x61], none, none⟩ 10 80 = true := by
  decide +kernel

end Sys2Proof.Tests
end

section
/-! SUPPORT. What a step of the core writes, read off `Stepped` once for each group of registers: the launch parameters, OUT with the
window, POS, and ST with the error registers. -/

namespace Sys2Proof.Machine

/-- IN, N, S and the front end's result stay (20_memory.md R55, R61). -/
theorem Stepped.launch_eq {s t : State} (h : Stepped s t) :
    t.input = s.input ∧ t.inLen = s.inLen ∧ t.start = s.start ∧ t.frontEnd = s.frontEnd := by
  cases h with
  | stopped kept k p => rw [keep_eq]; exact ⟨rfl, rfl, rfl, rfl⟩
  | storedByte v => rw [closeStored_eq]; split <;> exact ⟨rfl, rfl, rfl, rfl⟩
  | dynClcl v k p => rw [closeClcl_eq]; exact ⟨rfl, rfl, rfl, rfl⟩
  | fill v r p => rw [closeLens_eq]; exact ⟨rfl, rfl, rfl, rfl⟩
  | copy v => rw [closeCopy_eq]; exact ⟨rfl, rfl, rfl, rfl⟩
  | _ => exact ⟨rfl, rfl, rfl, rfl⟩

/-- t has the output and the window of s. -/
def SameOutput (s t : State) : Prop :=
  t.out = s.out ∧ t.win = s.win ∧ t.emitted = s.emitted

/-- OUT and the window are as before, or as one Emit leaves them (10_state.md R35, 47_window_copy.md R262). -/
theorem Stepped.output_cases {s t : State} (h : Stepped s t) : SameOutput s t ∨ ∃ v, SameOutput (s.emit v) t := by
  cases h with
  | storedByte v => refine .inr ⟨v, ?_⟩; rw [closeStored_eq]; split <;> exact ⟨rfl, rfl, rfl⟩
  | lit v => exact .inr ⟨v, rfl, rfl, rfl⟩
  | copy v => refine .inr ⟨v, ?_⟩; rw [closeCopy_eq]; exact ⟨rfl, rfl, rfl⟩
  | stopped kept k p => left; rw [keep_eq]; exact ⟨rfl, rfl, rfl⟩
  | dynClcl v k p => left; rw [closeClcl_eq]; exact ⟨rfl, rfl, rfl⟩
  | fill v r p => left; rw [closeLens_eq]; exact ⟨rfl, rfl, rfl⟩
  | _ => exact .inl ⟨rfl, rfl, rfl⟩

theorem Moves.pos_bounds {s : State} {low p : Nat} (h : Moves low s p) (hp : s.pos ≤ 8 * s.inLen) :
    s.pos ≤ p ∧ p ≤ 8 * s.inLen := by
  have := h hp
  omega

/-- POS never goes back, and stays within IN (40_bitcursor.md R107). -/
theorem Stepped.pos_bounds {s t : State} (h : Stepped s t) (hp : s.pos ≤ 8 * s.inLen) :
    s.pos ≤ t.pos ∧ t.pos ≤ 8 * s.inLen := by
  have still : s.pos ≤ s.pos ∧ s.pos ≤ 8 * s.inLen := ⟨Nat.le_refl _, hp⟩
  cases h with
  | idle | dynClTree | trees | treesHalf => exact still
  | copy v => rw [closeCopy_eq]; exact still
  | storedByte v _ hm => rw [closeStored_eq]; split <;> exact hm.pos_bounds hp
  | dynClcl v k p _ hm => rw [closeClcl_eq]; exact hm.pos_bounds hp
  | fill v r p _ hm => rw [closeLens_eq]; exact hm.pos_bounds hp
  | stopped _ _ _ _ _ hm | blkStored _ _ _ hm | blkFixed _ _ _ hm | blkDynamic _ _ _ hm | storedEmpty _ _ hm
  | storedHdr _ _ _ hm | dynHdr _ _ _ _ _ hm | lit _ _ _ hm | eob _ _ hm | length _ _ _ _ hm | distance _ _ _ _ hm =>
    exact hm.pos_bounds hp

/-- The end of a block follows the transition table from the three states that end one (43_block_control.md R171). -/
theorem endBlock_st_allowed (s : State) {c : Ctrl} (hc : c = .storedHdr ∨ c = .storedCopy ∨ c = .sym) :
    s.endBlock.st ∈ allowedNext c := by
  rcases hc with rfl | rfl | rfl <;> rcases afterBlock_cases s.bfinal with h | h <;> simp [h, allowedNext]

/-- A step stays in an ended run, goes on by the transition table with ERRK as it was, or raises a listed error at POS
(43_block_control.md R171, 60_exceptions.md R282, R283). -/
theorem Stepped.st_cases {s t : State} (h : Stepped s t) :
    (s.ended = true ∧ t = s) ∨ (t.st ∈ allowedNext s.st ∧ t.errk = s.errk) ∨
    (t.st = .error ∧ t.errk ∈ mayRaise s.st ∧ t.errpos = t.pos) := by
  cases h with
  | idle he => exact .inl ⟨he, rfl⟩
  | stopped kept k p _ hk => exact .inr (.inr ⟨rfl, hk, rfl⟩)
  | treesHalf l e hst => exact .inr (.inr ⟨rfl, by cases e <;> simp [hst, mayRaise, buildErrKind], rfl⟩)
  | storedEmpty p hst => exact .inr (.inl ⟨endBlock_st_allowed _ (.inl hst), rfl⟩)
  | eob p hst => exact .inr (.inl ⟨endBlock_st_allowed _ (.inr (.inr hst)), rfl⟩)
  | storedByte v hst =>
    rw [closeStored_eq]
    split
    · exact .inr (.inl ⟨endBlock_st_allowed _ (.inr (.inl hst)), rfl⟩)
    · exact .inr (.inl ⟨by simp [hst, allowedNext], rfl⟩)
  | dynClcl v k p hst =>
    rw [closeClcl_eq]
    exact .inr (.inl ⟨by dsimp only; split <;> simp [hst, allowedNext], rfl⟩)
  | fill v r p hst =>
    rw [closeLens_eq]
    exact .inr (.inl ⟨by dsimp only; split <;> simp [hst, allowedNext], rfl⟩)
  | copy v hst =>
    rw [closeCopy_eq]
    exact .inr (.inl ⟨by dsimp only; split <;> simp [hst, allowedNext], rfl⟩)
  | lit _ _ hst | blkStored _ _ hst | blkFixed _ _ hst | blkDynamic _ _ hst | storedHdr _ _ hst | dynHdr _ _ _ _ hst
  | dynClTree _ hst | trees _ _ hst | length _ _ _ hst | distance _ _ _ hst =>
    exact .inr (.inl ⟨by simp [hst, allowedNext], rfl⟩)

end Sys2Proof.Machine
end

section
/-! SUPPORT. Every clause of the invariant is kept by a step of the core, one lemma for each clause; a launch meets them all. -/

namespace Sys2Proof.Machine

/-! ### position, block type, window and errors -/

theorem State.posOk.stepped {s t : State} (hs : s.posOk) (h : Stepped s t) : t.posOk := by
  obtain ⟨hstart, hlow, hhigh⟩ := hs
  obtain ⟨-, hlen, hst, -⟩ := h.launch_eq
  have := h.pos_bounds hhigh
  rw [State.posOk, hlen, hst]
  omega

/-- The HDR step writes BTYPE 0, 1 or 2, and no other step writes it. -/
theorem State.blockOk.stepped {s t : State} (hs : s.blockOk) (h : Stepped s t) : t.blockOk := by
  cases h with
  | blkStored | blkFixed | blkDynamic => simp [State.blockOk]
  | stopped kept k p => rw [keep_eq]; exact hs
  | storedByte v => rw [closeStored_eq]; split <;> exact hs
  | dynClcl v k p => rw [closeClcl_eq]; exact hs
  | fill v r p => rw [closeLens_eq]; exact hs
  | copy v => rw [closeCopy_eq]; exact hs
  | _ => exact hs

theorem State.windowOk.of_sameOutput {s t : State} (hs : s.windowOk) (h : SameOutput s t) : t.windowOk := by
  obtain ⟨ho, hw, he⟩ := h
  unfold State.windowOk State.winRead at *
  rwa [ho, hw, he]

theorem State.windowOk.stepped {s t : State} (hs : s.windowOk) (h : Stepped s t) : t.windowOk := by
  rcases h.output_cases with h | ⟨v, h⟩
  · exact State.windowOk.of_sameOutput hs h
  · exact State.windowOk.of_sameOutput (emit_windowOk hs v) h

theorem error_not_allowedNext (c : Ctrl) : Ctrl.error ∉ allowedNext c := by
  cases c <;> decide

/-- What a step raises is an error, and never the front end's CorruptHeader (60_exceptions.md R281, R282). -/
theorem mayRaise_legal {c : Ctrl} {k : ErrKind} (h : k ∈ mayRaise c) : k ≠ .none ∧ k ≠ .corruptHeader := by
  revert k
  cases c <;> decide

theorem State.errorOk.stepped {s t : State} (hs : s.errorOk) (h : Stepped s t) : t.errorOk := by
  rcases h.st_cases with ⟨-, rfl⟩ | ⟨hst, hk⟩ | ⟨hst, hk, hpos⟩
  · exact hs
  · obtain ⟨hiff, hne, -⟩ := hs
    have ht : t.st ≠ .error := fun he => error_not_allowedNext _ (he ▸ hst)
    have hn : s.st ≠ .error := fun he => by rw [he] at hst; simp [allowedNext] at hst
    exact ⟨iff_of_false ht (hk ▸ mt hiff.mpr hn), hk ▸ hne, fun he => absurd he ht⟩
  · obtain ⟨hnone, hheader⟩ := mayRaise_legal hk
    exact ⟨iff_of_true hst hnone, hheader, fun _ => hpos⟩

/-! ### the tree registers -/

theorem treeLegal_build {lengths : List Nat} {t : Tree} {bound : Nat} (h : Huffman.build lengths = .ok t)
    (hb : lengths.length ≤ bound) : treeLegal bound (some t) = true := by
  obtain ⟨hr, hs⟩ := Huffman.build_legal h hb
  simp [treeLegal, hr, hs]

theorem treeLegal_fixedLitLen : treeLegal Config.litLenSymbols (some Huffman.fixedLitLen) = true := by
  obtain ⟨hr, hs⟩ := Huffman.fixedLitLen_legal
  rw [treeLegal, hr, Config.litLenSymbols, hs, Bool.and_self]

theorem treeLegal_fixedDist : treeLegal Config.distSymbols (some Huffman.fixedDist) = true := by
  obtain ⟨hr, hs⟩ := Huffman.fixedDist_legal
  rw [treeLegal, hr, Config.distSymbols, hs, Bool.and_self]

theorem lensSlice_length_le (s : State) (i n : Nat) : (s.lensSlice i n).length ≤ n := by
  rw [State.lensSlice, List.length_map, List.length_take]
  exact Nat.min_le_left _ _

/-- A tree register takes a fixed tree, a tree built from as many lengths as its alphabet allows, or NONE. -/
theorem State.treesLegal.stepped {s t : State} (hs : s.treesLegal) (hd : s.dynamicOk) (h : Stepped s t) :
    t.treesLegal := by
  obtain ⟨hclt, hllt, hdt⟩ := hs
  obtain ⟨hcounts, -⟩ := hd
  have litLen {l : Tree} (hst : s.st = .dynTrees) (hl : Huffman.build (s.lensSlice 0 s.hlit.toNat) = .ok l) :
      treeLegal Config.litLenSymbols (some l) = true := by
    obtain ⟨-, hhlit, -⟩ := hcounts (by simp [hst])
    exact treeLegal_build hl (Nat.le_trans (lensSlice_length_le ..) hhlit)
  cases h with
  | blkFixed => exact ⟨hclt, treeLegal_fixedLitLen, treeLegal_fixedDist⟩
  | dynClTree tree _ hb => exact ⟨treeLegal_build hb (by simp [Config.clSymbols]), hllt, hdt⟩
  | treesHalf l e hst hl => exact ⟨hclt, litLen hst hl, hdt⟩
  | trees l d hst hl hb =>
    obtain ⟨-, -, -, hhdist, -⟩ := hcounts (by simp [hst])
    exact ⟨rfl, litLen hst hl, treeLegal_build hb (Nat.le_trans (lensSlice_length_le ..) hhdist)⟩
  | storedEmpty | eob => exact ⟨rfl, rfl, rfl⟩
  | storedByte v =>
    rw [closeStored_eq]
    split
    · exact ⟨rfl, rfl, rfl⟩
    · exact ⟨hclt, hllt, hdt⟩
  | stopped kept k p => rw [keep_eq]; exact ⟨hclt, hllt, hdt⟩
  | dynClcl v k p => rw [closeClcl_eq]; exact ⟨hclt, hllt, hdt⟩
  | fill v r p => rw [closeLens_eq]; exact ⟨hclt, hllt, hdt⟩
  | copy v => rw [closeCopy_eq]; exact ⟨hclt, hllt, hdt⟩
  | _ => exact ⟨hclt, hllt, hdt⟩

/-! ### what ST promises of the trees and the counters

Each clause below speaks of certain control states only. A step that ends a block leads to HDR or DONE, where the trees are NONE and
the counters are free. -/

theorem endBlock_treesInPlace (s : State) : s.endBlock.treesInPlace := by
  rcases afterBlock_cases s.bfinal with h | h <;> simp [State.treesInPlace, h]

theorem endBlock_storedOk (s : State) : s.endBlock.storedOk := by
  rcases afterBlock_cases s.bfinal with h | h <;> simp [State.storedOk, h]

theorem endBlock_dynamicOk (s : State) : s.endBlock.dynamicOk := by
  rcases afterBlock_cases s.bfinal with h | h <;> simp [State.dynamicOk, h]

theorem endBlock_matchOk (s : State) : s.endBlock.matchOk := by
  rcases afterBlock_cases s.bfinal with h | h <;> simp [State.matchOk, h]

/-- The trees that s held by its ST, with those the step has written, are the ones that the new ST asks for (R30). -/
theorem State.treesInPlace.stepped {s t : State} (hs : s.treesInPlace) (h : Stepped s t) : t.treesInPlace := by
  cases h with
  | idle => exact hs
  | stopped | treesHalf => simp [State.treesInPlace]
  | storedEmpty | eob => exact endBlock_treesInPlace _
  | storedByte v hst =>
    rw [closeStored_eq]
    split
    · exact endBlock_treesInPlace _
    · exact hs
  | dynClcl v k p hst =>
    obtain ⟨-, -, hnone⟩ := hs
    rw [closeClcl_eq]
    dsimp only [State.treesInPlace]
    split <;> simpa [hst] using hnone (by simp [hst])
  | fill v r p hst =>
    obtain ⟨hlens, -⟩ := hs
    rw [closeLens_eq]
    dsimp only [State.treesInPlace]
    split <;> simpa [hst] using hlens (by simp [hst])
  | copy v hst =>
    obtain ⟨-, hsym, -⟩ := hs
    rw [closeCopy_eq]
    dsimp only [State.treesInPlace]
    split <;> simpa [hst] using hsym (by simp [hst])
  | trees => simp [State.treesInPlace]
  | blkFixed f p hst =>
    obtain ⟨-, -, hnone⟩ := hs
    obtain ⟨hclt, -⟩ := hnone (by simp [hst])
    simp [State.treesInPlace, hclt]
  | dynClTree tree hst =>
    obtain ⟨-, -, hnone⟩ := hs
    obtain ⟨-, hllt, hdt⟩ := hnone (by simp [hst])
    simp [State.treesInPlace, hllt, hdt]
  | blkStored f p hst | blkDynamic f p hst | storedHdr n p hst | dynHdr a b d p hst =>
    obtain ⟨-, -, hnone⟩ := hs
    simpa [State.treesInPlace] using hnone (by simp [hst])
  | lit v p hst | length c e p hst | distance d e p hst =>
    obtain ⟨-, hsym, -⟩ := hs
    simpa [State.treesInPlace, hst] using hsym (by simp [hst])

/-- STORED_COPY is entered at a byte boundary with LEN above 0, and left when SREM comes down to 0 (R191). -/
theorem State.storedOk.stepped {s t : State} (hs : s.storedOk) (h : Stepped s t) : t.storedOk := by
  cases h with
  | idle => exact hs
  | storedEmpty | eob => exact endBlock_storedOk _
  | storedHdr len p _ _ hlen hp => exact fun _ => ⟨hlen, hp⟩
  | storedByte v hst =>
    obtain ⟨-, hp⟩ := hs hst
    rw [closeStored_eq]
    split
    next => exact endBlock_storedOk _
    next hmore => exact fun _ => ⟨hmore, by simpa using hp⟩
  | dynClcl v k p hst => rw [closeClcl_eq]; dsimp only [State.storedOk]; split <;> simp [hst]
  | fill v r p hst => rw [closeLens_eq]; dsimp only [State.storedOk]; split <;> simp [hst]
  | copy v hst => rw [closeCopy_eq]; dsimp only [State.storedOk]; split <;> simp [hst]
  | lit v p hst => simp [State.storedOk, hst]
  | _ => simp [State.storedOk]

/-- Every value of the header's fields gives counts in range (30_encoding.md R74). -/
theorem countsOk_of_fields {s : State} {a b : BitVec 5} {d : BitVec 4} (ha : s.hlit = hlitOf a) (hb : s.hdist = hdistOf b)
    (hd : s.hclen = hclenOf d) : s.countsOk := by
  rw [State.countsOk, ha, hb, hd]
  simp only [hlitOf, hdistOf, hclenOf, BitVec.toNat_ofNat]
  omega

/-- CI and LI start at 0 below their ends, rise without passing them, and ST moves on exactly there (R201, R203). -/
theorem State.dynamicOk.stepped {s t : State} (hs : s.dynamicOk) (h : Stepped s t) : t.dynamicOk := by
  obtain ⟨hcounts, hci, -⟩ := id hs
  cases h with
  | idle => exact hs
  | storedEmpty | eob => exact endBlock_dynamicOk _
  | storedByte v hst =>
    rw [closeStored_eq]
    split
    · exact endBlock_dynamicOk _
    · simp [State.dynamicOk, hst]
  | dynHdr a b d p =>
    have hc : State.countsOk { s with hlit := hlitOf a, hdist := hdistOf b, hclen := hclenOf d } :=
      countsOk_of_fields rfl rfl rfl
    obtain ⟨-, -, -, -, h4, -⟩ := id hc
    exact ⟨fun _ => hc, fun _ => Nat.lt_of_lt_of_le (show 0 < 4 by decide) h4, by simp, by simp⟩
  | dynClcl v k p hst =>
    have hc := hcounts (by simp [hst])
    have hlt := hci hst
    have hnext : (s.ci + 1).toNat = s.ci.toNat + 1 := by bv_omega
    unfold State.closeClcl
    split
    next => exact ⟨fun _ => hc, by simp, by simp, by simp⟩
    next hmore =>
      have hne : (s.ci + 1).toNat ≠ s.hclen.toNat := mt BitVec.eq_of_toNat_eq hmore
      have hbelow : (s.ci + 1).toNat < s.hclen.toNat := by omega
      exact ⟨fun _ => hc, fun _ => hbelow, by simp [hst], by simp [hst]⟩
  | dynClTree tree hst =>
    have hc := hcounts (by simp [hst])
    obtain ⟨h257, -⟩ := id hc
    have hbelow : 0 < s.lensTotal := by
      rw [State.lensTotal]
      omega
    exact ⟨fun _ => hc, by simp, fun _ => hbelow, by simp⟩
  | fill v r p hst _ _ hle h320 =>
    have hc := hcounts (by simp [hst])
    have hnext : ((s.atPos p).writeLens v r).li.toNat = s.li.toNat + r :=
      writeLens_li_toNat (s := s.atPos p) (by simp only [State.atPos_li]; omega)
    unfold State.closeLens
    split
    next hfull => exact ⟨fun _ => hc, by simp, by simp, fun _ => hfull⟩
    next hmore => exact ⟨fun _ => hc, by simp [hst], fun _ => Nat.lt_of_le_of_ne (hnext ▸ hle) hmore, by simp [hst]⟩
  | copy v hst => rw [closeCopy_eq]; dsimp only [State.dynamicOk]; split <;> simp [hst]
  | lit v p hst => simp [State.dynamicOk, hst]
  | _ => simp [State.dynamicOk]

/-- A length symbol sets CPLEN and an accepted distance CPDIST in range; a COPY step lowers CPLEN and leaves at 0, while EMITTED only
rises (R233, R237, R264). -/
theorem State.matchOk.stepped {s t : State} (hs : s.matchOk) (h : Stepped s t) : t.matchOk := by
  obtain ⟨hdist, hcopy⟩ := id hs
  cases h with
  | idle => exact hs
  | storedEmpty | eob => exact endBlock_matchOk _
  | storedByte v hst =>
    rw [closeStored_eq]
    split
    · exact endBlock_matchOk _
    · simp [State.matchOk, hst]
  | length c e p _ _ h3 h258 =>
    refine ⟨fun _ => ?_, by simp⟩
    rw [startMatch_cplen, BitVec.toNat_ofNat, Nat.mod_eq_of_lt (by omega)]
    exact ⟨h3, h258⟩
  | distance d e p hst _ h1 h2 hle =>
    obtain ⟨h3, h258⟩ := hdist hst
    refine ⟨by simp, fun _ => ?_⟩
    simp only [BitVec.toNat_ofNat, Config.windowSize]
    rw [Nat.mod_eq_of_lt (by omega)]
    omega
  | copy v hst hne =>
    obtain ⟨h1, h258, hd1, hde, hdw⟩ := hcopy hst
    have hpred : (s.cplen - 1).toNat = s.cplen.toNat - 1 := by bv_omega
    unfold State.closeCopy
    split
    next => simp [State.matchOk]
    next hmore =>
      have hpos : (s.cplen - 1).toNat ≠ 0 := fun h0 => hmore (BitVec.eq_of_toNat_eq h0)
      refine ⟨by simp [hst], fun _ => ?_⟩
      simp only [State.setCplen_cplen, State.setCplen_cpdist, State.setCplen_emitted, State.emit_cpdist, State.emit_emitted]
      omega
  | dynClcl v k p hst => rw [closeClcl_eq]; dsimp only [State.matchOk]; split <;> simp [hst]
  | fill v r p hst => rw [closeLens_eq]; dsimp only [State.matchOk]; split <;> simp [hst]
  | lit v p hst => simp [State.matchOk, hst]
  | _ => simp [State.matchOk]

/-! ### the clauses together -/

theorem State.CoreLegal.stepped {s t : State} (hs : s.CoreLegal) (h : Stepped s t) : t.CoreLegal where
  pos := State.posOk.stepped hs.pos h
  block := State.blockOk.stepped hs.block h
  window := State.windowOk.stepped hs.window h
  error := State.errorOk.stepped hs.error h
  treesLegal := State.treesLegal.stepped hs.treesLegal hs.dynamic h
  treesInPlace := State.treesInPlace.stepped hs.treesInPlace h
  stored := State.storedOk.stepped hs.stored h
  dynamic := State.dynamicOk.stepped hs.dynamic h
  copying := State.matchOk.stepped hs.copying h

/-- The registers that a reset gives are legal for every IN (70_reset_and_hazards.md R310). -/
theorem atReset_coreLegal (input : Memory) {len start : Nat} (h : start ≤ len) :
    (State.atReset input len start).CoreLegal where
  pos := ⟨h, Nat.le_refl _, Nat.mul_le_mul_left 8 h⟩
  block := by simp [State.blockOk, State.atReset]
  window := ⟨rfl, rfl, rfl, fun _ hk => absurd hk (Nat.not_lt_zero _)⟩
  error := by simp [State.errorOk, State.atReset]
  treesLegal := ⟨rfl, rfl, rfl⟩
  treesInPlace := by simp [State.treesInPlace, State.atReset]
  stored := by simp [State.storedOk, State.atReset]
  dynamic := by simp [State.dynamicOk, State.atReset]
  copying := by simp [State.matchOk, State.atReset]

/-- The core's legality does not speak of the front end. -/
theorem State.CoreLegal.withFrontEnd {s : State} (h : s.CoreLegal) (f : FrontEnd) :
    State.CoreLegal { s with frontEnd := f } where
  pos := h.pos
  block := h.block
  window := h.window
  error := h.error
  treesLegal := h.treesLegal
  treesInPlace := h.treesInPlace
  stored := h.stored
  dynamic := h.dynamic
  copying := h.copying

end Sys2Proof.Machine
end

section
/-! SUPPORT. The gzip front end's parse reads exactly the bytes of the header it gives (42_gzip_front_end.md R151 to R158). -/

namespace Sys2Proof

/-- A byte of a wider value. -/
theorem extract_byte_ofNat {w k v m : Nat} (h : v % 2 ^ w / 2 ^ k % 2 ^ 8 = m % 2 ^ 8) :
    (BitVec.ofNat w v).extractLsb' k 8 = BitVec.ofNat 8 m :=
  BitVec.eq_of_toNat_eq (by
    rwa [BitVec.extractLsb'_toNat, BitVec.toNat_ofNat, BitVec.toNat_ofNat, Nat.shiftRight_eq_div_pow])

/-- A header whose bytes stand as the parse reads them, MTIME in two halves (R151). -/
theorem reads_bytes_of_mtime_halves {g : GzipHeader} {low high : Nat} (hg : g.mtime = BitVec.ofNat 32 (low + 65536 * high))
    (hl : low < 65536) (hh : high < 65536) {c c' : Cursor}
    (h : c.Reads (([0x1F] ++ ([0x8B] ++ ([8] ++ ([g.flg] ++ ([BitVec.ofNat 8 low, BitVec.ofNat 8 (low / 256)] ++
      ([BitVec.ofNat 8 high, BitVec.ofNat 8 (high / 256)] ++ ([g.xfl] ++ [g.os]))))))) ++
      (g.extraBytes ++ GzipHeader.stringBytes g.name ++ GzipHeader.stringBytes g.comment ++ g.hcrcBytes)) c') :
    c.Reads g.bytes c' := by
  rw [GzipHeader.bytes, hg, extract_byte_ofNat (m := low) (by omega), extract_byte_ofNat (m := low / 256) (by omega),
    extract_byte_ofNat (m := high) (by omega), extract_byte_ofNat (m := high / 256) (by omega)]
  simpa only [List.cons_append, List.nil_append, List.append_assoc] using h

/-- The optional fields, present as the flags announce them (R156 to R158). -/
theorem gzipFields_reads {flg xfl os : BitVec 8} {mtime : BitVec 32} {c c' : Cursor} {i : Instr} (hp : c.pos ≤ 8 * c.len)
    (h : (withExtra (flg.getLsbD 2) c fun extra c => withString (flg.getLsbD 3) c fun name c =>
      withString (flg.getLsbD 4) c fun comment c => withHcrc (flg.getLsbD 1) c fun hcrc c =>
      .instr (.gzipHdr { flg, mtime, xfl, os, extra, name, comment, hcrc }) c) = .instr i c') :
    ∃ extra name comment hcrc, i = .gzipHdr ⟨flg, mtime, xfl, os, extra, name, comment, hcrc⟩ ∧
      GzipHeader.extraOk ⟨flg, mtime, xfl, os, extra, name, comment, hcrc⟩ = true ∧
      GzipHeader.stringOk (flg.getLsbD 3) name = true ∧ GzipHeader.stringOk (flg.getLsbD 4) comment = true ∧
      GzipHeader.hcrcOk ⟨flg, mtime, xfl, os, extra, name, comment, hcrc⟩ = true ∧
      c.Reads (GzipHeader.extraBytes ⟨flg, mtime, xfl, os, extra, name, comment, hcrc⟩ ++ GzipHeader.stringBytes name ++
        GzipHeader.stringBytes comment ++ GzipHeader.hcrcBytes ⟨flg, mtime, xfl, os, extra, name, comment, hcrc⟩) c' := by
  obtain ⟨extra, c1, h, hextra⟩ := withExtra_instr hp h
  have hp1 : c1.pos ≤ 8 * c1.len := (hextra ⟨flg, mtime, xfl, os, extra, none, none, none⟩ rfl rfl).2.pos_le
  obtain ⟨name, c2, h, hname, rname⟩ := withString_instr hp1 h
  obtain ⟨comment, c3, h, hcomment, rcomment⟩ := withString_instr rname.pos_le h
  obtain ⟨hcrc, c4, h, hhcrc⟩ := withHcrc_instr rcomment.pos_le h
  cases h
  obtain ⟨okExtra, rextra⟩ := hextra ⟨flg, mtime, xfl, os, extra, name, comment, hcrc⟩ rfl rfl
  obtain ⟨okHcrc, rhcrc⟩ := hhcrc ⟨flg, mtime, xfl, os, extra, name, comment, hcrc⟩ rfl rfl
  exact ⟨extra, name, comment, hcrc, rfl, okExtra, hname, hcomment, okHcrc,
    ((rextra.trans rname).trans rcomment).trans rhcrc⟩

/-- A parse gives a well-formed header, and its bytes are those read (R151). -/
theorem decodeGzip_reads {c c' : Cursor} {i : Instr} (h : decodeGzip c = .instr i c') :
    ∃ g : GzipHeader, i = .gzipHdr g ∧ g.wf = true ∧ c.Reads g.bytes c' := by
  unfold decodeGzip at h
  obtain ⟨rid1, h⟩ := withByte_instr h
  obtain ⟨hid1, h⟩ := check_instr h
  obtain ⟨rid2, h⟩ := withByte_instr h
  obtain ⟨hid2, h⟩ := check_instr h
  obtain ⟨rcm, h⟩ := withByte_instr h
  obtain ⟨hcm, h⟩ := check_instr h
  obtain ⟨rflg, h⟩ := withByte_instr h
  obtain ⟨hflg, h⟩ := check_instr h
  obtain ⟨rlow, h⟩ := withBits_instr h
  obtain ⟨rhigh, h⟩ := withBits_instr h
  obtain ⟨rxfl, h⟩ := withByte_instr h
  obtain ⟨hxfl, h⟩ := check_instr h
  obtain ⟨ros, h⟩ := withByte_instr h
  have fixed := (Cursor.reads_byte rid1).trans <| (Cursor.reads_byte rid2).trans <| (Cursor.reads_byte rcm).trans <|
    (Cursor.reads_byte rflg).trans <| (Cursor.reads_word rlow).trans <| (Cursor.reads_word rhigh).trans <|
    (Cursor.reads_byte rxfl).trans (Cursor.reads_byte ros)
  rw [beq_iff_eq.mp hid1, beq_iff_eq.mp hid2, beq_iff_eq.mp hcm] at fixed
  obtain ⟨extra, name, comment, hcrc, rfl, okExtra, okName, okComment, okHcrc, fields⟩ := gzipFields_reads fixed.pos_le h
  refine ⟨_, rfl, ?_, ?_⟩
  · simp only [GzipHeader.wf, GzipHeader.flagsOk, GzipHeader.xflOk, hflg, hxfl, okExtra, okName, okComment, okHcrc,
      Bool.and_self]
  · exact reads_bytes_of_mtime_halves rfl (Cursor.packed_lt _ 16 _) (Cursor.packed_lt _ 16 _) (fixed.trans fields)

end Sys2Proof
end

section
/-! SUPPORT. A legal state has a next step (10_state.md R39): the fetch finds its tree and a known symbol, each meaning finds its
counters in range, and the front end's step either launches or fails. -/

namespace Sys2Proof.Machine

/-! ### the fetch -/

/-- The control states that read a Huffman-coded element hold the tree that decodes it (R30). -/
theorem mode_of_treesInPlace {s : State} (h : s.treesInPlace) : ∃ m, s.mode = .ok m := by
  obtain ⟨hclt, hllt, -⟩ := h
  unfold State.mode
  cases hst : s.st with
  | dynLens =>
    obtain ⟨hsome, -⟩ := hclt (by simp [hst])
    obtain ⟨t, ht⟩ := Option.isSome_iff_exists.mp hsome
    simp [ht]
  | sym =>
    obtain ⟨-, hsome, -⟩ := hllt (by simp [hst])
    obtain ⟨t, ht⟩ := Option.isSome_iff_exists.mp hsome
    simp [ht]
  | dist =>
    obtain ⟨-, -, hsome⟩ := hllt (by simp [hst])
    obtain ⟨t, ht⟩ := Option.isSome_iff_exists.mp hsome
    simp [ht]
  | _ => exact ⟨_, rfl⟩

/-- A legal CLT holds no symbol above 18 (45_dynamic.md R203), and no other format has such a rejection. -/
theorem decode_ne_noSuchSymbol {s : State} {m : Mode} (hm : s.mode = .ok (some m)) (ht : s.treesLegal) (kept : Kept)
    (c : Cursor) : decode m s.cursor ≠ .rejected .noSuchSymbol kept c := by
  obtain ⟨hclt, -⟩ := ht
  intro hd
  have hr : m.rejects .noSuchSymbol kept = true := by
    cases hd ▸ decode_of m s.cursor with
    | rejected _ _ _ hr => exact hr
  rcases mode_cases hm with ⟨-, rfl⟩ | ⟨-, rfl⟩ | ⟨-, rfl⟩ | ⟨-, rfl⟩ | ⟨-, rfl⟩ | ⟨t, -, he, rfl⟩ | ⟨t, -, -, rfl⟩ |
    ⟨t, -, -, rfl⟩
  case inr.inr.inr.inr.inr.inl =>
    simp only [he, treeLegal, Bool.and_eq_true] at hclt
    exact decode_clSymbol_known hclt.2 hd
  all_goals simp [Mode.rejects] at hr

theorem fetch_ne_fault {s : State} {m : Mode} (hm : s.mode = .ok (some m)) (ht : s.treesLegal) (f : Fault) :
    fetch m s ≠ .fault f := by
  unfold fetch
  cases hd : decode m s.cursor with
  | instr i c => simp
  | rejected w kept c =>
    cases w with
    | noSuchSymbol => exact absurd hd (decode_ne_noSuchSymbol hm ht kept c)
    | _ => simp [rejectKind]

/-! ### the meanings -/

theorem permAt_of_le {i : Nat} (h : i ≤ 18) : ∃ k, Rom.permAt i = some k :=
  ⟨_, List.getElem?_eq_getElem (l := Rom.perm) (by simp [Rom.perm]; omega)⟩

theorem lensTotal_le {s : State} (h : s.countsOk) : s.lensTotal ≤ Config.lensEntries := by
  obtain ⟨-, hhlit, -, hhdist, -⟩ := h
  exact Nat.add_le_add hhlit hhdist

/-- A run of code lengths that HLIT + HDIST has room for ends within LENS. -/
theorem fillLens_next {s : State} (h : s.countsOk) (v : BitVec 4) (r : Nat) : ∃ t, fillLens v r s = .next t := by
  have htotal : s.lensTotal ≤ 320 := lensTotal_le h
  rcases fillLens_cases v r s with ⟨-, e⟩ | ⟨_, _, -⟩ | ⟨-, -, e⟩
  · exact ⟨_, e⟩
  · omega
  · exact ⟨_, e⟩

/-- An instruction of the format that a legal state's ST selects completes, wherever its element ended. -/
theorem exec_next {s : State} {m : Mode} {i : Instr} (hs : s.CoreLegal) (hm : s.mode = .ok (some m))
    (ha : m.admits i = true) (p : Nat) : ∃ t, exec i (s.atPos p) = .next t := by
  rcases mode_cases hm with ⟨-, rfl⟩ | ⟨-, rfl⟩ | ⟨hst, rfl⟩ | ⟨-, rfl⟩ | ⟨hst, rfl⟩ | ⟨tr, hst, -, rfl⟩ | ⟨tr, -, -, rfl⟩ |
    ⟨tr, -, -, rfl⟩
  · -- HDR
    cases i <;> simp only [Mode.admits, Bool.false_eq_true] at ha <;> exact ⟨_, rfl⟩
  · -- STORED_HDR
    cases i <;> simp only [Mode.admits, Bool.false_eq_true] at ha
    simp only [exec, execStoredHdr]
    split
    · split <;> exact ⟨_, rfl⟩
    · exact ⟨_, rfl⟩
  · -- STORED_COPY: SREM is not 0
    cases i <;> simp only [Mode.admits, Bool.false_eq_true] at ha
    obtain ⟨hne, -⟩ := hs.stored hst
    exact ⟨_, if_neg hne⟩
  · -- DYN_HDR
    cases i <;> simp only [Mode.admits, Bool.false_eq_true] at ha
    exact ⟨_, rfl⟩
  · -- DYN_CLCL: CI < HCLEN ≤ 19
    cases i <;> simp only [Mode.admits, Bool.false_eq_true] at ha
    obtain ⟨hcounts, hci, -⟩ := hs.dynamic
    obtain ⟨-, -, -, -, -, h19⟩ := hcounts (by simp [hst])
    have hlt := hci hst
    obtain ⟨k, hk⟩ := permAt_of_le (i := s.ci.toNat) (by omega)
    simp [exec, execDynClcl, hk]
  · -- DYN_LENS
    obtain ⟨hcounts, -⟩ := hs.dynamic
    rcases exec_cl_cases (clSymbol_admits ha) (s.atPos p) with ⟨v, r, -, -, e⟩ | ⟨-, -, e⟩
    · rw [e]; exact fillLens_next (s := s.atPos p) (hcounts (by simp [hst])) v r
    · exact ⟨_, e⟩
  · -- SYM
    rcases exec_litLen_cases (litLen_admits ha) with ⟨v, e⟩ | e | ⟨c, x, -, -, e⟩ | e <;> exact ⟨_, e _⟩
  · -- DIST
    rcases exec_dist_cases (dist_admits ha) with ⟨d, x, -, -, e⟩ | e <;> exact ⟨_, e _⟩

/-! ### the steps that read no element -/

theorem stepDynClTree_next (s : State) : ∃ t, stepDynClTree s = .next t := by
  unfold stepDynClTree
  split <;> exact ⟨_, rfl⟩

theorem stepDynTrees_next {s : State} (h : s.countsOk) : ∃ t, stepDynTrees s = .next t := by
  unfold stepDynTrees
  rw [if_neg (Nat.not_lt.mpr (lensTotal_le h))]
  split
  · exact ⟨_, rfl⟩
  · split <;> exact ⟨_, rfl⟩

/-- The byte that a legal COPY step reads has been written (47_window_copy.md R266). -/
theorem stepCopy_next {s : State} (hst : s.st = .copy) (hm : s.matchOk) (hw : s.windowOk) : ∃ t, stepCopy s = .next t := by
  obtain ⟨-, hcopy⟩ := hm
  obtain ⟨hlen, -, h1, hle, hsize⟩ := hcopy hst
  obtain ⟨_, hread⟩ := windowOk_read hw h1 hle hsize
  have hne : s.cplen ≠ 0 := fun h0 => by simp [h0] at hlen
  simp only [stepCopy, if_neg hne, hread]
  exact ⟨_, rfl⟩

theorem coreStep_next {s : State} (hs : s.CoreLegal) : ∃ t, coreStep s = .next t := by
  obtain ⟨m, hm⟩ := mode_of_treesInPlace hs.treesInPlace
  unfold coreStep
  rw [hm]
  cases m with
  | none =>
    change ∃ t, internalStep s = .next t
    obtain ⟨hcounts, -⟩ := hs.dynamic
    unfold internalStep
    split
    next => exact stepDynClTree_next s
    next hst => exact stepDynTrees_next (hcounts (by simp [hst]))
    next hst => exact stepCopy_next hst hs.copying hs.window
    next => exact ⟨_, rfl⟩
  | some m =>
    change ∃ t, runFetched (fetch m s) = .next t
    rcases fetch_cases (mode_ne_gzip hm) with ⟨i, c, -, ha, -, e⟩ | ⟨w, kept, k, p, -, -, -, e⟩ | e
    · rw [e]; exact exec_next hs hm ha c.pos
    · rw [e]; exact ⟨_, rfl⟩
    · exact absurd e (fetch_ne_fault hm hs.treesLegal _)

/-! ### the front end -/

/-- The front end launches the member with a header that fits its array, or fails (42_gzip_front_end.md R151, R160). -/
theorem step_requested_cases {s : State} {input : Memory} {len : Nat} (h : s.frontEnd = .requested input len) :
    (∃ g : GzipHeader, g.size ≤ s.member.len ∧ step s = .next (s.startMember g)) ∨
    (∃ k r p, step s = .next (s.failMember k r p)) := by
  rcases step_of_requested h with ⟨i, c, hd, e⟩ | ⟨w, kept, c, hd, e⟩
  · obtain ⟨g, rfl, -, -, hl, -⟩ := decodeGzip_reads hd
    have hsize : g.size ≤ s.member.len := by
      rw [State.member_of_requested h]
      change g.bytes.length ≤ len
      change 0 + (bytesBits g.bytes).length ≤ 8 * len at hl
      rw [bytesBits_length] at hl
      omega
    exact .inl ⟨g, hsize, e.trans (if_pos hsize)⟩
  · have hr : Mode.gzip.rejects w kept = true := by
      cases hd ▸ decode_of .gzip ⟨input, len, 0⟩ with
      | rejected _ _ _ hr => exact hr
    cases w with
    | noSuchSymbol => simp [Mode.rejects] at hr
    | _ => exact .inr ⟨_, _, _, e⟩

end Sys2Proof.Machine
end

section
/-! SUPPORT. The invariant `Inv` at a launch and over a step, and the statements of 10_state.md that it settles. -/

namespace Sys2Proof.Machine

theorem frontEnd_ne_requested {s : State} (h : s.coreStarted = true) (input : Memory) (len : Nat) :
    s.frontEnd ≠ .requested input len := fun hf => by simp [State.coreStarted, hf] at h

/-- Where the front end is not asked for, its array is the core's IN. -/
theorem inv_of_not_requested {s : State} (hf : ∀ input len, s.frontEnd ≠ .requested input len) (hi : s.inputOk)
    (hc : s.coreStarted = true → s.CoreLegal) : Inv s where
  input := hi
  member := by rw [State.memberOk, State.member_of_not_requested hf]; exact hi
  core := hc

theorem inv_atReset {input : Memory} {len start : Nat} (hwf : Memory.wf Config.inputUnlisted input = true)
    (hb : Memory.below len input = true) (h : start ≤ len) : Inv (State.atReset input len start) :=
  inv_of_not_requested (fun _ _ => by simp [State.atReset]) ⟨hwf, hb⟩ fun _ => atReset_coreLegal input h

theorem inv_hostGzip {s : State} (hs : Inv s) {input : Memory} {len : Nat}
    (hwf : Memory.wf Config.inputUnlisted input = true) (hb : Memory.below len input = true) : Inv (hostGzip s input len) where
  input := hs.input
  member := ⟨hwf, hb⟩
  core := fun h => by simp [State.coreStarted] at h

theorem inv_startMember {s : State} (hm : s.memberOk) {g : GzipHeader} (h : g.size ≤ s.member.len) :
    Inv (s.startMember g) :=
  inv_of_not_requested (fun _ _ => by simp) hm fun _ => (atReset_coreLegal _ h).withFrontEnd _

theorem inv_failMember {s : State} (hi : s.inputOk) (k : ErrKind) (r : Option HeaderReason) (p : Nat) :
    Inv (s.failMember k r p) :=
  inv_of_not_requested (fun _ _ => by simp) hi fun h => by simp [State.coreStarted] at h

theorem Inv.stepped {s t : State} (hs : Inv s) (hc : s.coreStarted = true) (h : Stepped s t) : Inv t := by
  obtain ⟨hin, hlen, -, hf⟩ := h.launch_eq
  refine inv_of_not_requested (hf ▸ frontEnd_ne_requested hc) ?_ fun _ => (hs.core hc).stepped h
  rw [State.inputOk, hin, hlen]
  exact hs.input

theorem Inv.step {s t : State} (hs : Inv s) (h : Machine.step s = .next t) : Inv t := by
  cases hf : s.frontEnd with
  | requested input len =>
    rcases step_requested_cases hf with ⟨g, hsize, e⟩ | ⟨k, r, p, e⟩
    · cases e.symm.trans h
      exact inv_startMember hs.member hsize
    · cases e.symm.trans h
      exact inv_failMember hs.input k r p
  | failed k r p =>
    cases (step_of_failed hf).symm.trans h
    exact hs
  | unused | accepted =>
    have hc : s.coreStarted = true := by simp [State.coreStarted, hf]
    exact hs.stepped hc (step_cases hc h)

theorem Inv.step_next {s : State} (hs : Inv s) : ∃ t, Machine.step s = .next t := by
  cases hf : s.frontEnd with
  | requested input len =>
    rcases step_requested_cases hf with ⟨g, -, e⟩ | ⟨k, r, p, e⟩
    · exact ⟨_, e⟩
    · exact ⟨_, e⟩
  | failed k r p => exact ⟨s, step_of_failed hf⟩
  | unused | accepted =>
    have hc : s.coreStarted = true := by simp [State.coreStarted, hf]
    rw [step_of_started hc]
    exact coreStep_next (hs.core hc)

end Sys2Proof.Machine

namespace Sys2Proof.Certificates

open Sys2Proof.Machine

/-- Settles O52: a step of the core keeps each clause of the invariant (`State.CoreLegal.stepped`), and the front end's step launches a
legal core or stops it. -/
theorem stepKeepsLegality : Obligations.StepKeepsLegality :=
  fun _ _ hs h => hs.step h

/-- Settles O43, from the two things that a step can do with OUT. -/
theorem outputOnlyGrows : Obligations.OutputOnlyGrows := by
  intro s t hc h
  rcases (step_cases hc h).output_cases with ⟨hout, -, hemitted⟩ | ⟨v, hout, -, hemitted⟩
  · exact ⟨[], by simp, by simpa using hout, hemitted⟩
  · exact ⟨[v], by simp, hout, hemitted⟩

/-- Settles O53: each fault and each refusal is excluded by a clause of the invariant. -/
theorem legalStatesNeverStop : Obligations.LegalStatesNeverStop :=
  fun _ hs => hs.step_next

/-- Settles O50, by STATUS. -/
theorem statusInterface : Obligations.StatusInterface := by
  intro s
  refine ⟨fun hst => ?_, fun hst => ?_, fun hdone herror => ?_⟩
  · simp [State.view, State.status, hst]
  · simp [State.view, State.status, hst]
  · have hrun : s.status = .running := by
      unfold State.status
      split
      next hst => exact absurd hst hdone
      next hst => exact absurd hst herror
      next => rfl
    simp [State.view, hrun]

/-- Settles O51: the reset values are legal, and asking for the front end stops the core and writes no register of it. That the reset
state has an empty IN (log 3) and that the request stands in frontEnd (log 4) are the model's choices. -/
theorem launchesAreLegal : Obligations.LaunchesAreLegal :=
  ⟨fun _ _ _ hwf hb hle => inv_atReset hwf hb hle, inv_atReset rfl rfl (Nat.le_refl 0),
    fun _ _ _ hs hwf hb => inv_hostGzip hs hwf hb⟩

end Sys2Proof.Certificates
end

section
/-! SUPPORT. What the bit cursor reads at a byte boundary (20_memory.md R52, 40_bitcursor.md R106). -/

namespace Sys2Proof.Cursor

/-- Bit k of a packed value is stream bit p + k (40_bitcursor.md R102). -/
theorem testBit_packed (c : Cursor) (n p k : Nat) : (c.packed n p).testBit k = (decide (k < n) && c.bit (p + k)) := by
  induction n generalizing p k with
  | zero => simp [packed]
  | succ n ih =>
    cases k with
    | zero => cases hb : c.bit p <;> simp [packed, hb]
    | succ k =>
      have hhalf : c.packed (n + 1) p / 2 = c.packed n (p + 1) := by
        have hb : (c.bit p).toNat ≤ 1 := Bool.toNat_le _
        simp only [packed]
        omega
      rw [Nat.testBit_succ, hhalf, ih, Nat.add_right_comm p 1 k]
      simp [Nat.add_assoc]

/-- The bits after the first m weigh 2 ^ m. -/
theorem packed_add (c : Cursor) (m n p : Nat) : c.packed (m + n) p = c.packed m p + 2 ^ m * c.packed n (p + m) := by
  induction m generalizing p with
  | zero => simp [packed]
  | succ m ih =>
    rw [Nat.add_right_comm m 1 n, packed, packed, ih, Nat.add_assoc p 1 m, Nat.add_comm 1 m, Nat.mul_add, ← Nat.mul_assoc,
      ← Nat.pow_succ', Nat.add_assoc]

/-- The 8 bits from a byte boundary are the byte there. -/
theorem packed_byte (c : Cursor) (i : Nat) : c.packed 8 (8 * i) = (c.inByte i).toNat := by
  refine Nat.eq_of_testBit_eq fun k => ?_
  rw [testBit_packed, BitVec.testBit_toNat]
  rcases Nat.lt_or_ge k 8 with hk | hk
  · have hbyte : (8 * i + k) / 8 = i := by omega
    have hbit : (8 * i + k) % 8 = k := by omega
    simp [bit, hk, hbyte, hbit]
  · simp [Nat.not_lt.mpr hk, BitVec.getLsbD_of_ge _ k hk]

/-- The 16 bits from a byte boundary are two bytes, the low one first. -/
theorem packed_word (c : Cursor) (i : Nat) :
    c.packed 16 (8 * i) = (c.inByte i).toNat + 256 * (c.inByte (i + 1)).toNat := by
  rw [packed_add c 8 8, packed_byte, show 8 * i + 8 = 8 * (i + 1) from rfl, packed_byte, show (2 : Nat) ^ 8 = 256 from rfl]

end Sys2Proof.Cursor
end

section
/-! SUPPORT. The statements of 20_memory.md. -/

namespace Sys2Proof.Certificates

open Sys2Proof.Machine

/-- Settles O7: a field at a byte boundary packs whole bytes (`Cursor.packed_word`, `Cursor.packed_byte`). -/
theorem alignedWordIsLittleEndian : Obligations.AlignedWordIsLittleEndian := by
  intro c i hpos
  refine ⟨fun hlen => ?_, fun hlen => ?_⟩
  · have hbits : 16 ≤ c.remainingBits := by unfold Cursor.remainingBits; omega
    rw [Cursor.nextBits_of_le hbits, hpos, Cursor.packed_word, Cursor.advance, hpos]
  · have hbits : 8 ≤ c.remainingBits := by unfold Cursor.remainingBits; omega
    rw [Cursor.nextByte_of_le hbits, hpos, Cursor.packed_byte, BitVec.ofNat_toNat, BitVec.setWidth_eq, Cursor.advance, hpos]

/-- Settles O48: a started core keeps what a launch has latched (`Stepped.launch_eq`); one that is not started has a front end that
launches the member it was asked for or fails (`step_requested_cases`), or that has failed. That the launch of an accepted member is
a step is the model's choice (log 4). -/
theorem inputIsConstant : Obligations.InputIsConstant := by
  refine ⟨fun s t hc h => (step_cases hc h).launch_eq, fun s t hc h => ?_, fun _ _ _ => rfl⟩
  cases hf : s.frontEnd with
  | requested input len =>
    rcases step_requested_cases hf with ⟨g, -, e⟩ | ⟨k, r, p, e⟩
    · cases e.symm.trans h
      refine .inr ⟨input, len, g, rfl, ?_⟩
      rw [State.startMember, State.member_of_requested hf]
      rfl
    · cases e.symm.trans h
      exact .inl rfl
  | failed k r p =>
    cases (step_of_failed hf).symm.trans h
    exact .inl rfl
  | unused | accepted => simp [State.coreStarted, hf] at hc

end Sys2Proof.Certificates
end

section
/-! SUPPORT. Decoding what the encoder writes: a decoder takes a string of bits part by part (`Takes.append`), and each format's
decoder takes the bits of its elements. -/

namespace Sys2Proof

/-- Wherever the stream holds these bits, the decoder gives the instruction and the cursor just past them. -/
def Takes (d : Cursor → DecodeResult) (bits : List Bool) (i : Instr) : Prop :=
  ∀ c : Cursor, c.Holds bits → d c = .instr i (c.advance bits.length)

namespace Takes

variable {i : Instr} {bits : List Bool}

/-- Nothing is left to read. -/
theorem instr (i : Instr) : Takes (.instr i) [] i := fun _ _ => rfl

/-- The last part of an element, with nothing after it. -/
theorem last {d : Cursor → DecodeResult} (h : Takes d (bits ++ []) i) : Takes d bits i := by
  rwa [List.append_nil] at h

/-- A first part that is read as it stands, then the rest. -/
theorem append {d k : Cursor → DecodeResult} {first : List Bool}
    (hd : ∀ c : Cursor, c.Holds first → d c = k (c.advance first.length)) (hk : Takes k bits i) : Takes d (first ++ bits) i := by
  intro c hc
  obtain ⟨hfirst, hrest⟩ := Cursor.holds_append.mp hc
  rw [hd c hfirst, hk _ hrest, Cursor.advance_advance, List.length_append]

theorem withBits {n v : Nat} {kept : Kept} {k : Nat → Cursor → DecodeResult} (hk : Takes (k (v % 2 ^ n)) bits i) :
    Takes (fun c => withBits n kept c k) (fieldBits n v ++ bits) i :=
  append (fun c hc => by rw [withBits_of_holds hc, Cursor.fieldBits_length]) hk

/-- A field that is an operand of its own width. -/
theorem withOperand {n : Nat} {v : BitVec n} {kept : Kept} {k : Nat → Cursor → DecodeResult} (hk : Takes (k v.toNat) bits i) :
    Takes (fun c => Sys2Proof.withBits n kept c k) (fieldBits n v.toNat ++ bits) i :=
  withBits ((Nat.mod_eq_of_lt v.isLt).symm ▸ hk)

/-- An operand that is the last field of its element. -/
theorem lastOperand {n : Nat} (f : BitVec n → Instr) (v : BitVec n) {kept : Kept} :
    Takes (fun c => Sys2Proof.withBits n kept c fun e c => .instr (f (BitVec.ofNat n e)) c) (fieldBits n v.toNat) (f v) := by
  refine last (withOperand ?_)
  rw [BitVec.ofNat_toNat, BitVec.setWidth_eq]
  exact instr _

theorem withByte {b : Byte} {k : Byte → Cursor → DecodeResult} (hk : Takes (k b) bits i) :
    Takes (fun c => withByte c k) (fieldBits 8 b.toNat ++ bits) i :=
  append (fun c hc => by rw [withByte_of_holds hc, Cursor.fieldBits_length]) hk

theorem withSymbol {t : Tree} {s : Nat} {code : List Bool} {k : Nat → Cursor → DecodeResult}
    (hs : Huffman.codeOf t s = some code) (hk : Takes (k s) bits i) : Takes (fun c => withSymbol t c k) (code ++ bits) i :=
  append (fun _ hc => withSymbol_of_codeOf hs hc) hk

theorem check {ok : Bool} {r : HeaderReason} {k : Cursor → DecodeResult} (hok : ok = true) (hk : Takes k bits i) :
    Takes (fun c => check ok r c (k c)) bits i := by
  subst hok
  exact hk

theorem withExtra {g : GzipHeader} {k : Option (List Byte) → Cursor → DecodeResult} (hok : g.extraOk = true)
    (hk : Takes (k g.extra) bits i) : Takes (fun c => withExtra (g.flg.getLsbD 2) c k) (bytesBits g.extraBytes ++ bits) i :=
  append (fun c hc => by rw [withExtra_of_holds hok hc, bytesBits_length]) hk

theorem withString {flag : Bool} {f : Option (List Byte)} {k : Option (List Byte) → Cursor → DecodeResult}
    (hok : GzipHeader.stringOk flag f = true) (hk : Takes (k f) bits i) :
    Takes (fun c => withString flag c k) (bytesBits (GzipHeader.stringBytes f) ++ bits) i :=
  append (fun c hc => by rw [withString_of_holds hok hc, bytesBits_length]) hk

theorem withHcrc {g : GzipHeader} {k : Option (BitVec 16) → Cursor → DecodeResult} (hok : g.hcrcOk = true)
    (hk : Takes (k g.hcrc) bits i) : Takes (fun c => withHcrc (g.flg.getLsbD 1) c k) (bytesBits g.hcrcBytes ++ bits) i :=
  append (fun c hc => by rw [withHcrc_of_holds hok hc, bytesBits_length]) hk

end Takes

/-! ### block header, stored and dynamic headers -/

theorem decodeHeader_takes (f : Bool) (t : Nat) : Takes decodeHeader (f :: fieldBits 2 t) (headerInstr f (t % 4)) := by
  have hflag : f :: fieldBits 2 t = fieldBits 1 f.toNat ++ fieldBits 2 t := by cases f <;> rfl
  have hread : (f.toNat % 2 ^ 1 == 1) = f := by cases f <;> rfl
  rw [hflag]
  refine .withBits (.last (.withBits ?_))
  rw [hread]
  exact .instr _

/-- The pad bits end at the byte boundary that the decoder goes to (40_bitcursor.md R104). -/
theorem alignToByte_eq_advance_padBits (c : Cursor) : c.alignToByte = c.advance (padBits c.pos).length := by
  rw [Cursor.alignToByte_eq, padBits, List.length_replicate]

/-- The pad bits are skipped, and LEN and NLEN are read from the byte boundary on. -/
theorem decodeStoredHdr_of_holds {len nlen : BitVec 16} {c : Cursor}
    (hc : c.Holds (padBits c.pos ++ (fieldBits 16 len.toNat ++ fieldBits 16 nlen.toNat))) :
    decodeStoredHdr c = .instr (.storedHdr len nlen)
      (c.advance (padBits c.pos ++ (fieldBits 16 len.toNat ++ fieldBits 16 nlen.toNat)).length) := by
  obtain ⟨-, hfields⟩ := Cursor.holds_append.mp hc
  have htake : Takes (fun c => withBits 16 .nothing c fun len c => withBits 16 .nothing c fun nlen c =>
      .instr (.storedHdr (BitVec.ofNat 16 len) (BitVec.ofNat 16 nlen)) c) (fieldBits 16 len.toNat ++ fieldBits 16 nlen.toNat)
      (.storedHdr len nlen) := by
    refine .withOperand ?_
    simp only [BitVec.ofNat_toNat, BitVec.setWidth_eq]
    exact .lastOperand (.storedHdr len) nlen
  rw [List.length_append, ← Cursor.advance_advance, ← htake _ hfields, ← alignToByte_eq_advance_padBits]
  rfl

theorem decodeStoredByte_takes (v : Byte) : Takes decodeStoredByte (fieldBits 8 v.toNat) (.storedByte v) :=
  .last (.withByte (.instr _))

theorem decodeDynHdr_takes (hlit hdist : BitVec 5) (hclen : BitVec 4) :
    Takes decodeDynHdr (fieldBits 5 hlit.toNat ++ (fieldBits 5 hdist.toNat ++ fieldBits 4 hclen.toNat))
      (.dynHdr hlit hdist hclen) := by
  refine .withOperand (.withOperand ?_)
  simp only [BitVec.ofNat_toNat, BitVec.setWidth_eq]
  exact .lastOperand (.dynHdr hlit hdist) hclen

theorem decodeDynClcl_takes (len : BitVec 3) : Takes decodeDynClcl (fieldBits 3 len.toNat) (.dynClcl len) :=
  .lastOperand .dynClcl len

/-! ### Huffman-coded elements -/

/-- A literal/length element is a literal, the end of the block, a reserved symbol, or the length element of its symbol with its extra
bits (30_encoding.md R79, R84). -/
theorem litLenCoded_cases {i : Instr} {x : Coded} (hx : i.litLenCoded = some x) (hi : i.wf = true) :
    (∃ v : Byte, i = .lit v ∧ x = ⟨v.toNat, 0, 0⟩) ∨ (i = .eob ∧ x = ⟨256, 0, 0⟩) ∨
    (∃ s, i = .lenReserved s ∧ x = ⟨s, 0, 0⟩ ∧ (s = 286 ∨ s = 287)) ∨
    (257 ≤ x.symbol ∧ x.symbol ≤ 285 ∧ x.width = Rom.lengthExtra x.symbol ∧ x.extra < 2 ^ x.width ∧
      i = lengthInstr x.symbol x.extra) := by
  cases i with
  | lit v =>
    cases hx
    exact .inl ⟨v, rfl, rfl⟩
  | eob =>
    cases hx
    exact .inr (.inl ⟨rfl, rfl⟩)
  | lenReserved s =>
    cases hx
    exact .inr (.inr (.inl ⟨s, rfl, rfl, by simpa [Instr.wf] using hi⟩))
  | _ =>
    cases hx <;>
      exact .inr (.inr (.inr ⟨by dsimp only; omega, by dsimp only; omega, by dsimp only; rfl, by dsimp only; omega,
        by simp only [lengthInstr, BitVec.ofNat_toNat, BitVec.setWidth_eq]⟩))

/-- A distance element is a reserved symbol, or the distance element of its symbol with its extra bits (R80, R85). -/
theorem distCoded_cases {i : Instr} {x : Coded} (hx : i.distCoded = some x) (hi : i.wf = true) :
    (∃ d, i = .distReserved d ∧ x = ⟨d, 0, 0⟩ ∧ (d = 30 ∨ d = 31)) ∨
    (x.symbol ≤ 29 ∧ x.width = Rom.distanceExtra x.symbol ∧ x.extra < 2 ^ x.width ∧ i = distanceInstr x.symbol x.extra) := by
  cases i with
  | distReserved d =>
    cases hx
    exact .inl ⟨d, rfl, rfl, by simpa [Instr.wf] using hi⟩
  | _ =>
    cases hx <;>
      exact .inr ⟨by dsimp only; omega, by dsimp only; rfl, by dsimp only; omega,
        by simp only [distanceInstr, BitVec.ofNat_toNat, BitVec.setWidth_eq]⟩

theorem decodeClSymbol_takes {t : Tree} {noneYet : Bool} {i : Instr} {x : Coded} (hx : i.clCoded = some x)
    (hyet : (noneYet && x.symbol == 16) = false) {code : List Bool} (hcode : Huffman.codeOf t x.symbol = some code) :
    Takes (decodeClSymbol t noneYet) (code ++ fieldBits x.width x.extra) i := by
  refine .withSymbol hcode ?_
  cases i with
  | clLen len =>
    cases hx
    simp only [if_pos (Nat.le_of_lt_succ len.isLt), BitVec.ofNat_toNat, BitVec.setWidth_eq]
    exact .instr _
  | clRepPrev e =>
    cases hx
    obtain rfl : noneYet = false := by simpa using hyet
    exact .lastOperand .clRepPrev e
  | clRepZero3 e =>
    cases hx
    exact .lastOperand .clRepZero3 e
  | clRepZero11 e =>
    cases hx
    exact .lastOperand .clRepZero11 e
  | _ => cases hx

theorem decodeLitLen_takes {t : Tree} {i : Instr} {x : Coded} (hx : i.litLenCoded = some x) (hi : i.wf = true)
    {code : List Bool} (hcode : Huffman.codeOf t x.symbol = some code) :
    Takes (decodeLitLen t) (code ++ fieldBits x.width x.extra) i := by
  refine .withSymbol hcode ?_
  rcases litLenCoded_cases hx hi with ⟨v, rfl, rfl⟩ | ⟨rfl, rfl⟩ | ⟨s, rfl, rfl, hs⟩ | ⟨hlow, hhigh, hwidth, hextra, rfl⟩
  · simp only [if_pos (Nat.le_of_lt_succ v.isLt), BitVec.ofNat_toNat, BitVec.setWidth_eq]
    exact .instr _
  · exact .instr _
  · simp only [if_neg (show ¬s ≤ 255 by omega), if_neg (show s ≠ 256 by omega), if_neg (show ¬s ≤ 285 by omega)]
    exact .instr _
  · simp only [if_neg (show ¬x.symbol ≤ 255 by omega), if_neg (show x.symbol ≠ 256 by omega), if_pos hhigh, ← hwidth]
    refine .last (.withBits ?_)
    rw [Nat.mod_eq_of_lt hextra]
    exact .instr _

theorem decodeDist_takes {t : Tree} {i : Instr} {x : Coded} (hx : i.distCoded = some x) (hi : i.wf = true)
    {code : List Bool} (hcode : Huffman.codeOf t x.symbol = some code) :
    Takes (decodeDist t) (code ++ fieldBits x.width x.extra) i := by
  refine .withSymbol hcode ?_
  rcases distCoded_cases hx hi with ⟨d, rfl, rfl, hd⟩ | ⟨hle, hwidth, hextra, rfl⟩
  · simp only [if_pos (show 30 ≤ d by omega)]
    exact .instr _
  · simp only [if_neg (show ¬30 ≤ x.symbol by omega), ← hwidth]
    refine .last (.withBits ?_)
    rw [Nat.mod_eq_of_lt hextra]
    exact .instr _

/-! ### the gzip member header -/

/-- A header's bits, part by part as the parse reads them: MTIME is two 16-bit fields (42_gzip_front_end.md R151). -/
theorem bytesBits_header (g : GzipHeader) : bytesBits g.bytes =
    fieldBits 8 (0x1F#8).toNat ++ (fieldBits 8 (0x8B#8).toNat ++ (fieldBits 8 (8#8).toNat ++ (fieldBits 8 g.flg.toNat ++
    (fieldBits 16 g.mtime.toNat ++ (fieldBits 16 (g.mtime.toNat / 65536) ++ (fieldBits 8 g.xfl.toNat ++ (fieldBits 8 g.os.toNat ++
    (bytesBits g.extraBytes ++ (bytesBits (GzipHeader.stringBytes g.name) ++ (bytesBits (GzipHeader.stringBytes g.comment) ++
    bytesBits g.hcrcBytes)))))))))) := by
  have hbytes : g.bytes = [0x1F#8, 0x8B#8, 8#8, g.flg] ++
      [g.mtime.extractLsb' 0 8, g.mtime.extractLsb' 8 8, g.mtime.extractLsb' 16 8, g.mtime.extractLsb' 24 8] ++ [g.xfl, g.os] ++
      (g.extraBytes ++ (GzipHeader.stringBytes g.name ++ (GzipHeader.stringBytes g.comment ++ g.hcrcBytes))) := by
    simp only [GzipHeader.bytes, List.append_assoc, List.cons_append, List.nil_append]
    rfl
  rw [hbytes]
  simp only [bytesBits_append, fieldBits_four_bytes, List.append_assoc]
  simp only [bytesBits_cons, List.append_assoc]
  rfl

theorem decodeGzip_takes {g : GzipHeader} (hg : g.wf = true) : Takes decodeGzip (bytesBits g.bytes) (.gzipHdr g) := by
  simp only [GzipHeader.wf, Bool.and_eq_true] at hg
  obtain ⟨⟨⟨⟨⟨hflags, hxfl⟩, hextra⟩, hname⟩, hcomment⟩, hhcrc⟩ := hg
  have hmtime : BitVec.ofNat 32 (g.mtime.toNat % 2 ^ 16 + 65536 * (g.mtime.toNat / 65536 % 2 ^ 16)) = g.mtime :=
    BitVec.eq_of_toNat_eq (by simp only [BitVec.toNat_ofNat]; omega)
  rw [bytesBits_header]
  refine .withByte <| .check rfl <| .withByte <| .check rfl <| .withByte <| .check rfl <| .withByte <| .check hflags <|
    .withBits <| .withBits <| .withByte <| .check hxfl <| .withByte <| .withExtra hextra <| .withString hname <|
    .withString hcomment <| .last <| .withHcrc hhcrc ?_
  rw [hmtime]
  exact .instr _

end Sys2Proof
end

section
/-! SUPPORT. The fixed trees (30_encoding.md R86): each symbol's code, and that no node is missing. -/

namespace Sys2Proof

/-- No node is missing: every Internal node has both children (10_state.md R29). -/
def Tree.full : Tree → Bool
  | .absent => false
  | .leaf _ => true
  | .internal z o => z.full && o.full

namespace Huffman

theorem codePath_length (c l : Nat) : (codePath c l).length = l := by
  induction l with
  | zero => rfl
  | succ l ih => simp [codePath, ih]

theorem fixedLitLenCode_length (s : Nat) :
    (fixedLitLenCode s).length = if s < 144 then 8 else if s < 256 then 9 else if s < 280 then 7 else 8 := by
  simp only [fixedLitLenCode, apply_ite List.length, codePath_length]

/-- FLT's leaves are where the code table of R86 puts them. -/
theorem codeOf_fixedLitLen : ∀ s < 288, codeOf fixedLitLen s = some (fixedLitLenCode s) := by decide +kernel

/-- FDT's leaf of d is at d in 5 bits. -/
theorem codeOf_fixedDist : ∀ d < 32, codeOf fixedDist d = some (codePath d 5) := by decide +kernel

theorem arrive_ne_incomplete {t : Tree} (h : t.full = true) (c c' : Cursor) : arrive t c ≠ .incomplete c' := by
  induction t generalizing c with
  | absent => cases h
  | leaf s => exact fun he => by cases he
  | internal z o ihz iho =>
    simp only [Tree.full, Bool.and_eq_true] at h
    obtain ⟨hz, ho⟩ := h
    rcases c.nextBit_cases with ⟨-, e⟩ | ⟨-, e⟩
    · simp [arrive, e]
    · simp only [arrive, e]
      split
      · exact iho ho _
      · exact ihz hz _

theorem decode_internal (z o : Tree) (c : Cursor) : decode (.internal z o) c = arrive (.internal z o) c := by
  rcases c.nextBit_cases with ⟨-, e⟩ | ⟨-, e⟩
  · simp only [decode, arrive, e]
  · cases hb : c.bit c.pos <;> simp [decode, arrive, e, hb, Tree.child]

/-- No read under a tree without a missing node is IncompleteTree. -/
theorem decode_ne_incomplete {t : Tree} (hr : t.rooted = true) (h : t.full = true) (c c' : Cursor) :
    decode t c ≠ .incomplete c' := by
  cases t with
  | internal z o =>
    rw [decode_internal]
    exact arrive_ne_incomplete h c c'
  | absent | leaf => cases hr

theorem full_complete (d s : Nat) : (complete d s).full = true := by
  induction d generalizing s with
  | zero => rfl
  | succ d ih => simp [complete, Tree.full, ih]

theorem full_fixedLitLen : fixedLitLen.full = true := by
  simp [fixedLitLen, Tree.full, full_complete]

end Huffman

end Sys2Proof
end

section
/-! SUPPORT. The encoder: what it gives for each format decodes to the instruction, and every well-formed instruction has an encoding. -/

namespace Sys2Proof

theorem Coded.bits_of_codeOf {t : Tree} {x : Coded} {code : List Bool} (h : Huffman.codeOf t x.symbol = some code) :
    x.bits t = some (code ++ fieldBits x.width x.extra) := by
  rw [Coded.bits, h, Option.map_some]

theorem Coded.bits_eq_some {t : Tree} {x : Coded} {bits : List Bool} (h : x.bits t = some bits) :
    ∃ code, Huffman.codeOf t x.symbol = some code ∧ bits = code ++ fieldBits x.width x.extra := by
  obtain ⟨code, hcode, rfl⟩ := Option.map_eq_some_iff.mp h
  exact ⟨code, hcode, rfl⟩

/-- What the encoder gives for a code-length element: symbol 16 has no encoding before the first length (30_encoding.md R87). -/
theorem encode_clSymbol_eq_some {t : Tree} {noneYet : Bool} {p : Nat} {i : Instr} {bits : List Bool}
    (h : encode (.clSymbol t noneYet) p i = some bits) :
    ∃ x, i.clCoded = some x ∧ (noneYet && x.symbol == 16) = false ∧ x.bits t = some bits := by
  simp only [encode] at h
  split at h
  · rename_i x hx
    split at h
    · cases h
    · rename_i hyet
      exact ⟨x, hx, Bool.eq_false_iff.mpr hyet, h⟩
  · cases h

theorem encode_litLen_eq_some {t : Tree} {p : Nat} {i : Instr} {bits : List Bool} (h : encode (.litLen t) p i = some bits) :
    ∃ x, i.litLenCoded = some x ∧ x.bits t = some bits :=
  Option.bind_eq_some_iff.mp h

theorem encode_dist_eq_some {t : Tree} {p : Nat} {i : Instr} {bits : List Bool} (h : encode (.dist t) p i = some bits) :
    ∃ x, i.distCoded = some x ∧ x.bits t = some bits :=
  Option.bind_eq_some_iff.mp h

/-- The round trip, one format after the other. -/
theorem decode_of_encode {m : Mode} {i : Instr} {c : Cursor} {bits : List Bool} (hi : i.wf = true)
    (h : encode m c.pos i = some bits) (hc : c.Holds bits) : decode m c = .instr i (c.advance bits.length) := by
  cases m with
  | header =>
    cases i with
    | blkStored f => cases h; exact decodeHeader_takes f 0 c hc
    | blkFixed f => cases h; exact decodeHeader_takes f 1 c hc
    | blkDynamic f => cases h; exact decodeHeader_takes f 2 c hc
    | blkReserved f => cases h; exact decodeHeader_takes f 3 c hc
    | _ => cases h
  | storedHdr =>
    cases i with
    | storedHdr len nlen =>
      simp only [encode, List.append_assoc, Option.some.injEq] at h
      subst h
      exact decodeStoredHdr_of_holds hc
    | _ => cases h
  | storedByte =>
    cases i with
    | storedByte v => cases h; exact decodeStoredByte_takes v c hc
    | _ => cases h
  | dynHdr =>
    cases i with
    | dynHdr hlit hdist hclen =>
      simp only [encode, List.append_assoc, Option.some.injEq] at h
      subst h
      exact decodeDynHdr_takes hlit hdist hclen c hc
    | _ => cases h
  | dynClcl =>
    cases i with
    | dynClcl len => cases h; exact decodeDynClcl_takes len c hc
    | _ => cases h
  | clSymbol t noneYet =>
    obtain ⟨x, hx, hyet, hbits⟩ := encode_clSymbol_eq_some h
    obtain ⟨code, hcode, rfl⟩ := Coded.bits_eq_some hbits
    exact decodeClSymbol_takes hx hyet hcode c hc
  | litLen t =>
    obtain ⟨x, hx, hbits⟩ := encode_litLen_eq_some h
    obtain ⟨code, hcode, rfl⟩ := Coded.bits_eq_some hbits
    exact decodeLitLen_takes hx hi hcode c hc
  | dist t =>
    obtain ⟨x, hx, hbits⟩ := encode_dist_eq_some h
    obtain ⟨code, hcode, rfl⟩ := Coded.bits_eq_some hbits
    exact decodeDist_takes hx hi hcode c hc
  | gzip =>
    cases i with
    | gzipHdr g => cases h; exact decodeGzip_takes hi c hc
    | _ => cases h

/-! ### every instruction has an encoding -/

/-- FLT has a code for every literal/length element, reserved symbols included. -/
theorem exists_litLen_bits {i : Instr} {x : Coded} (hx : i.litLenCoded = some x) (hi : i.wf = true) :
    ∃ bits, x.bits Huffman.fixedLitLen = some bits := by
  have hs : x.symbol < 288 := by
    rcases litLenCoded_cases hx hi with ⟨v, -, rfl⟩ | ⟨-, rfl⟩ | ⟨s, -, rfl, hs⟩ | ⟨-, hle, -⟩
    · exact Nat.lt_trans v.isLt (by decide)
    · decide
    · dsimp only
      omega
    · omega
  exact ⟨_, Coded.bits_of_codeOf (Huffman.codeOf_fixedLitLen _ hs)⟩

/-- FDT has a code for every distance element, reserved symbols included. -/
theorem exists_dist_bits {i : Instr} {x : Coded} (hx : i.distCoded = some x) (hi : i.wf = true) :
    ∃ bits, x.bits Huffman.fixedDist = some bits := by
  have hs : x.symbol < 32 := by
    rcases distCoded_cases hx hi with ⟨d, -, rfl, hd⟩ | ⟨hle, -⟩
    · dsimp only
      omega
    · omega
  exact ⟨_, Coded.bits_of_codeOf (Huffman.codeOf_fixedDist _ hs)⟩

/-- Every code-length element has a code under a tree of all the 5-bit codes. -/
theorem exists_cl_bits {i : Instr} {x : Coded} (hx : i.clCoded = some x) : ∃ bits, x.bits Huffman.fixedDist = some bits := by
  have hs : x.symbol < 32 := by
    cases i with
    | clLen len => cases hx; exact Nat.lt_trans len.isLt (by decide)
    | clRepPrev | clRepZero3 | clRepZero11 => cases hx; dsimp only; omega
    | _ => cases hx
  exact ⟨_, Coded.bits_of_codeOf (Huffman.codeOf_fixedDist _ hs)⟩

/-- An instruction that is no Huffman-coded element has a format of its own. -/
theorem exists_encode_of_not_coded {i : Instr} (hcl : i.clCoded = none) (hlit : i.litLenCoded = none)
    (hdist : i.distCoded = none) : ∃ m, ∀ p, ∃ bits, encode m p i = some bits := by
  cases i with
  | blkStored | blkFixed | blkDynamic | blkReserved => exact ⟨.header, fun _ => ⟨_, rfl⟩⟩
  | storedHdr => exact ⟨.storedHdr, fun _ => ⟨_, rfl⟩⟩
  | storedByte => exact ⟨.storedByte, fun _ => ⟨_, rfl⟩⟩
  | dynHdr => exact ⟨.dynHdr, fun _ => ⟨_, rfl⟩⟩
  | dynClcl => exact ⟨.dynClcl, fun _ => ⟨_, rfl⟩⟩
  | gzipHdr => exact ⟨.gzip, fun _ => ⟨_, rfl⟩⟩
  | clLen | clRepPrev | clRepZero3 | clRepZero11 => cases hcl
  | _ => simp only [Instr.litLenCoded, Instr.distCoded, reduceCtorEq] at hlit hdist

end Sys2Proof
end

section
/-! SUPPORT. The base tables of the ROM (30_encoding.md R83 to R85), read from the first code of each rule on. -/

namespace Sys2Proof.Rom

theorem lengthBase_succ {c : Nat} (hlow : 257 ≤ c) (hhigh : c < 284) : lengthBase (c + 1) = lengthBase c + 2 ^ lengthExtra c := by
  have key : ∀ k < 27, lengthBase (257 + k + 1) = lengthBase (257 + k) + 2 ^ lengthExtra (257 + k) := by decide
  obtain ⟨k, rfl⟩ := Nat.exists_eq_add_of_le hlow
  exact key k (by omega)

theorem lengthExtra_eq {c : Nat} (hlow : 265 ≤ c) (hhigh : c ≤ 284) : lengthExtra c = 1 + (c - 265) / 4 := by
  have key : ∀ k < 20, lengthExtra (265 + k) = 1 + (265 + k - 265) / 4 := by decide
  obtain ⟨k, rfl⟩ := Nat.exists_eq_add_of_le hlow
  exact key k (by omega)

theorem distanceBase_succ : ∀ d < 29, distanceBase (d + 1) = distanceBase d + 2 ^ distanceExtra d := by decide

theorem distanceExtra_eq {d : Nat} (hlow : 4 ≤ d) (hhigh : d ≤ 29) : distanceExtra d = 1 + (d - 4) / 2 := by
  have key : ∀ k < 26, distanceExtra (4 + k) = 1 + (4 + k - 4) / 2 := by decide
  obtain ⟨k, rfl⟩ := Nat.exists_eq_add_of_le hlow
  exact key k (by omega)

end Sys2Proof.Rom
end

section
/-! SUPPORT. The statements of 30_encoding.md. -/

namespace Sys2Proof.Certificates

/-- Settles O2: each format's decoder takes the bits that the encoder gives its elements (`decode_of_encode`). -/
theorem decodeOfEncodeIsTheInstruction : Obligations.DecodeOfEncodeIsTheInstruction :=
  fun _ _ _ _ hi h hc => decode_of_encode hi h hc

/-- Settles O3: the fixed trees have a code for every Huffman-coded element, and each other instruction has a format of its own. -/
theorem everyInstructionHasAnEncoding : Obligations.EveryInstructionHasAnEncoding := by
  intro i hi
  cases hlit : i.litLenCoded with
  | some x =>
    obtain ⟨bits, hbits⟩ := exists_litLen_bits hlit hi
    exact ⟨.litLen Huffman.fixedLitLen, fun _ => ⟨bits, Option.bind_eq_some_iff.mpr ⟨x, hlit, hbits⟩⟩⟩
  | none =>
    cases hdist : i.distCoded with
    | some x =>
      obtain ⟨bits, hbits⟩ := exists_dist_bits hdist hi
      exact ⟨.dist Huffman.fixedDist, fun _ => ⟨bits, Option.bind_eq_some_iff.mpr ⟨x, hdist, hbits⟩⟩⟩
    | none =>
      cases hcl : i.clCoded with
      | some x =>
        obtain ⟨bits, hbits⟩ := exists_cl_bits hcl
        exact ⟨.clSymbol Huffman.fixedDist false, fun _ => ⟨bits, by simpa [encode, hcl] using hbits⟩⟩
      | none => exact exists_encode_of_not_coded hcl hlit hdist

open Huffman in
/-- Settles O14: a symbol's code leads to its leaf (`codeOf_fixedLitLen`, `codeOf_fixedDist`), and neither tree has a missing node. -/
theorem fixedCodeTable : Obligations.FixedCodeTable := by
  refine ⟨fun s c hs hc => ?_, fun d c hd hc => ?_, fun c c' => ⟨?_, ?_⟩⟩
  · have hcode : c.Holds (fixedLitLenCode s) := by simpa only [fixedLitLenCode, Nat.lt_succ_iff] using hc
    rw [decode_of_codeOf (codeOf_fixedLitLen s hs) hcode, fixedLitLenCode_length]
    simp only [Nat.lt_succ_iff]
  · rw [decode_of_codeOf (codeOf_fixedDist d hd) hc, codePath_length]
  · exact decode_ne_incomplete rfl full_fixedLitLen c c'
  · exact decode_ne_incomplete rfl (full_complete 5 0) c c'

/-- Settles O1: the decoder is run on each word. -/
theorem specWordsDecode : Obligations.SpecWordsDecode :=
  ⟨rfl, rfl, rfl, rfl, rfl, rfl, rfl, rfl⟩

/-- Settles O15: each rule is read off the ROM's tables at the codes it speaks of, and the endpoints are entries of the tables. -/
theorem basesAreContiguous : Obligations.BasesAreContiguous :=
  ⟨rfl, fun _ => Rom.lengthBase_succ, rfl, rfl, rfl, Rom.distanceBase_succ, rfl, fun _ => Rom.lengthExtra_eq,
    fun _ => Rom.distanceExtra_eq⟩

end Sys2Proof.Certificates
end

section
/-! SUPPORT. The statements of 40_bitcursor.md. -/

namespace Sys2Proof.Certificates

open Sys2Proof.Machine

/-- Settles O6: a read packs the n bits at POS (`Cursor.testBit_packed`) or answers none. -/
theorem nextBitsPacksLowBitFirst : Obligations.NextBitsPacksLowBitFirst := by
  intro c n
  refine ⟨fun hshort => Cursor.nextBits_of_lt hshort, fun henough => ?_⟩
  refine ⟨_, Cursor.nextBits_of_le henough, c.packed_lt n c.pos, fun k hk => ?_⟩
  rw [Cursor.testBit_packed, decide_eq_true hk, Bool.true_and, Cursor.bit]

/-- Settles O47: a step of the core keeps N and S (`Stepped.launch_eq`) and moves POS forward within IN (`Stepped.pos_bounds`). -/
theorem positionOnlyAdvances : Obligations.PositionOnlyAdvances := by
  intro s t hc hlow hhigh h
  have hstep := step_cases hc h
  obtain ⟨-, hlen, hstart, -⟩ := hstep.launch_eq
  obtain ⟨hadvance, hend⟩ := hstep.pos_bounds hhigh
  rw [hlen, hstart]
  exact ⟨hadvance, Nat.le_trans hlow hadvance, hend⟩

/-- Settles O8: alignToByte advances POS by what is left of a byte that has been begun (`Cursor.alignToByte_eq`). -/
theorem alignMovesToTheNextByte : Obligations.AlignMovesToTheNextByte := by
  intro c
  rw [Cursor.alignToByte_eq]
  refine ⟨rfl, ?_⟩
  rw [Cursor.advance_pos]
  omega

end Sys2Proof.Certificates
end

section
/-! SUPPORT. Insertion into the Huffman tree (41_huffman.md R125, R126): its three outcomes, read off the node at the path, and what it
leaves unchanged. -/

namespace Sys2Proof

namespace Tree

@[simp] theorem child_absent (b : Bool) : absent.child b = absent := rfl

@[simp] theorem child_leaf (x : Nat) (b : Bool) : (leaf x).child b = absent := rfl

@[simp] theorem nodeAt_nil (t : Tree) : t.nodeAt [] = t := rfl

@[simp] theorem nodeAt_cons (t : Tree) (b : Bool) (p : List Bool) : t.nodeAt (b :: p) = (t.child b).nodeAt p := rfl

@[simp] theorem nodeAt_absent (p : List Bool) : absent.nodeAt p = absent := by
  induction p with
  | nil => rfl
  | cons b p ih => simp [ih]

theorem nodeAt_append (t : Tree) (p q : List Bool) : t.nodeAt (p ++ q) = (t.nodeAt p).nodeAt q := by
  induction p generalizing t with
  | nil => rfl
  | cons b p ih => simp [ih]

/-- Below a node that is no leaf, a leaf above a path's end stands above the end of the path's rest. -/
theorem exists_leaf_above_cons {t : Tree} (h : ∀ x, t ≠ leaf x) (b : Bool) (p : List Bool) :
    (∃ k x, k < (b :: p).length ∧ t.nodeAt ((b :: p).take k) = leaf x) ↔
      ∃ k x, k < p.length ∧ (t.child b).nodeAt (p.take k) = leaf x := by
  rw [← Nat.or_exists_add_one]
  simp [h]

end Tree

namespace Huffman

@[simp] theorem insert_nil_absent (s : Nat) : insert s [] .absent = .ok (.leaf s) := rfl

@[simp] theorem insert_nil_leaf (s x : Nat) : insert s [] (.leaf x) = .error .duplicateCode := rfl

@[simp] theorem insert_nil_internal (s : Nat) (z o : Tree) : insert s [] (.internal z o) = .error .invalidTreeShape := rfl

@[simp] theorem insert_cons_leaf (s x : Nat) (b : Bool) (p : List Bool) :
    insert s (b :: p) (.leaf x) = .error .invalidTreeShape := rfl

/-- Child b takes the new leaf; the other child stays. -/
theorem insert_cons {t : Tree} (h : ∀ x, t ≠ .leaf x) (s : Nat) (b : Bool) (p : List Bool) :
    insert s (b :: p) t = (insert s p (t.child b)).map
      (fun sub => if b then .internal (t.child false) sub else .internal sub (t.child true)) := by
  cases t with
  | leaf x => exact absurd rfl (h x)
  | absent | internal =>
    simp only [insert]
    cases insert s p (Tree.child _ b) <;> rfl

theorem insert_cons_eq_error {t : Tree} (h : ∀ x, t ≠ .leaf x) {s : Nat} {b : Bool} {p : List Bool} {e : BuildError} :
    insert s (b :: p) t = .error e ↔ insert s p (t.child b) = .error e := by
  rw [insert_cons h]
  cases insert s p (t.child b) <;> simp [Except.map]

/-- An insertion below a node goes into the child that the path selects, and leaves the other child. -/
theorem insert_cons_ok {s : Nat} {b : Bool} {p : List Bool} {t t' : Tree} (h : insert s (b :: p) t = .ok t') :
    (∀ x, t ≠ .leaf x) ∧ insert s p (t.child b) = .ok (t'.child b) ∧ t'.child (!b) = t.child (!b) ∧ t'.rooted = true := by
  have hleaf : ∀ x, t ≠ .leaf x := by
    rintro x rfl
    cases h
  rw [insert_cons hleaf] at h
  cases hsub : insert s p (t.child b) with
  | error e => rw [hsub] at h; cases h
  | ok sub =>
    rw [hsub] at h
    cases h
    cases b <;> exact ⟨hleaf, rfl, rfl, rfl⟩

theorem ne_leaf_of_rooted {t : Tree} (h : t.rooted = true) (x : Nat) : t ≠ .leaf x := by
  rintro rfl
  cases h

/-- DuplicateCode says that a leaf stands at the path (R125). -/
theorem insert_eq_duplicateCode {s : Nat} {p : List Bool} {t : Tree} :
    insert s p t = .error .duplicateCode ↔ ∃ x, t.nodeAt p = .leaf x := by
  induction p generalizing t with
  | nil => cases t <;> simp
  | cons b p ih =>
    cases t with
    | leaf x => simp
    | absent | internal => rw [insert_cons_eq_error (by simp), ih, Tree.nodeAt_cons]

/-- InvalidTreeShape says that a leaf stands above the path's end, or an Internal node at it (R126). -/
theorem insert_eq_invalidTreeShape {s : Nat} {p : List Bool} {t : Tree} :
    insert s p t = .error .invalidTreeShape ↔
      (∃ k x, k < p.length ∧ t.nodeAt (p.take k) = .leaf x) ∨ ∃ z o, t.nodeAt p = .internal z o := by
  induction p generalizing t with
  | nil => cases t <;> simp
  | cons b p ih =>
    cases t with
    | leaf x =>
      simp only [insert_cons_leaf, true_iff]
      exact .inl ⟨0, x, Nat.succ_pos _, rfl⟩
    | absent | internal =>
      rw [insert_cons_eq_error (by simp), ih, Tree.exists_leaf_above_cons (by simp), Tree.nodeAt_cons]

theorem nodeAt_insert_self {s : Nat} {p : List Bool} {t t' : Tree} (h : insert s p t = .ok t') : t'.nodeAt p = .leaf s := by
  induction p generalizing t t' with
  | nil =>
    cases t with
    | absent => cases h; rfl
    | leaf | internal => cases h
  | cons b p ih =>
    obtain ⟨-, hsub, -⟩ := insert_cons_ok h
    exact ih hsub

/-- Every node above the new leaf is Internal. -/
theorem nodeAt_insert_take {s : Nat} {p : List Bool} {t t' : Tree} (h : insert s p t = .ok t') {k : Nat} (hk : k < p.length) :
    ∃ z o, t'.nodeAt (p.take k) = .internal z o := by
  induction p generalizing t t' k with
  | nil => cases hk
  | cons b p ih =>
    obtain ⟨-, hsub, -, hroot⟩ := insert_cons_ok h
    cases k with
    | zero => cases t' <;> simp_all [Tree.rooted]
    | succ k => exact ih hsub (Nat.lt_of_succ_lt_succ hk)

/-- Insertion neither adds nor removes another leaf. -/
theorem nodeAt_insert_ne {s x : Nat} {p q : List Bool} {t t' : Tree} (h : insert s p t = .ok t') (hq : q ≠ p) :
    t'.nodeAt q = .leaf x ↔ t.nodeAt q = .leaf x := by
  induction p generalizing t t' q with
  | nil =>
    obtain ⟨c, q, rfl⟩ := List.exists_cons_of_ne_nil hq
    cases t with
    | absent => cases h; simp
    | leaf | internal => cases h
  | cons b p ih =>
    obtain ⟨hleaf, hsub, hother, hroot⟩ := insert_cons_ok h
    cases q with
    | nil => cases t' <;> simp_all [Tree.rooted]
    | cons c q =>
      by_cases hc : c = b
      · subst hc
        exact ih (q := q) hsub (fun he => hq (by rw [he]))
      · rw [Tree.nodeAt_cons, Tree.nodeAt_cons, Bool.eq_not_of_ne hc, hother]

/-- A leaf stays a leaf. -/
theorem nodeAt_insert_of_leaf {s x : Nat} {p q : List Bool} {t t' : Tree} (h : insert s p t = .ok t')
    (hx : t.nodeAt q = .leaf x) : t'.nodeAt q = .leaf x := by
  refine (nodeAt_insert_ne h fun he => ?_).mpr hx
  have hdup : insert s p t = .error .duplicateCode := insert_eq_duplicateCode.mpr ⟨x, he ▸ hx⟩
  rw [h] at hdup
  cases hdup

end Huffman

end Sys2Proof
end

section
/-! SUPPORT. Decoding along a path (41_huffman.md R129): the path that the stream holds decides how a decode ends, and every decode has
such a path. -/

namespace Sys2Proof.Huffman

/-- How a decode ends whose stream holds a path of the tree, with the cursor past the bits consumed (R129): at the path's leaf, at the
missing child that the bit after the path selects, or at an Internal node with no bit left. -/
inductive DecodesAlong (t : Tree) (c : Cursor) : Decoded → Prop where
  | symbol (p : List Bool) (s : Nat) : c.Holds p → t.nodeAt p = .leaf s → DecodesAlong t c (.symbol s (c.advance p.length))
  | incomplete (p : List Bool) (b : Bool) (z o : Tree) : c.Holds (p ++ [b]) → t.nodeAt p = .internal z o →
      t.nodeAt (p ++ [b]) = .absent → DecodesAlong t c (.incomplete (c.advance (p.length + 1)))
  | endOfStream (p : List Bool) (z o : Tree) : c.Holds p → t.nodeAt p = .internal z o → c.pos + p.length = 8 * c.len →
      DecodesAlong t c (.endOfStream (c.advance p.length))

theorem arrive_internal_of_bit {c : Cursor} (h : 0 < c.remainingBits) (z o : Tree) :
    arrive (.internal z o) c = arrive (Tree.child (.internal z o) (c.bit c.pos)) (c.advance 1) := by
  rw [arrive, Cursor.nextBit_of_lt h]
  cases hb : c.bit c.pos <;> simp [Tree.child]

theorem arrive_internal_of_end {c : Cursor} (h : c.remainingBits = 0) (z o : Tree) :
    arrive (.internal z o) c = .endOfStream c := by
  rw [arrive, Cursor.nextBit_of_end h]

/-- The nodes on the way to a mapped node are Internal, so the walk along the path's bits arrives there. -/
theorem arrive_of_holds {t : Tree} {c : Cursor} {p : List Bool} (hc : c.Holds p) (ht : t.nodeAt p ≠ .absent) :
    arrive t c = arrive (t.nodeAt p) (c.advance p.length) := by
  induction p generalizing t c with
  | nil => rfl
  | cons b p ih =>
    obtain ⟨hrem, hbit, hrest⟩ := Cursor.holds_cons.mp hc
    cases t with
    | absent | leaf => simp at ht
    | internal z o =>
      rw [arrive_internal_of_bit hrem, hbit, ih hrest ht, Cursor.advance_advance, Nat.add_comm, Tree.nodeAt_cons, List.length_cons]

/-- A decode ends as a path says that the stream holds. -/
theorem DecodesAlong.arrive_eq {t : Tree} {c : Cursor} {r : Decoded} (h : DecodesAlong t c r) : arrive t c = r := by
  cases h with
  | symbol p s hc hp => rw [arrive_of_holds hc (by simp [hp]), hp, arrive]
  | incomplete p b z o hc hp hb =>
    obtain ⟨hcp, hcb⟩ := Cursor.holds_append.mp hc
    obtain ⟨hrem, hbit, -⟩ := Cursor.holds_cons.mp hcb
    rw [Tree.nodeAt_append, hp, Tree.nodeAt_cons, Tree.nodeAt_nil] at hb
    rw [arrive_of_holds hcp (by simp [hp]), hp, arrive_internal_of_bit hrem, hbit, hb, arrive, Cursor.advance_advance]
  | endOfStream p z o hc hp hend =>
    rw [arrive_of_holds hc (by simp [hp]), hp]
    exact arrive_internal_of_end (by simp [Cursor.remainingBits]; omega) z o

/-- One bit further up, the path is one bit longer. -/
theorem DecodesAlong.cons {t : Tree} {c : Cursor} (hrem : 0 < c.remainingBits) {r : Decoded}
    (h : DecodesAlong (t.child (c.bit c.pos)) (c.advance 1) r) : DecodesAlong t c r := by
  have longer : ∀ q, (c.advance 1).Holds q → c.Holds (c.bit c.pos :: q) := fun q hq => Cursor.holds_cons.mpr ⟨hrem, rfl, hq⟩
  cases h with
  | symbol p s hc hp =>
    rw [Cursor.advance_advance, Nat.add_comm]
    exact .symbol _ s (longer p hc) hp
  | incomplete p b z o hc hp hb =>
    rw [Cursor.advance_advance, Nat.add_comm]
    exact .incomplete (_ :: p) b z o (longer _ hc) hp hb
  | endOfStream p z o hc hp hend =>
    rw [Cursor.advance_advance, Nat.add_comm]
    refine .endOfStream (_ :: p) z o (longer p hc) hp ?_
    rw [Cursor.advance_pos, Cursor.advance_len] at hend
    rw [List.length_cons]
    omega

/-- Every walk from a mapped node ends along some path. -/
theorem decodesAlong_arrive {t : Tree} (ht : t ≠ .absent) {c : Cursor} (hpos : c.pos ≤ 8 * c.len) : DecodesAlong t c (arrive t c) := by
  induction t generalizing c with
  | absent => exact absurd rfl ht
  | leaf s => exact .symbol [] s (Cursor.holds_nil c hpos) rfl
  | internal z o ihz iho =>
    rcases Nat.eq_zero_or_pos c.remainingBits with hend | hrem
    · rw [arrive_internal_of_end hend]
      refine .endOfStream [] z o (Cursor.holds_nil c hpos) rfl ?_
      unfold Cursor.remainingBits at hend
      simp only [List.length_nil]
      omega
    · have hpos' : (c.advance 1).pos ≤ 8 * (c.advance 1).len := by
        unfold Cursor.remainingBits at hrem
        simp only [Cursor.advance_pos, Cursor.advance_len]
        omega
      rw [arrive_internal_of_bit hrem]
      by_cases hchild : Tree.child (.internal z o) (c.bit c.pos) = .absent
      · rw [hchild, arrive]
        exact .incomplete [] _ z o (Cursor.holds_cons.mpr ⟨hrem, rfl, Cursor.holds_nil _ hpos'⟩) rfl hchild
      · refine DecodesAlong.cons hrem ?_
        cases hbit : c.bit c.pos with
        | false => exact ihz (by simpa [hbit, Tree.child] using hchild) hpos'
        | true => exact iho (by simpa [hbit, Tree.child] using hchild) hpos'

/-- A decode and the path that the stream holds (R129). -/
theorem decode_eq_iff {t : Tree} (ht : t.rooted = true) {c : Cursor} (hpos : c.pos ≤ 8 * c.len) {r : Decoded} :
    decode t c = r ↔ DecodesAlong t c r := by
  cases t with
  | absent | leaf => cases ht
  | internal z o =>
    rw [decode_internal]
    exact ⟨fun h => h ▸ decodesAlong_arrive (by simp) hpos, DecodesAlong.arrive_eq⟩

/-- Decoding a leaf's path gives its symbol after exactly the path's bits. -/
theorem decode_of_nodeAt {t : Tree} (ht : t.rooted = true) {c : Cursor} {p : List Bool} {s : Nat} (hc : c.Holds p)
    (hp : t.nodeAt p = .leaf s) : decode t c = .symbol s (c.advance p.length) :=
  (decode_eq_iff ht (Nat.le_trans (Nat.le_add_right _ _) hc.1)).mpr (.symbol p s hc hp)

end Sys2Proof.Huffman
end

section
/-! SUPPORT. The assignment loop (41_huffman.md R124), and that a built tree's lengths are within the Kraft sum (R127): each leaf takes its
weight of the codes of 15 bits. -/

namespace Sys2Proof.Huffman

open Sys2Proof.Certificates (kraft)

@[simp] theorem assign_zero (rest : List Nat) (s : Nat) (next : List Nat) (t : Tree) :
    assign (0 :: rest) s next t = assign rest (s + 1) next t := rfl

/-- A used symbol is inserted, and the loop goes on (R124). -/
theorem assign_cons {l : Nat} (hl : 0 < l) (rest : List Nat) (s : Nat) (next : List Nat) (t : Tree) :
    assign (l :: rest) s next t =
      (insert s (codePath (next.getD l 0) l) t).bind (assign rest (s + 1) (next.set l (next.getD l 0 + 1))) := by
  rw [assign, if_neg (by omega)]
  cases insert s (codePath (next.getD l 0) l) t <;> rfl

theorem assign_cons_eq_ok {l : Nat} (hl : 0 < l) {rest : List Nat} {s : Nat} {next : List Nat} {t t' : Tree} :
    assign (l :: rest) s next t = .ok t' ↔ ∃ u, insert s (codePath (next.getD l 0) l) t = .ok u ∧
      assign rest (s + 1) (next.set l (next.getD l 0 + 1)) u = .ok t' := by
  rw [assign_cons hl]
  cases insert s (codePath (next.getD l 0) l) t <;> simp [Except.bind]

theorem eq_ok_of_toOption {e : Except BuildError Tree} {t : Tree} (h : e.toOption = some t) : e = .ok t := by
  cases e with
  | error => cases h
  | ok u => cases h; rfl

/-- Σ 2^(d - l) over the leaves, l the length of a leaf's path: what the leaves take of the 2^d codes of d bits. -/
def leafWeight : Nat → Tree → Nat
  | _, .absent => 0
  | d, .leaf _ => 2 ^ d
  | 0, .internal _ _ => 0
  | d + 1, .internal z o => leafWeight d z + leafWeight d o

theorem leafWeight_le (d : Nat) (t : Tree) : leafWeight d t ≤ 2 ^ d := by
  induction d generalizing t with
  | zero => cases t <;> simp [leafWeight]
  | succ d ih =>
    cases t with
    | absent | leaf => simp [leafWeight]
    | internal z o =>
      have hz := ih z
      have ho := ih o
      rw [leafWeight, Nat.pow_succ]
      omega

theorem leafWeight_succ {t : Tree} (h : ∀ x, t ≠ .leaf x) (d : Nat) (b : Bool) :
    leafWeight (d + 1) t = leafWeight d (t.child b) + leafWeight d (t.child !b) := by
  cases t with
  | leaf x => exact absurd rfl (h x)
  | absent => simp [leafWeight]
  | internal z o => cases b <;> simp [leafWeight, Tree.child, Nat.add_comm]

/-- A new leaf takes 2^(d - l) of the codes. -/
theorem leafWeight_insert {s d : Nat} {p : List Bool} {t t' : Tree} (hd : p.length ≤ d) (h : insert s p t = .ok t') :
    leafWeight d t' = leafWeight d t + 2 ^ (d - p.length) := by
  induction p generalizing d t t' with
  | nil =>
    cases t with
    | absent => cases h; simp [leafWeight]
    | leaf | internal => cases h
  | cons b p ih =>
    rw [List.length_cons] at hd ⊢
    obtain ⟨d, rfl⟩ := Nat.exists_eq_add_of_le' (Nat.one_le_of_lt hd)
    obtain ⟨hleaf, hsub, hother, hroot⟩ := insert_cons_ok h
    rw [leafWeight_succ (ne_leaf_of_rooted hroot) d b, leafWeight_succ hleaf d b, hother, ih (by omega) hsub, Nat.add_sub_add_right]
    omega

theorem kraft_cons (l : Nat) (lengths : List Nat) :
    kraft (l :: lengths) = (if l = 0 then 0 else 2 ^ (15 - l)) + kraft lengths := by
  rw [kraft, List.map_cons, List.sum_cons, kraft]

/-- The assignment loop's leaves take what the Kraft sum counts. -/
theorem leafWeight_assign {lengths : List Nat} (hlen : ∀ l ∈ lengths, l ≤ 15) {s : Nat} {next : List Nat} {t t' : Tree}
    (h : assign lengths s next t = .ok t') : leafWeight 15 t' = leafWeight 15 t + kraft lengths := by
  induction lengths generalizing s next t with
  | nil => cases h; rfl
  | cons l rest ih =>
    obtain ⟨hl, hrest⟩ := List.forall_mem_cons.mp hlen
    rw [kraft_cons]
    rcases Nat.eq_zero_or_pos l with rfl | hpos
    · simpa using ih hrest h
    · obtain ⟨u, hins, hgo⟩ := (assign_cons_eq_ok hpos).mp h
      rw [ih hrest hgo, leafWeight_insert (by rwa [codePath_length]) hins, codePath_length, if_neg (by omega), Nat.add_assoc]

theorem kraft_le_of_build {lengths : List Nat} (hlen : ∀ l ∈ lengths, l ≤ 15) {t : Tree} (h : build lengths = .ok t) :
    kraft lengths ≤ 2 ^ 15 := by
  have hw : leafWeight 15 t = 0 + kraft lengths := leafWeight_assign hlen h
  have hle := leafWeight_le 15 t
  omega

end Sys2Proof.Huffman
end

section
/-! SUPPORT. The canonical codes (41_huffman.md R122, R123): within the Kraft sum no code's path begins another's. -/

namespace Sys2Proof.Huffman

open Sys2Proof.Certificates (kraft)

/-! ### the paths of codes -/

/-- The upper bits of a code stand first. -/
theorem codePath_add (c l k : Nat) : codePath c (l + k) = codePath (c / 2 ^ k) l ++ codePath c k := by
  induction l with
  | zero => rw [Nat.zero_add]; rfl
  | succ l ih => rw [Nat.succ_add, codePath, codePath, ih, List.cons_append, Nat.div_div_eq_div_mul, ← Nat.pow_add, Nat.add_comm k]

/-- A path says the low bits of its code. -/
theorem mod_eq_of_codePath_eq {a b l : Nat} (h : codePath a l = codePath b l) : a % 2 ^ l = b % 2 ^ l := by
  induction l with
  | zero => simp [Nat.mod_one]
  | succ l ih =>
    simp only [codePath, List.cons.injEq] at h
    obtain ⟨hbit, hrest⟩ := h
    have hbit' : a / 2 ^ l % 2 = b / 2 ^ l % 2 := by
      rw [Bool.eq_iff_iff, beq_iff_eq, beq_iff_eq] at hbit
      omega
    rw [Nat.mod_pow_succ, Nat.mod_pow_succ, ih hrest, hbit']

/-- A code's path begins another's only where it is the other's upper bits. -/
theorem eq_div_of_codePath_prefix {a b l k : Nat} (ha : a < 2 ^ l) (hb : b < 2 ^ (l + k))
    (h : codePath a l <+: codePath b (l + k)) : a = b / 2 ^ k := by
  have heq : codePath a l = codePath (b / 2 ^ k) l := by
    rw [codePath_add] at h
    exact (List.prefix_of_prefix_length_le h (List.prefix_append _ _) (by simp [codePath_length])).eq_of_length
      (by simp [codePath_length])
  have hmod := mod_eq_of_codePath_eq heq
  rwa [Nat.mod_eq_of_lt ha, Nat.mod_eq_of_lt (Nat.div_lt_of_lt_mul (by rwa [← Nat.pow_add, Nat.add_comm k]))] at hmod

/-! ### within the Kraft sum no code's path begins another's -/

theorem firstCode_succ (lengths : List Nat) {l : Nat} (hl : 0 < l) :
    firstCode lengths (l + 1) = (firstCode lengths l + count lengths l) * 2 := by
  obtain ⟨l, rfl⟩ := Nat.exists_eq_add_of_le' hl
  rfl

/-- The codes of a longer length come after those of a shorter one. -/
theorem end_le_firstCode (lengths : List Nat) {l : Nat} (hl : 0 < l) (k : Nat) :
    (firstCode lengths l + count lengths l) * 2 ^ (k + 1) ≤ firstCode lengths (l + (k + 1)) := by
  induction k with
  | zero => exact Nat.le_of_eq (by rw [Nat.zero_add, Nat.pow_one, firstCode_succ lengths hl])
  | succ k ih =>
    rw [← Nat.add_assoc l, firstCode_succ lengths (by omega), Nat.pow_succ, ← Nat.mul_assoc]
    exact Nat.mul_le_mul_right 2 (Nat.le_trans ih (Nat.le_add_right _ _))

/-- The symbols of one length add their count times 2^(15 - length) to the Kraft sum of the shorter ones. -/
theorem kraft_filter_succ (lengths : List Nat) (l : Nat) :
    kraft (lengths.filter (· ≤ l + 1)) = kraft (lengths.filter (· ≤ l)) + count lengths (l + 1) * 2 ^ (15 - (l + 1)) := by
  induction lengths with
  | nil => simp [kraft, count]
  | cons x rest ih =>
    simp only [count] at ih ⊢
    rw [List.countP_cons]
    rcases Nat.lt_trichotomy x (l + 1) with hlt | rfl | hgt
    · have hle : x ≤ l := Nat.le_of_lt_succ hlt
      simp [kraft_cons, ih, hle, Nat.le_succ_of_le hle, Nat.ne_of_lt hlt, Nat.add_assoc]
    · simp [kraft_cons, ih, Nat.add_mul]
      omega
    · simp [ih, Nat.not_le.mpr hgt, Nat.not_le.mpr (Nat.lt_of_succ_lt hgt), Nat.ne_of_gt hgt]

theorem kraft_filter_le (lengths : List Nat) (l : Nat) : kraft (lengths.filter (· ≤ l)) ≤ kraft lengths := by
  induction lengths with
  | nil => exact Nat.le_refl _
  | cons x rest ih =>
    simp only [List.filter_cons, decide_eq_true_eq]
    rw [kraft_cons]
    split
    · rw [kraft_cons]
      exact Nat.add_le_add_left ih _
    · exact Nat.le_trans ih (Nat.le_add_left _ _)

/-- Unused symbols add nothing to the Kraft sum. -/
theorem kraft_filter_zero (lengths : List Nat) : kraft (lengths.filter (· ≤ 0)) = 0 := by
  induction lengths with
  | nil => rfl
  | cons x rest ih =>
    simp only [List.filter_cons, decide_eq_true_eq]
    split
    · rename_i hx
      rw [kraft_cons, if_pos (Nat.le_zero.mp hx), ih]
    · exact ih

/-- The end of the codes of a length, scaled to 15 bits, is the Kraft sum of the lengths up to it. -/
theorem end_mul_eq_kraft (lengths : List Nat) {l : Nat} (hl : l < 15) :
    (firstCode lengths (l + 1) + count lengths (l + 1)) * 2 ^ (15 - (l + 1)) = kraft (lengths.filter (· ≤ l + 1)) := by
  rw [kraft_filter_succ, Nat.add_mul]
  congr 1
  induction l with
  | zero => rw [firstCode, Nat.zero_mul, kraft_filter_zero]
  | succ l ih =>
    rw [firstCode_succ lengths (Nat.succ_pos l), kraft_filter_succ, ← ih (by omega), ← Nat.add_mul, Nat.mul_assoc, ← Nat.pow_succ']
    congr 2
    omega

/-- The codes of a length fit in it, within the Kraft sum. -/
theorem end_le_two_pow {lengths : List Nat} (hk : kraft lengths ≤ 2 ^ 15) {l : Nat} (hpos : 0 < l) (hl : l ≤ 15) :
    firstCode lengths l + count lengths l ≤ 2 ^ l := by
  obtain ⟨l, rfl⟩ := Nat.exists_eq_add_of_le' hpos
  refine Nat.le_of_mul_le_mul_right ?_ (Nat.two_pow_pos (15 - (l + 1)))
  rw [end_mul_eq_kraft lengths hl, ← Nat.pow_add, Nat.add_sub_cancel' hl]
  exact Nat.le_trans (kraft_filter_le lengths (l + 1)) hk

/-- c is one of the count[l] codes of length l, from code[l] on (R123, R124). -/
structure IsCode (lengths : List Nat) (c l : Nat) : Prop where
  pos : 0 < l
  le_max : l ≤ 15
  first_le : firstCode lengths l ≤ c
  lt_end : c < firstCode lengths l + count lengths l

theorem IsCode.lt_two_pow {lengths : List Nat} (hk : kraft lengths ≤ 2 ^ 15) {c l : Nat} (h : IsCode lengths c l) : c < 2 ^ l :=
  Nat.lt_of_lt_of_le h.lt_end (end_le_two_pow hk h.pos h.le_max)

/-- No code's path begins another's. -/
theorem IsCode.eq_of_prefix {lengths : List Nat} (hk : kraft lengths ≤ 2 ^ 15) {c d l m : Nat} (hc : IsCode lengths c l)
    (hd : IsCode lengths d m) (h : codePath c l <+: codePath d m) : l = m ∧ c = d := by
  have hlm : l ≤ m := by simpa [codePath_length] using h.length_le
  obtain ⟨k, rfl⟩ := Nat.exists_eq_add_of_le hlm
  have hdiv : c = d / 2 ^ k := eq_div_of_codePath_prefix (hc.lt_two_pow hk) (hd.lt_two_pow hk) h
  cases k with
  | zero => exact ⟨rfl, by simpa using hdiv⟩
  | succ k =>
    have hlater : firstCode lengths l + count lengths l ≤ d / 2 ^ (k + 1) :=
      (Nat.le_div_iff_mul_le (Nat.two_pow_pos _)).mpr (Nat.le_trans (end_le_firstCode lengths hc.pos k) hd.first_le)
    have hend := hc.lt_end
    omega

end Sys2Proof.Huffman
end

section
/-! SUPPORT. Construction within the Kraft sum (41_huffman.md R124, R127): every insertion finds its path free, and each symbol's leaf stands
at its canonical code. -/

namespace Sys2Proof.Huffman

open Sys2Proof.Certificates (kraft)

/-! ### insertions that do not meet -/

/-- A leaf can be inserted at p. -/
def Accepts (t : Tree) (p : List Bool) : Prop := ∀ s, ∃ t', insert s p t = .ok t'

theorem accepts_cons {t : Tree} {b : Bool} {p : List Bool} :
    Accepts t (b :: p) ↔ (∀ x, t ≠ .leaf x) ∧ Accepts (t.child b) p := by
  by_cases hleaf : ∃ x, t = .leaf x
  · obtain ⟨x, rfl⟩ := hleaf
    simp [Accepts]
  · have h := not_exists.mp hleaf
    simp only [Accepts, insert_cons h]
    refine ⟨fun ha => ⟨h, fun s => ?_⟩, fun ⟨_, ha⟩ s => ?_⟩
    · obtain ⟨t', ht'⟩ := ha s
      cases hsub : insert s p (t.child b) with
      | error => rw [hsub] at ht'; cases ht'
      | ok sub => exact ⟨sub, rfl⟩
    · obtain ⟨sub, hsub⟩ := ha s
      rw [hsub]
      exact ⟨_, rfl⟩

theorem accepts_absent (p : List Bool) : Accepts .absent p := by
  induction p with
  | nil => exact fun s => ⟨_, insert_nil_absent s⟩
  | cons b p ih => exact accepts_cons.mpr ⟨by simp, ih⟩

theorem accepts_emptyRoot (b : Bool) (p : List Bool) : Accepts .emptyRoot (b :: p) :=
  accepts_cons.mpr ⟨by simp [Tree.emptyRoot], by cases b <;> exact accepts_absent p⟩

/-- An insertion leaves room wherever neither path begins the other. -/
theorem accepts_insert {s : Nat} {p q : List Bool} {t t' : Tree} (h : insert s p t = .ok t') (hq : Accepts t q)
    (hpq : ¬ p <+: q) (hqp : ¬ q <+: p) : Accepts t' q := by
  induction p generalizing t t' q with
  | nil => exact absurd List.nil_prefix hpq
  | cons b p ih =>
    cases q with
    | nil => exact absurd List.nil_prefix hqp
    | cons c q =>
      obtain ⟨-, hsub, hother, hroot⟩ := insert_cons_ok h
      obtain ⟨-, hchild⟩ := accepts_cons.mp hq
      refine accepts_cons.mpr ⟨ne_leaf_of_rooted hroot, ?_⟩
      by_cases hc : c = b
      · subst hc
        rw [List.prefix_cons_inj] at hpq hqp
        exact ih hsub hchild hpq hqp
      · rw [Bool.eq_not_of_ne hc] at hchild ⊢
        rwa [hother]

/-! ### what the assignment loop keeps -/

/-- next[] once the symbols `done` have been walked (R124). -/
structure NextAfter (lengths done next : List Nat) : Prop where
  size : next.length = 16
  next_eq : ∀ l, 0 < l → l ≤ 15 → next.getD l 0 = firstCode lengths l + count done l

theorem nextAfter_firstCodes (lengths : List Nat) : NextAfter lengths [] (firstCodes lengths) := by
  refine ⟨by simp [firstCodes], fun l _ hl => ?_⟩
  simp [firstCodes, count, Nat.lt_succ_of_le hl]

theorem count_append_singleton (done : List Nat) (l m : Nat) :
    count (done ++ [l]) m = count done m + if l = m then 1 else 0 := by
  simp [count, List.countP_append, List.countP_singleton]

theorem NextAfter.unused {lengths done next : List Nat} (h : NextAfter lengths done next) : NextAfter lengths (done ++ [0]) next := by
  obtain ⟨hsize, hnext⟩ := h
  refine ⟨hsize, fun m hpos hm => ?_⟩
  rw [hnext m hpos hm, count_append_singleton, if_neg (by omega), Nat.add_zero]

theorem NextAfter.used {lengths done next : List Nat} (h : NextAfter lengths done next) {l : Nat} (hl : l ≤ 15) :
    NextAfter lengths (done ++ [l]) (next.set l (next.getD l 0 + 1)) := by
  obtain ⟨hsize, hnext⟩ := h
  refine ⟨by rw [List.length_set, hsize], fun m hpos hm => ?_⟩
  rw [count_append_singleton, ← Nat.add_assoc, ← hnext m hpos hm]
  by_cases he : l = m
  · subst he
    simp [hsize, Nat.lt_succ_of_le hl]
  · simp [he]

/-- A leaf stays where it is. -/
theorem nodeAt_assign_of_leaf {lengths : List Nat} {s x : Nat} {next : List Nat} {t t' : Tree} {q : List Bool}
    (h : assign lengths s next t = .ok t') (hx : t.nodeAt q = .leaf x) : t'.nodeAt q = .leaf x := by
  induction lengths generalizing s next t with
  | nil => cases h; exact hx
  | cons l rest ih =>
    rcases Nat.eq_zero_or_pos l with rfl | hpos
    · exact ih h hx
    · obtain ⟨u, hins, hgo⟩ := (assign_cons_eq_ok hpos).mp h
      exact ih hgo (nodeAt_insert_of_leaf hins hx)

/-- The symbol after `pre` has its leaf at its canonical code. -/
theorem nodeAt_assign {lengths done pre post : List Nat} {l s : Nat} {next : List Nat} {t t' : Tree} (hl : 0 < l)
    (hlen : ∀ x ∈ pre ++ l :: post, x ≤ 15) (hnext : NextAfter lengths done next)
    (h : assign (pre ++ l :: post) s next t = .ok t') :
    t'.nodeAt (codePath (firstCode lengths l + count (done ++ pre) l) l) = .leaf (s + pre.length) := by
  induction pre generalizing done s next t with
  | nil =>
    obtain ⟨u, hins, hgo⟩ := (assign_cons_eq_ok hl).mp h
    rw [hnext.next_eq l hl (hlen l (by simp))] at hins
    rw [List.append_nil]
    exact nodeAt_assign_of_leaf hgo (nodeAt_insert_self hins)
  | cons x pre ih =>
    obtain ⟨hx, hrest⟩ := List.forall_mem_cons.mp hlen
    rw [List.append_cons, List.length_cons, Nat.add_comm pre.length, ← Nat.add_assoc]
    rcases Nat.eq_zero_or_pos x with rfl | hpos
    · exact ih hrest hnext.unused h
    · obtain ⟨u, hins, hgo⟩ := (assign_cons_eq_ok hpos).mp h
      exact ih hrest (hnext.used hx) hgo

/-- The tree has room for the codes that the symbols `done` have left. -/
def HasRoom (lengths done : List Nat) (t : Tree) : Prop :=
  ∀ c l, IsCode lengths c l → firstCode lengths l + count done l ≤ c → Accepts t (codePath c l)

theorem hasRoom_emptyRoot (lengths : List Nat) : HasRoom lengths [] .emptyRoot := by
  intro c l hc _
  obtain ⟨l, rfl⟩ := Nat.exists_eq_add_of_le' hc.pos
  exact accepts_emptyRoot _ _

theorem HasRoom.unused {lengths done : List Nat} {t : Tree} (h : HasRoom lengths done t) : HasRoom lengths (done ++ [0]) t := by
  intro c l hc hle
  rw [count_append_singleton] at hle
  exact h c l hc (by omega)

/-- The next code of a length is taken, and the others are left. -/
theorem HasRoom.used {lengths done : List Nat} {t u : Tree} (hk : kraft lengths ≤ 2 ^ 15) (h : HasRoom lengths done t) {s l : Nat}
    (hcode : IsCode lengths (firstCode lengths l + count done l) l)
    (hins : insert s (codePath (firstCode lengths l + count done l) l) t = .ok u) : HasRoom lengths (done ++ [l]) u := by
  intro c m hc hle
  rw [count_append_singleton] at hle
  have hdiff : ¬(l = m ∧ firstCode lengths l + count done l = c) := by
    rintro ⟨rfl, rfl⟩
    rw [if_pos rfl] at hle
    omega
  refine accepts_insert hins (h c m hc (by omega)) (fun hpre => hdiff (hcode.eq_of_prefix hk hc hpre)) (fun hpre => ?_)
  obtain ⟨hm, hd⟩ := hc.eq_of_prefix hk hcode hpre
  exact hdiff ⟨hm.symm, hd.symm⟩

/-- Within the Kraft sum every insertion finds its path free. -/
theorem assign_ok {done rest : List Nat} (hlen : ∀ x ∈ rest, x ≤ 15) (hk : kraft (done ++ rest) ≤ 2 ^ 15) {next : List Nat}
    (hnext : NextAfter (done ++ rest) done next) {t : Tree} (hroom : HasRoom (done ++ rest) done t) (s : Nat) :
    ∃ t', assign rest s next t = .ok t' := by
  induction rest generalizing done s next t with
  | nil => exact ⟨t, rfl⟩
  | cons l rest ih =>
    obtain ⟨hl, hrest⟩ := List.forall_mem_cons.mp hlen
    rw [List.append_cons] at hk hnext hroom
    rcases Nat.eq_zero_or_pos l with rfl | hpos
    · exact ih hrest hk hnext.unused hroom.unused (s + 1)
    · have hcode : IsCode (done ++ [l] ++ rest) (firstCode (done ++ [l] ++ rest) l + count done l) l := by
        refine ⟨hpos, hl, Nat.le_add_right _ _, Nat.add_lt_add_left ?_ _⟩
        simp only [count, List.countP_append, List.countP_singleton, beq_self_eq_true, if_true]
        omega
      obtain ⟨u, hins⟩ := hroom _ l hcode (Nat.le_refl _) s
      obtain ⟨t', hgo⟩ := ih hrest hk (hnext.used hl) (hroom.used hk hcode hins) (s + 1)
      rw [← hnext.next_eq l hpos hl] at hins
      exact ⟨t', (assign_cons_eq_ok hpos).mpr ⟨u, hins, hgo⟩⟩

/-- Every used symbol of a built tree has its leaf at its canonical code (R124, R127). -/
theorem nodeAt_build {lengths : List Nat} (hlen : ∀ l ∈ lengths, l ≤ 15) {t : Tree} (h : build lengths = .ok t) {s : Nat}
    (hs : s < lengths.length) (hpos : 0 < lengths[s]) :
    t.nodeAt (codePath (firstCode lengths lengths[s] + count (lengths.take s) lengths[s]) lengths[s]) = .leaf s := by
  have hsplit : lengths.take s ++ lengths[s] :: lengths.drop (s + 1) = lengths := by simp
  have hnode := nodeAt_assign (lengths := lengths) (pre := lengths.take s) (post := lengths.drop (s + 1)) hpos (by rwa [hsplit])
    (nextAfter_firstCodes lengths) (by rw [hsplit]; exact h)
  rwa [List.nil_append, Nat.zero_add, List.length_take_of_le (Nat.le_of_lt hs)] at hnode

/-- Within the Kraft sum build succeeds (R127). -/
theorem build_ok {lengths : List Nat} (hlen : ∀ l ∈ lengths, l ≤ 15) (hk : kraft lengths ≤ 2 ^ 15) : ∃ t, build lengths = .ok t :=
  assign_ok (done := []) hlen hk (nextAfter_firstCodes lengths) (hasRoom_emptyRoot lengths) 0

end Sys2Proof.Huffman
end

section
/-! SUPPORT. The statements of 41_huffman.md. -/

namespace Sys2Proof.Certificates

/-- Settles O9: the outcomes of an insertion are read off the nodes on its path, and it leaves every other leaf as it was. -/
theorem insertRaisesOnTakenPaths : Obligations.InsertRaisesOnTakenPaths := by
  intro s p t hroot _
  refine ⟨Huffman.insert_eq_duplicateCode, ?_, fun t' h =>
    ⟨Huffman.nodeAt_insert_self h, fun k hk => Huffman.nodeAt_insert_take h hk, fun q x hq => Huffman.nodeAt_insert_ne h hq⟩⟩
  rw [Huffman.insert_eq_invalidTreeShape]
  refine or_congr_left (exists_congr fun k => exists_congr fun x => ⟨fun ⟨hk, hx⟩ => ⟨?_, hk, hx⟩, fun ⟨_, hk, hx⟩ => ⟨hk, hx⟩⟩)
  refine Nat.pos_of_ne_zero fun hzero => ?_
  subst hzero
  exact Huffman.ne_leaf_of_rooted hroot x hx

/-- Settles O10: a decode ends as the path says that the stream holds (`Huffman.decode_eq_iff`). -/
theorem decodeFollowsThePath : Obligations.DecodeFollowsThePath := by
  intro t c c' hroot hpos
  simp only [Huffman.decode_eq_iff hroot hpos]
  refine ⟨fun s => ⟨fun h => ?_, ?_⟩, ⟨fun h => ?_, ?_⟩, ⟨fun h => ?_, ?_⟩⟩
  · cases h with
    | symbol p _ hc hp => exact ⟨p, hc, hp, rfl⟩
  · rintro ⟨p, hc, hp, rfl⟩
    exact .symbol p s hc hp
  · cases h with
    | incomplete p b z o hc hp hb => exact ⟨p, b, z, o, hc, hp, hb, rfl⟩
  · rintro ⟨p, b, z, o, hc, hp, hb, rfl⟩
    exact .incomplete p b z o hc hp hb
  · cases h with
    | endOfStream p z o hc hp hend => exact ⟨p, z, o, hc, hp, hend, rfl⟩
  · rintro ⟨p, z, o, hc, hp, hend, rfl⟩
    exact .endOfStream p z o hc hp hend

/-- Settles O11: the symbol's leaf stands at its canonical code (`Huffman.nodeAt_build`), where the decode arrives. -/
theorem canonicalCodesDecode : Obligations.CanonicalCodesDecode := by
  intro lengths t s hs hlen hbuild hpos c hc
  obtain ⟨hroot, -⟩ := Huffman.build_legal hbuild (Nat.le_refl _)
  have hdecode := Huffman.decode_of_nodeAt hroot hc (Huffman.nodeAt_build hlen hbuild hs hpos)
  rwa [Huffman.codePath_length] at hdecode

/-- Settles O12: the leaves of a built tree take what the Kraft sum counts (`Huffman.kraft_le_of_build`), and within it every
insertion finds its path free (`Huffman.build_ok`). -/
theorem buildSucceedsExactlyWithinKraft : Obligations.BuildSucceedsExactlyWithinKraft :=
  fun _ hlen => ⟨fun ⟨_, hbuild⟩ => Huffman.kraft_le_of_build hlen hbuild, Huffman.build_ok hlen⟩

/-- Settles O13: the fixed lengths are the ROM's, whose trees are built from them. -/
theorem fixedTreesAreBuiltFromTheFixedLengths : Obligations.FixedTreesAreBuiltFromTheFixedLengths := by
  have hlit : (List.range 288).map (fun s => if s ≤ 143 then 8 else if s ≤ 255 then 9 else if s ≤ 279 then 7 else 8) =
      Rom.fixedLitLenLengths := by decide +kernel
  have hdist : (List.range 32).map (fun _ => 5) = Rom.fixedDistLengths := by decide
  rw [Obligations.FixedTreesAreBuiltFromTheFixedLengths, hlit, hdist]
  exact ⟨Huffman.eq_ok_of_toOption Huffman.fixedLitLen_eq_build, Huffman.eq_ok_of_toOption Huffman.fixedDist_eq_build⟩

end Sys2Proof.Certificates
end

section
/-! SUPPORT. What the gzip front end's step does with the parse (42_gzip_front_end.md R158 to R160), and the parse of an array byte by
byte (R151). -/

namespace Sys2Proof

open Machine Certificates

variable {input : Memory} {len : Nat}

/-- At a byte boundary the next byte is the array's. -/
theorem withByte_of_aligned {p : Nat} (hp : p % 8 = 0) (hl : p + 8 ≤ 8 * len) (k : Byte → Cursor → DecodeResult) :
    withByte ⟨input, len, p⟩ k = k (Cursor.inByte ⟨input, len, 0⟩ (p / 8)) ⟨input, len, p + 8⟩ := by
  obtain ⟨i, rfl⟩ := Nat.dvd_of_mod_eq_zero hp
  have hbits : 8 ≤ (⟨input, len, 8 * i⟩ : Cursor).remainingBits := Nat.le_sub_of_add_le' hl
  rw [withByte, Cursor.nextByte_of_le hbits, Cursor.packed_byte, BitVec.ofNat_toNat, BitVec.setWidth_eq,
    Nat.mul_div_cancel_left i (by decide)]
  rfl

/-- A field that is there is read, whatever it holds. -/
theorem withBits_of_le {p n : Nat} (hl : p + n ≤ 8 * len) (kept : Kept) (k : Nat → Cursor → DecodeResult) :
    withBits n kept ⟨input, len, p⟩ k = k (Cursor.packed ⟨input, len, p⟩ n p) ⟨input, len, p + n⟩ := by
  rw [withBits, Cursor.nextBits_of_le (Nat.le_sub_of_add_le' hl)]
  rfl

@[simp] theorem check_true (r : HeaderReason) (c : Cursor) (k : DecodeResult) : check true r c k = k := rfl

@[simp] theorem check_false (r : HeaderReason) (c : Cursor) (k : DecodeResult) :
    check false r c k = .rejected (.header r) .nothing c := rfl

/-- Where the parse gives a header, the step executes GZIP_HDR (log 4). -/
theorem step_of_decodeGzip_instr {s : State} (hf : s.frontEnd = .requested input len) {i : Instr} {c : Cursor}
    (hd : decodeGzip ⟨input, len, 0⟩ = .instr i c) : step s = exec i s := by
  rcases step_of_requested hf with ⟨i', c', hi, e⟩ | ⟨w, kept, c', hr, -⟩
  · cases hd.symm.trans hi
    exact e
  · cases hd.symm.trans hr

/-- Where the parse rejects the member, the step leaves the failed result and changes nothing else (R160; log 4, log 5). -/
theorem step_of_decodeGzip_rejected {s : State} (hf : s.frontEnd = .requested input len) {w : Reject} {kept : Kept} {c : Cursor}
    (hd : decodeGzip ⟨input, len, 0⟩ = .rejected w kept c) {kind : ErrKind} (hk : rejectKind w = some kind) :
    step s = .next (failedState s kind (rejectReason w) c.pos) := by
  rcases step_of_requested hf with ⟨i, c', hi, -⟩ | ⟨w', kept', c', hr, e⟩
  · cases hd.symm.trans hi
  · cases hd.symm.trans hr
    rw [e, hk]
    rfl

/-- A failed check is CorruptHeader with its reason, at the position after the byte (R160). -/
theorem step_of_check_failed {s : State} (hf : s.frontEnd = .requested input len) {r : HeaderReason} {p : Nat}
    (hd : decodeGzip ⟨input, len, 0⟩ = .rejected (.header r) .nothing ⟨input, len, p⟩) :
    step s = .next (failedState s .corruptHeader (some r) p) :=
  step_of_decodeGzip_rejected hf hd rfl

/-- GZIP_HDR on a header that fits the member: the reset values, with the front end's result beside them (R158; log 4). -/
theorem exec_gzipHdr_of_member {s : State} {p : Nat} (hm : s.member = ⟨input, len, p⟩) {h : GzipHeader}
    (hl : h.bytes.length ≤ len) : exec (.gzipHdr h) s =
      .next { State.atReset input len h.bytes.length with frontEnd := .accepted h h.bytes.length } := by
  have hsize : h.size ≤ s.member.len := by rw [hm]; exact hl
  change execGzipHdr h s = _
  rw [execGzipHdr, if_pos hsize, State.startMember, hm]
  rfl

end Sys2Proof
end

section
/-! SUPPORT. The gzip front end's parse of a header that is cut off (42_gzip_front_end.md R159): the header as the list of what is read
at once (`GzipHeader.reads`), and a decoder that rejects at the read which passes the end (`Cuts`). -/

namespace Sys2Proof

open Certificates

/-- From POS on the stream holds these bytes, and then ends. -/
def Cursor.Ends (c : Cursor) (bytes : List Byte) : Prop :=
  c.pos + 8 * bytes.length = 8 * c.len ∧ c.Holds (bytesBits bytes)

theorem Cursor.Ends.remainingBits_eq {c : Cursor} {bytes : List Byte} (h : c.Ends bytes) :
    c.remainingBits = 8 * bytes.length := by
  have hlen := h.1
  unfold Cursor.remainingBits
  omega

theorem Cursor.Ends.of_append {c : Cursor} {xs ys : List Byte} (h : c.Ends (xs ++ ys)) :
    c.Holds (bytesBits xs) ∧ (c.advance (8 * xs.length)).Ends ys := by
  obtain ⟨hlen, hholds⟩ := h
  rw [bytesBits_append, Cursor.holds_append, bytesBits_length] at hholds
  rw [List.length_append] at hlen
  exact ⟨hholds.1, by rw [Cursor.advance_pos, Cursor.advance_len]; omega, hholds.2⟩

theorem Cursor.Ends.nextByte_nil {c : Cursor} (h : c.Ends []) : c.nextByte = none :=
  Cursor.nextByte_of_lt (by rw [h.remainingBits_eq]; decide)

theorem Cursor.Ends.nextByte_cons {c : Cursor} {b : Byte} {bytes : List Byte} (h : c.Ends (b :: bytes)) :
    c.nextByte = some (b, c.advance 8) ∧ (c.advance 8).Ends bytes := by
  obtain ⟨hb, hrest⟩ := Cursor.Ends.of_append (xs := [b]) h
  exact ⟨Cursor.nextByte_of_holds (by simpa [bytesBits] using hb), hrest⟩

/-- More bytes than there are: the cursor of the first that is missing. -/
theorem nextBytes_of_ends {bytes : List Byte} {c : Cursor} (h : c.Ends bytes) {n : Nat} (hn : bytes.length < n) :
    c.nextBytes n = .error (c.advance (8 * bytes.length)) := by
  obtain ⟨n, rfl⟩ := Nat.exists_eq_succ_of_ne_zero (Nat.ne_zero_of_lt hn)
  induction bytes generalizing c n with
  | nil => simp [Cursor.nextBytes, h.nextByte_nil]
  | cons b rest ih =>
    obtain ⟨hb, hrest⟩ := h.nextByte_cons
    obtain ⟨n, rfl⟩ := Nat.exists_eq_succ_of_ne_zero (Nat.ne_zero_of_lt (Nat.lt_of_succ_lt_succ hn))
    rw [Cursor.nextBytes, hb]
    simp only [ih hrest n (Nat.lt_of_succ_lt_succ hn), Cursor.advance_advance, List.length_cons, Nat.mul_add, Nat.add_comm]

/-- A null-terminated field without its end (R157). -/
theorem zstring_of_ends {bytes : List Byte} (h0 : ∀ b ∈ bytes, b ≠ 0) {c : Cursor} (h : c.Ends bytes) {fuel : Nat}
    (hf : bytes.length < fuel) : zstring fuel c = .error (c.advance (8 * bytes.length)) := by
  induction bytes generalizing c fuel with
  | nil =>
    obtain ⟨n, rfl⟩ := Nat.exists_eq_succ_of_ne_zero (Nat.ne_zero_of_lt hf)
    simp [zstring, h.nextByte_nil]
  | cons b rest ih =>
    obtain ⟨n, rfl⟩ := Nat.exists_eq_succ_of_ne_zero (Nat.ne_zero_of_lt hf)
    obtain ⟨hb, hrest⟩ := h.nextByte_cons
    obtain ⟨hb0, h0⟩ := List.forall_mem_cons.mp h0
    rw [zstring, hb]
    simp only [if_neg hb0, ih h0 hrest (Nat.lt_of_succ_lt_succ hf), Cursor.advance_advance, List.length_cons, Nat.mul_add,
      Nat.add_comm]

/-! ### what is read at once -/

/-- Where the read of byte n begins, the bytes being grouped by what is read at once. -/
def readStart : List (List Byte) → Nat → Nat
  | [], n => n
  | read :: rest, n => if n < read.length then 0 else read.length + readStart rest (n - read.length)

/-- Bytes that are read one by one. -/
def byteReads (bytes : List Byte) : List (List Byte) := bytes.map fun b => [b]

@[simp] theorem flatten_byteReads (bytes : List Byte) : (byteReads bytes).flatten = bytes := by
  induction bytes with
  | nil => rfl
  | cons b rest ih => simpa [byteReads] using ih

theorem readStart_append (reads rest : List (List Byte)) (n : Nat) : readStart (reads ++ rest) n =
    if n < reads.flatten.length then readStart reads n else reads.flatten.length + readStart rest (n - reads.flatten.length) := by
  induction reads generalizing n with
  | nil => simp
  | cons read reads ih =>
    simp only [List.cons_append, readStart, ih, List.flatten_cons, List.length_append, Nat.sub_sub]
    by_cases hread : n < read.length
    · rw [if_pos hread, if_pos hread, if_pos (Nat.lt_add_right _ hread)]
    · have hiff : n - read.length < reads.flatten.length ↔ n < read.length + reads.flatten.length := by omega
      simp only [if_neg hread, hiff]
      split
      · rfl
      · rw [Nat.add_assoc]

@[simp] theorem readStart_byteReads (bytes : List Byte) (n : Nat) : readStart (byteReads bytes) n = n := by
  induction bytes generalizing n with
  | nil => rfl
  | cons b rest ih =>
    rw [byteReads, List.map_cons, readStart, ← byteReads, ih, List.length_singleton]
    split <;> omega

/-- The two bytes of a field that is read as 16 bits. -/
def wordBytes (v : Nat) : List Byte := [BitVec.ofNat 8 v, BitVec.ofNat 8 (v / 256)]

@[simp] theorem wordBytes_length (v : Nat) : (wordBytes v).length = 2 := rfl

/-- A 16-bit field, then bytes one by one: the field's second byte alone is read with the byte before it. -/
theorem readStart_wordBytes_cons (v : Nat) (bytes : List Byte) (n : Nat) :
    readStart (wordBytes v :: byteReads bytes) n = if n = 1 then 0 else n := by
  rw [readStart, readStart_byteReads, wordBytes_length]
  split
  · split <;> omega
  · rw [if_neg (by omega)]
    omega

theorem bytesBits_wordBytes (v : Nat) : bytesBits (wordBytes v) = fieldBits 16 v := by
  rw [Cursor.fieldBits_add 8 8, ← Cursor.fieldBits_mod 8 v, ← Cursor.fieldBits_mod 8 (v / 2 ^ 8)]
  simp [wordBytes, bytesBits]

/-- Wherever the stream ends before the last of these reads is complete, the decoder rejects at the read that passes the end. -/
def Cuts (d : Cursor → DecodeResult) (reads : List (List Byte)) : Prop :=
  ∀ (c : Cursor) (n : Nat), n < reads.flatten.length → c.Ends (reads.flatten.take n) →
    d c = .rejected .endOfStream .nothing (c.advance (8 * readStart reads n))

namespace Cuts

variable {rest : List (List Byte)}

/-- A part that is cut off or read as it stands, then the rest. -/
theorem append {d k : Cursor → DecodeResult} {reads : List (List Byte)} (hcut : Cuts d reads)
    (hread : ∀ c : Cursor, c.Holds (bytesBits reads.flatten) → d c = k (c.advance (8 * reads.flatten.length)))
    (hk : Cuts k rest) : Cuts d (reads ++ rest) := by
  intro c n hn hc
  rw [List.flatten_append] at hn hc
  rw [List.length_append] at hn
  rw [readStart_append]
  split
  case isTrue hlt =>
    rw [List.take_append_of_le_length (Nat.le_of_lt hlt)] at hc
    exact hcut c n hlt hc
  case isFalse hge =>
    rw [List.take_append, List.take_of_length_le (Nat.le_of_not_lt hge)] at hc
    obtain ⟨hpart, hrest⟩ := hc.of_append
    rw [hread c hpart, hk _ _ (by omega) hrest, Cursor.advance_advance, Nat.mul_add]

/-- A decoder that rejects at its cursor where the bytes of its one read are not all there. -/
theorem single {d : Cursor → DecodeResult} {read : List Byte}
    (h : ∀ c : Cursor, c.remainingBits < 8 * read.length → d c = .rejected .endOfStream .nothing c) : Cuts d [read] := by
  intro c n hn hc
  rw [List.flatten_singleton] at hn hc
  have hrem := hc.remainingBits_eq
  rw [List.length_take] at hrem
  rw [readStart, if_pos hn]
  exact h c (by omega)

theorem withByte {b : Byte} {k : Byte → Cursor → DecodeResult} (hk : Cuts (k b) rest) :
    Cuts (fun c => withByte c k) ([b] :: rest) := by
  refine append (reads := [[b]]) (single fun c hc => ?_) (fun c hc => ?_) hk
  · rcases withByte_cases c k with ⟨-, e⟩ | ⟨hr, -⟩
    · exact e
    · exact absurd hc (Nat.not_lt.mpr hr)
  · exact withByte_of_holds (by simpa [bytesBits] using hc)

/-- A 16-bit field at its cut. -/
theorem word (v : Nat) (k : Nat → Cursor → DecodeResult) : Cuts (fun c => withBits 16 .nothing c k) [wordBytes v] := by
  refine single fun c hc => ?_
  rcases withBits_cases 16 .nothing c k with ⟨-, e⟩ | ⟨hr, -⟩
  · exact e
  · exact absurd hc (Nat.not_lt.mpr hr)

theorem withWord {v : Nat} {k : Nat → Cursor → DecodeResult} (hk : Cuts (k (v % 2 ^ 16)) rest) :
    Cuts (fun c => withBits 16 .nothing c k) (wordBytes v :: rest) := by
  refine append (reads := [wordBytes v]) (word v k) (fun c hc => ?_) hk
  rw [List.flatten_singleton, bytesBits_wordBytes] at hc
  exact withBits_of_holds hc

theorem check {ok : Bool} {r : HeaderReason} {k : Cursor → DecodeResult} (hok : ok = true) (hk : Cuts k rest) :
    Cuts (fun c => check ok r c (k c)) rest := by
  subst hok
  exact hk

end Cuts

/-! ### the header -/

/-- The reads of EXTRA: XLEN, then byte by byte (R156). -/
def GzipHeader.extraReads (h : GzipHeader) : List (List Byte) :=
  match h.extra with
  | some bytes => wordBytes bytes.length :: byteReads bytes
  | none => []

/-- The read of HCRC (R158). -/
def GzipHeader.hcrcReads (h : GzipHeader) : List (List Byte) :=
  match h.hcrc with
  | some v => [wordBytes v.toNat]
  | none => []

/-- The reads up to OS: MTIME in two halves, the rest byte by byte (R151). -/
def GzipHeader.fixedReads (h : GzipHeader) : List (List Byte) :=
  [[0x1F], [0x8B], [8], [h.flg], wordBytes h.mtime.toNat, wordBytes (h.mtime.toNat / 65536), [h.xfl], [h.os]]

/-- The reads of the parse, in its order (R151). -/
def GzipHeader.reads (h : GzipHeader) : List (List Byte) :=
  h.fixedReads ++ (h.extraReads ++ (byteReads (stringBytes h.name) ++ (byteReads (stringBytes h.comment) ++ h.hcrcReads)))

theorem GzipHeader.flatten_extraReads (h : GzipHeader) : h.extraReads.flatten = h.extraBytes := by
  cases he : h.extra <;> simp [extraReads, extraBytes, he, wordBytes]

theorem GzipHeader.flatten_hcrcReads (h : GzipHeader) : h.hcrcReads.flatten = h.hcrcBytes := by
  cases hh : h.hcrc <;> simp [hcrcReads, hcrcBytes, hh, wordBytes, BitVec.extractLsb', Nat.shiftRight_eq_div_pow]

theorem GzipHeader.flatten_reads (h : GzipHeader) : h.reads.flatten = h.bytes := by
  simp [reads, fixedReads, bytes, flatten_extraReads, flatten_hcrcReads, wordBytes, BitVec.extractLsb', Nat.shiftRight_eq_div_pow,
    Nat.div_div_eq_div_mul]

theorem GzipHeader.flatten_fixedReads_length (h : GzipHeader) : h.fixedReads.flatten.length = 10 := rfl

theorem GzipHeader.readStart_fixedReads (h : GzipHeader) (n : Nat) :
    readStart h.fixedReads n = if n = 5 ∨ n = 7 then n - 1 else n := by
  simp only [fixedReads, readStart, wordBytes_length, List.length_singleton]
  grind (splits := 12)

theorem GzipHeader.readStart_extraReads (h : GzipHeader) (n : Nat) :
    readStart h.extraReads n = if n = 1 ∧ h.extra.isSome = true then 0 else n := by
  cases he : h.extra <;> simp [extraReads, he, readStart, readStart_wordBytes_cons]

theorem GzipHeader.readStart_hcrcReads (h : GzipHeader) (n : Nat) :
    readStart h.hcrcReads n = if n = 1 ∧ h.hcrc.isSome = true then 0 else n := by
  cases hh : h.hcrc with
  | none => simp [hcrcReads, hh, readStart]
  | some v => simpa [hcrcReads, hh, byteReads] using readStart_wordBytes_cons v.toNat [] n

theorem GzipHeader.two_le_extraBytes_length {h : GzipHeader} (he : h.extra.isSome = true) : 2 ≤ h.extraBytes.length := by
  obtain ⟨bytes, he⟩ := Option.isSome_iff_exists.mp he
  simp [extraBytes, he]

theorem GzipHeader.hcrcBytes_length (h : GzipHeader) : h.hcrcBytes.length = if h.hcrc.isSome = true then 2 else 0 := by
  cases hh : h.hcrc <;> simp [hcrcBytes, hh]

/-- A byte's read begins one byte earlier exactly where the byte is the second of a 16-bit field. -/
theorem readStart_reads {g : GzipHeader} {n : Nat} (hn : n < g.bytes.length) :
    (secondOfTwo g n → readStart g.reads n = n - 1) ∧ (¬secondOfTwo g n → readStart g.reads n = n) := by
  have hlen : g.bytes.length = 10 + g.extraBytes.length + (GzipHeader.stringBytes g.name).length +
      (GzipHeader.stringBytes g.comment).length + g.hcrcBytes.length := by
    simp only [GzipHeader.bytes, List.length_append, List.length_cons, List.length_nil]
  have hextra := g.two_le_extraBytes_length
  have hhcrc := g.hcrcBytes_length
  simp only [GzipHeader.reads, readStart_append, g.flatten_fixedReads_length, g.readStart_fixedReads, g.flatten_extraReads,
    g.readStart_extraReads, flatten_byteReads, readStart_byteReads, g.readStart_hcrcReads, secondOfTwo]
  grind

namespace Cuts

variable {rest : List (List Byte)}

/-- Nothing is read, so nothing is cut off. -/
theorem nil (d : Cursor → DecodeResult) : Cuts d [] := fun _ _ hn => absurd hn (Nat.not_lt_zero _)

/-- EXTRA at its cut: in XLEN, or at a byte that is missing. -/
theorem extra {g : GzipHeader} (hok : g.extraOk = true) (k : Option (List Byte) → Cursor → DecodeResult) :
    Cuts (fun c => Sys2Proof.withExtra (g.flg.getLsbD 2) c k) g.extraReads := by
  unfold GzipHeader.extraOk at hok
  unfold GzipHeader.extraReads
  cases he : g.extra with
  | none => exact nil _
  | some bytes =>
    simp only [he, Bool.and_eq_true, decide_eq_true_eq] at hok
    obtain ⟨hf, hl⟩ := hok
    simp only [Sys2Proof.withExtra, hf, if_true]
    refine withWord fun c n hn hc => ?_
    rw [flatten_byteReads] at hn hc
    have hcut := nextBytes_of_ends hc (n := bytes.length % 2 ^ 16) (by rw [List.length_take]; omega)
    rw [hcut, List.length_take_of_le (Nat.le_of_lt hn), readStart_byteReads]

/-- NAME or COMMENT at its cut: no 0x00 byte stands before it. -/
theorem string {flag : Bool} {f : Option (List Byte)} (hok : GzipHeader.stringOk flag f = true)
    (k : Option (List Byte) → Cursor → DecodeResult) :
    Cuts (fun c => Sys2Proof.withString flag c k) (byteReads (GzipHeader.stringBytes f)) := by
  cases f with
  | none => exact nil _
  | some bytes =>
    simp only [GzipHeader.stringOk, Bool.and_eq_true, List.all_eq_true, bne_iff_ne, ne_eq] at hok
    obtain ⟨hf, h0⟩ := hok
    intro c n hn hc
    rw [flatten_byteReads, GzipHeader.stringBytes] at hn hc
    have hle : n ≤ bytes.length := by rw [List.length_append, List.length_singleton] at hn; omega
    rw [List.take_append_of_le_length hle] at hc
    have hcut := zstring_of_ends (fun b hb => h0 b (List.mem_of_mem_take hb)) hc (fuel := c.remainingBits / 8 + 1)
      (by rw [hc.remainingBits_eq]; omega)
    simp only [Sys2Proof.withString, hf, if_true, hcut, List.length_take_of_le hle, readStart_byteReads]

theorem withExtra {g : GzipHeader} (hok : g.extraOk = true) {k : Option (List Byte) → Cursor → DecodeResult}
    (hk : Cuts (k g.extra) rest) : Cuts (fun c => withExtra (g.flg.getLsbD 2) c k) (g.extraReads ++ rest) := by
  refine append (extra hok k) (fun c hc => ?_) hk
  rw [GzipHeader.flatten_extraReads] at hc ⊢
  exact withExtra_of_holds hok hc k

theorem withString {flag : Bool} {f : Option (List Byte)} (hok : GzipHeader.stringOk flag f = true)
    {k : Option (List Byte) → Cursor → DecodeResult} (hk : Cuts (k f) rest) :
    Cuts (fun c => withString flag c k) (byteReads (GzipHeader.stringBytes f) ++ rest) := by
  refine append (string hok k) (fun c hc => ?_) hk
  rw [flatten_byteReads] at hc ⊢
  exact withString_of_holds hok hc k

theorem withHcrc {g : GzipHeader} (hok : g.hcrcOk = true) {k : Option (BitVec 16) → Cursor → DecodeResult} :
    Cuts (fun c => withHcrc (g.flg.getLsbD 1) c k) g.hcrcReads := by
  unfold GzipHeader.hcrcOk at hok
  unfold GzipHeader.hcrcReads
  cases hh : g.hcrc with
  | none => exact nil _
  | some v =>
    have hf : g.flg.getLsbD 1 = true := by simpa [hh] using hok
    simp only [Sys2Proof.withHcrc, hf, if_true]
    exact word v.toNat _

end Cuts

theorem decodeGzip_cuts {g : GzipHeader} (hg : g.wf = true) : Cuts decodeGzip g.reads := by
  simp only [GzipHeader.wf, Bool.and_eq_true] at hg
  obtain ⟨⟨⟨⟨⟨hflags, hxfl⟩, hextra⟩, hname⟩, hcomment⟩, hhcrc⟩ := hg
  exact .withByte <| .check rfl <| .withByte <| .check rfl <| .withByte <| .check rfl <| .withByte <| .check hflags <|
    .withWord <| .withWord <| .withByte <| .check hxfl <| .withByte <| .withExtra hextra <| .withString hname <|
    .withString hcomment <| .withHcrc hhcrc

end Sys2Proof
end

section
/-! SUPPORT. The statements of 42_gzip_front_end.md. -/

namespace Sys2Proof.Certificates

open Sys2Proof.Machine

/-- Settles O54: reset's precondition holds, and the front end's array is what the host asked for, or else the core's IN. -/
theorem gzipHeaderRow : Obligations.GzipHeaderRow := fun _ _ =>
  ⟨fun _ _ hf hl => exec_gzipHdr_of_member (State.member_of_requested hf) hl,
    fun hf hl => exec_gzipHdr_of_member (State.member_of_not_requested hf) hl⟩

/-- Settles O55: the parse takes the header's bytes (`decodeGzip_takes`), and GZIP_HDR then launches the member. -/
theorem gzipMemberLaunches : Obligations.GzipMemberLaunches := by
  intro s input len h hf hwf hholds
  have hlen : h.bytes.length ≤ len := by
    have hbits : 0 + (bytesBits h.bytes).length ≤ 8 * len := hholds.1
    rw [bytesBits_length] at hbits
    omega
  rw [step_of_decodeGzip_instr hf (decodeGzip_takes hwf _ hholds), exec_gzipHdr_of_member (State.member_of_requested hf) hlen]
  exact ⟨_, rfl, rfl, rfl, rfl, rfl, rfl, rfl, rfl⟩

/-- Settles O56, from what the parse reads (`decodeGzip_reads`). -/
theorem gzipParseIsExact : Obligations.GzipParseIsExact := by
  intro c c' h _ hd
  obtain ⟨g, hg, hwf, hreads⟩ := decodeGzip_reads hd
  cases hg
  have hend := hreads.pos_le
  obtain ⟨rfl, hholds⟩ := hreads
  exact ⟨hwf, hholds, rfl, hend⟩

/-- Settles O57: the parse reads the array byte by byte (`withByte_of_aligned`) up to the byte whose check fails (`check_false`), and
a front end that has failed stays as it is (`step_of_failed`). -/
theorem gzipHeaderChecks : Obligations.GzipHeaderChecks := by
  refine ⟨fun s input len hf => ⟨?empty, ?id1, ?id2, ?cm, ?flg, ?xfl⟩, fun _ _ _ _ => step_of_failed⟩
  case empty =>
    rintro rfl
    exact step_of_decodeGzip_rejected hf rfl rfl
  case id1 =>
    intro hlen bad
    refine step_of_check_failed hf ?_
    simp (disch := omega) only [decodeGzip, withByte_of_aligned, beq_eq_false_iff_ne.mpr bad, check_false]
  case id2 =>
    intro hlen id1 bad
    refine step_of_check_failed hf ?_
    simp (disch := omega) only [decodeGzip, withByte_of_aligned, id1, beq_self_eq_true, check_true,
      beq_eq_false_iff_ne.mpr bad, check_false]
  case cm =>
    intro hlen id1 id2 bad
    refine step_of_check_failed hf ?_
    simp (disch := omega) only [decodeGzip, withByte_of_aligned, id1, id2, beq_self_eq_true, check_true,
      beq_eq_false_iff_ne.mpr bad, check_false]
  case flg =>
    intro hlen id1 id2 cm bad
    refine step_of_check_failed hf ?_
    simp (disch := omega) only [decodeGzip, withByte_of_aligned, id1, id2, cm, beq_self_eq_true, check_true,
      beq_eq_false_iff_ne.mpr bad, check_false]
  case xfl =>
    intro hlen id1 id2 cm flg bad
    refine step_of_check_failed hf ?_
    simp (disch := omega) only [decodeGzip, withByte_of_aligned, withBits_of_le, id1, id2, cm, flg, beq_self_eq_true, check_true,
      beq_eq_false_iff_ne.mpr bad, check_false]

/-- Settles O58: the parse rejects at the read that passes the end (`decodeGzip_cuts`). -/
theorem gzipTruncation : Obligations.GzipTruncation := by
  intro s input len h hf hwf hlen hholds
  rw [← GzipHeader.flatten_reads] at hholds
  have hd := decodeGzip_cuts hwf ⟨input, len, 0⟩ len (by rwa [GzipHeader.flatten_reads]) ⟨by
    rw [GzipHeader.flatten_reads, List.length_take_of_le (Nat.le_of_lt hlen), Nat.zero_add], hholds⟩
  have hstep := step_of_decodeGzip_rejected hf hd rfl
  rw [Cursor.advance_pos, Nat.zero_add] at hstep
  obtain ⟨hsecond, hfirst⟩ := readStart_reads hlen
  exact ⟨fun h2 => by rw [hstep, hsecond h2]; rfl, fun h2 => by rw [hstep, hfirst h2]; rfl⟩

end Sys2Proof.Certificates
end

section
/-! SUPPORT. What a step does with the decode at POS (43_block_control.md R176), and the decode of a block header by the number of bits
that are left (R177). -/

namespace Sys2Proof

/-! ### the decode of a block header -/

theorem withBits_of_le_remaining {n : Nat} {kept : Kept} {c : Cursor} {k : Nat → Cursor → DecodeResult}
    (h : n ≤ c.remainingBits) : withBits n kept c k = k (c.packed n c.pos) (c.advance n) := by
  rw [withBits, Cursor.nextBits_of_le h]

theorem withBits_of_remaining_lt {n : Nat} {kept : Kept} {c : Cursor} {k : Nat → Cursor → DecodeResult}
    (h : c.remainingBits < n) : withBits n kept c k = .rejected .endOfStream kept c := by
  rw [withBits, Cursor.nextBits_of_lt h]

/-- BFINAL as the header's decoder tests it. -/
theorem packed_one_beq_one (c : Cursor) (p : Nat) : (c.packed 1 p == 1) = c.bit p := by
  cases h : c.bit p <;> simp [Cursor.packed, h]

/-- BTYPE's first bit is its low one (30_encoding.md R72). -/
theorem packed_two (c : Cursor) (p : Nat) : c.packed 2 p = (c.bit p).toNat + 2 * (c.bit (p + 1)).toNat := by
  simp [Cursor.packed]

/-- BFINAL and BTYPE are read, and select the row. -/
theorem decodeHeader_of_three_bits {c : Cursor} (h : 3 ≤ c.remainingBits) : decodeHeader c =
    .instr (headerInstr (c.bit c.pos) ((c.bit (c.pos + 1)).toNat + 2 * (c.bit (c.pos + 2)).toNat)) (c.advance 3) := by
  have hrest : 2 ≤ (c.advance 1).remainingBits := by rw [remaining_advance]; omega
  rw [decodeHeader, withBits_of_le_remaining (by omega), withBits_of_le_remaining hrest, packed_one_beq_one, packed_two]
  rfl

/-- BTYPE is missing: BFINAL has been read. -/
theorem decodeHeader_of_no_btype {c : Cursor} (h1 : 1 ≤ c.remainingBits) (h3 : c.remainingBits < 3) :
    decodeHeader c = .rejected .endOfStream (.bfinal (c.bit c.pos)) (c.advance 1) := by
  have hrest : (c.advance 1).remainingBits < 2 := by rw [remaining_advance]; omega
  rw [decodeHeader, withBits_of_le_remaining h1, withBits_of_remaining_lt hrest, packed_one_beq_one]

theorem decodeHeader_of_no_bit {c : Cursor} (h : c.remainingBits = 0) :
    decodeHeader c = .rejected .endOfStream .nothing c :=
  withBits_of_remaining_lt (by omega)

end Sys2Proof

namespace Sys2Proof.Machine

/-! ### the step at a decoded element -/

theorem step_of_mode {s : State} {m : Mode} (hc : s.coreStarted = true) (hm : s.mode = .ok (some m)) :
    step s = runFetched (fetch m s) := by
  rw [step_of_started hc, coreStep, hm]

/-- A decoded instruction is executed with POS after its element (log 6). -/
theorem step_of_decode_instr {s : State} {m : Mode} {i : Instr} {c : Cursor} (hc : s.coreStarted = true)
    (hm : s.mode = .ok (some m)) (hd : decode m s.cursor = .instr i c) : step s = exec i { s with pos := c.pos } := by
  rw [step_of_mode hc hm, fetch, hd]
  rfl

/-- A rejected element raises its error, where it was found and with the fields that have been latched (R172; log 6). -/
theorem step_of_decode_rejected {s : State} {m : Mode} {why : Reject} {kept : Kept} {c : Cursor} {kind : ErrKind}
    (hc : s.coreStarted = true) (hm : s.mode = .ok (some m)) (hd : decode m s.cursor = .rejected why kept c)
    (hk : rejectKind why = some kind) : step s = .next (((s.keep kept).atPos c.pos).raise kind) := by
  rw [step_of_mode hc hm, fetch, hd]
  simp only [hk, runFetched]

theorem mode_of_hdr {s : State} (h : s.st = .hdr) : s.mode = .ok (some .header) := by
  simp only [State.mode, h]

/-! ### an ended run -/

theorem ended_iff (s : State) : s.ended = true ↔ s.st = .done ∨ s.st = .error := by
  simp [State.ended]

/-- DONE and ERROR have no step (43_block_control.md R180, 60_exceptions.md R285). -/
theorem coreStep_of_ended {s : State} (h : s.ended = true) : coreStep s = .next s := by
  rcases (ended_iff s).mp h with h | h <;> simp only [coreStep, State.mode, internalStep, h]

end Sys2Proof.Machine
end

section
/-! SUPPORT. Every run ends (43_block_control.md R174): a step consumes a bit, or lowers what is left of the steps that read none, or is
the last. -/

namespace Sys2Proof.Machine

/-- The steps that are due at POS before a bit is read: the rest of a match in COPY, and the step of DYN_CLTREE or DYN_TREES. -/
def State.bitlessSteps (s : State) : Nat :=
  match s.st with
  | .copy => s.cplen.toNat
  | .dynClTree | .dynTrees => 1
  | _ => 0

/-- A bound on the steps to the end of the run: 259 for each bit that is left (R174). -/
def State.stepsLeft (s : State) : Nat :=
  if s.ended then 0 else 259 * (8 * s.inLen - s.pos) + s.bitlessSteps + 1

theorem stepsLeft_of_ended {s : State} (h : s.ended = true) : s.stepsLeft = 0 := if_pos h

theorem ended_of_stepsLeft_eq_zero {s : State} (h : s.stepsLeft = 0) : s.ended = true := by
  unfold State.stepsLeft at h
  split at h
  · assumption
  · omega

theorem stepsLeft_atReset (input : Memory) (len start : Nat) :
    (State.atReset input len start).stepsLeft = 259 * (8 * len - 8 * start) + 1 := rfl

/-- A match is at most 258 bytes long. -/
theorem State.matchOk.bitlessSteps_le {s : State} (h : s.matchOk) : s.bitlessSteps ≤ 258 := by
  obtain ⟨-, hcopy⟩ := h
  unfold State.bitlessSteps
  split
  next hst =>
    obtain ⟨-, hle, -⟩ := hcopy hst
    exact hle
  all_goals decide

theorem Moves.pos_lt {s : State} {p : Nat} (h : Moves 1 s p) (hp : s.pos ≤ 8 * s.inLen) : s.pos < p :=
  (h hp).1

/-- A step from an unended run ends it, consumes a bit, or is one of the bitless steps that were due (R174). -/
theorem Stepped.progress {s t : State} (h : Stepped s t) (hs : s.ended = false) (hp : s.pos ≤ 8 * s.inLen) :
    t.ended = true ∨ s.pos < t.pos ∨ (t.pos = s.pos ∧ t.bitlessSteps < s.bitlessSteps) := by
  cases h with
  | idle he => rw [hs] at he; cases he
  | stopped | treesHalf => exact .inl rfl
  | dynClTree _ hst | trees _ _ hst => exact .inr (.inr ⟨rfl, by simp [State.bitlessSteps, hst]⟩)
  | copy v hst hne =>
    have hpred : (s.cplen - 1).toNat < s.cplen.toNat := by bv_omega
    have hdue : s.bitlessSteps = s.cplen.toNat := by simp only [State.bitlessSteps, hst]
    rw [hdue]
    unfold State.closeCopy
    split
    next => exact .inr (.inr ⟨rfl, Nat.zero_lt_of_lt hpred⟩)
    next => exact .inr (.inr ⟨rfl, by simpa [State.bitlessSteps, hst] using hpred⟩)
  | storedByte v _ hm => rw [closeStored_eq]; split <;> exact .inr (.inl (hm.pos_lt hp))
  | dynClcl v k p _ hm => rw [closeClcl_eq]; exact .inr (.inl (hm.pos_lt hp))
  | fill v r p _ hm => rw [closeLens_eq]; exact .inr (.inl (hm.pos_lt hp))
  | blkStored _ _ _ hm | blkFixed _ _ _ hm | blkDynamic _ _ _ hm | storedEmpty _ _ hm | storedHdr _ _ _ hm
  | dynHdr _ _ _ _ _ hm | lit _ _ _ hm | eob _ _ hm | length _ _ _ _ hm | distance _ _ _ _ hm =>
    exact .inr (.inl (hm.pos_lt hp))

/-- A step of a legal core from an unended run leaves fewer steps to come. -/
theorem Stepped.stepsLeft_lt {s t : State} (h : Stepped s t) (hl : s.CoreLegal) (hs : s.ended = false) :
    t.stepsLeft < s.stepsLeft := by
  obtain ⟨-, -, hp⟩ := hl.pos
  obtain ⟨-, hend⟩ := h.pos_bounds hp
  obtain ⟨-, hlen, -, -⟩ := h.launch_eq
  have hdue := State.matchOk.bitlessSteps_le (hl.stepped h).copying
  have hnow : s.stepsLeft = 259 * (8 * s.inLen - s.pos) + s.bitlessSteps + 1 := if_neg (by simp [hs])
  rcases h.progress hs hp with he | hprogress
  · rw [stepsLeft_of_ended he, hnow]
    omega
  · unfold State.stepsLeft at hnow ⊢
    rw [hnow, hlen]
    split <;> omega

theorem Stepped.coreStarted_eq {s t : State} (h : Stepped s t) : t.coreStarted = s.coreStarted := by
  obtain ⟨-, -, -, hf⟩ := h.launch_eq
  rw [State.coreStarted, State.coreStarted, hf]

/-- A legal core comes to its end in as many steps as are left, without a stop on the way (10_state.md R39). -/
theorem run_ends {n : Nat} {s : State} (hc : s.coreStarted = true) (hl : s.CoreLegal) (hn : s.stepsLeft ≤ n) :
    ∃ t : State, Host.Core.run core n s = .next t ∧ t.ended = true := by
  induction n generalizing s with
  | zero => exact ⟨s, rfl, ended_of_stepsLeft_eq_zero (Nat.le_zero.mp hn)⟩
  | succ n ih =>
    obtain ⟨t, hstep⟩ := coreStep_next hl
    have hstepped := coreStep_cases hstep
    have hnext : core.step s = .next t := (step_of_started hc).trans hstep
    have hrun : Host.Core.run core (n + 1) s = Host.Core.run core n t := by simp only [Host.Core.run, hnext]
    have ht : t.stepsLeft ≤ n := by
      cases hs : s.ended with
      | true =>
        cases (coreStep_of_ended hs).symm.trans hstep
        rw [stepsLeft_of_ended hs]
        exact Nat.zero_le n
      | false => exact Nat.le_of_lt_succ (Nat.lt_of_lt_of_le (hstepped.stepsLeft_lt hl hs) hn)
    rw [hrun]
    exact ih (hstepped.coreStarted_eq.trans hc) (hl.stepped hstepped) ht

end Sys2Proof.Machine
end

section
/-! SUPPORT. The statements of 43_block_control.md. -/

namespace Sys2Proof.Certificates

open Sys2Proof.Machine

/-- Settles O21: what is left of a run at its launch is the bound (`stepsLeft_atReset`), and every step lowers it (`run_ends`). -/
theorem runsEndWithinTheBound : Obligations.RunsEndWithinTheBound := by
  intro input len start h
  obtain ⟨t, hrun, hended⟩ := run_ends rfl (atReset_coreLegal input h) (Nat.le_of_eq (stepsLeft_atReset input len start))
  exact ⟨t, hrun, (ended_iff t).mp hended⟩

/-- Settles O20, from the three ways a step can move ST (`Stepped.st_cases`). -/
theorem transitionTable : Obligations.TransitionTable := by
  intro s t hc h
  cases hs : s.ended with
  | true =>
    rw [step_of_started hc, coreStep_of_ended hs] at h
    cases h
    exact .inl ⟨rfl, rfl⟩
  | false =>
    refine .inr ⟨rfl, ?_⟩
    rcases (step_cases hc h).st_cases with ⟨he, -⟩ | ⟨hst, -⟩ | ⟨hst, -⟩
    · rw [hs] at he
      cases he
    · exact .inr hst
    · exact .inl hst

/-- Settles O4 (log 6): a started core runs what its format decodes (`step_of_decode_instr`). That a step runs the front end's parse is
the model's choice (log 4). -/
theorem stepRunsTheDecodedInstruction : Obligations.StepRunsTheDecodedInstruction :=
  ⟨fun _ _ _ _ hc hm hd => step_of_decode_instr hc hm hd, fun _ _ _ _ _ hf hd => step_of_decodeGzip_instr hf hd⟩

/-- Settles O5: an encoded element decodes to its instruction (`decode_of_encode`), which the step then runs. -/
theorem encodedElementIsExecuted : Obligations.EncodedElementIsExecuted :=
  fun _ _ _ _ hc hm hi he hb => step_of_decode_instr hc hm (decode_of_encode hi he hb)

/-- Settles O17: each row writes its registers on every state. -/
theorem blockHeaderRows : Obligations.BlockHeaderRows :=
  fun _ _ => ⟨rfl, rfl, rfl, rfl⟩

/-- Settles O16: the header's decode by the number of bits left, then the row that BTYPE selects (`blockHeaderRows`). -/
theorem blockHeaderStep : Obligations.BlockHeaderStep := by
  intro s hc hst f t s1 s3
  have hm := mode_of_hdr hst
  refine ⟨fun h => ?_, fun h1 h3 => ?_, fun h => ?_⟩
  · exact step_of_decode_rejected hc hm (decodeHeader_of_no_bit h) rfl
  · exact step_of_decode_rejected hc hm (decodeHeader_of_no_btype h1 h3) rfl
  · have hstep : step s = exec (headerInstr f t) { s with pos := s.pos + 3 } :=
      step_of_decode_instr hc hm (decodeHeader_of_three_bits h)
    obtain ⟨stored, fixed, dynamic, reserved⟩ := blockHeaderRows { s with pos := s.pos + 3 } f
    refine ⟨fun ht => ?_, fun ht => ?_, fun ht => ?_, fun ht => ?_⟩ <;> rw [hstep, ht]
    · exact stored
    · exact fixed
    · exact dynamic
    · exact reserved

/-- Settles O18, from `endBlock_eq`. -/
theorem endOfBlockClearsTheTrees : Obligations.EndOfBlockClearsTheTrees :=
  fun s => ⟨⟨rfl, rfl, rfl, afterBlock_eq s.bfinal⟩, endBlock_eq s⟩

/-- Settles O19: the core has no step there (`coreStep_of_ended`), and a front end that has failed has none at all. Where the host has
just asked for the front end, the step is its own (log 4). -/
theorem endStatesAreFinal : Obligations.EndStatesAreFinal := by
  intro s hf hst
  cases hfront : s.frontEnd with
  | requested input len => exact absurd hfront (hf input len)
  | failed k r p => exact step_of_failed hfront
  | unused | accepted =>
    rw [step_of_started (by simp [State.coreStarted, hfront])]
    exact coreStep_of_ended ((ended_iff s).mpr hst)

end Sys2Proof.Certificates
end

section
/-! SUPPORT. The decodes of a stored block at a byte boundary (44_stored.md R190, R191). -/

namespace Sys2Proof

/-- The two bytes from byte k of IN on, the low one first (20_memory.md R52). -/
def Cursor.word (c : Cursor) (k : Nat) : BitVec 16 := BitVec.ofNat 16 ((c.inByte k).toNat + 256 * (c.inByte (k + 1)).toNat)

/-- A 16-bit operand that is read at a byte boundary. -/
theorem Cursor.ofNat_packed_word (c : Cursor) (k : Nat) : BitVec.ofNat 16 (c.packed 16 (8 * k)) = c.word k := by
  rw [Cursor.packed_word, Cursor.word]

/-- The byte boundary at or after POS is that of byte ⌈POS / 8⌉ (40_bitcursor.md R104). -/
theorem Cursor.alignToByte_eq_ceil (c : Cursor) : c.alignToByte = ⟨c.input, c.len, 8 * ((c.pos + 7) / 8)⟩ := by
  have hpos : c.pos + (8 - c.pos % 8) % 8 = 8 * ((c.pos + 7) / 8) := by omega
  rw [Cursor.alignToByte_eq, Cursor.advance, hpos]

/-- A field that the end of IN cuts off is not read (40_bitcursor.md R103). -/
theorem withBits_of_sub_lt {input : Memory} {len p n : Nat} (h : 8 * len - p < n) (kept : Kept) (k : Nat → Cursor → DecodeResult) :
    withBits n kept ⟨input, len, p⟩ k = .rejected .endOfStream kept ⟨input, len, p⟩ :=
  withBits_of_remaining_lt h

section
variable {c : Cursor} {i : Nat} (hi : i = (c.pos + 7) / 8)
include hi

/-- LEN and NLEN are there: both are read from the byte boundary on. -/
theorem decodeStoredHdr_of_both_words (h : i + 4 ≤ c.len) :
    decodeStoredHdr c = .instr (.storedHdr (c.word i) (c.word (i + 2))) ⟨c.input, c.len, 8 * i + 32⟩ := by
  have hnlen : 8 * i + 16 = 8 * (i + 2) := rfl
  rw [decodeStoredHdr, Cursor.alignToByte_eq_ceil, ← hi, withBits_of_le (by omega), withBits_of_le (by omega), hnlen,
    Cursor.ofNat_packed_word, Cursor.ofNat_packed_word]
  rfl

/-- NLEN is missing: LEN has been read. -/
theorem decodeStoredHdr_of_no_nlen (hlen : i + 2 ≤ c.len) (hnlen : c.len < i + 4) :
    decodeStoredHdr c = .rejected .endOfStream .nothing ⟨c.input, c.len, 8 * i + 16⟩ := by
  rw [decodeStoredHdr, Cursor.alignToByte_eq_ceil, ← hi, withBits_of_le (by omega), withBits_of_sub_lt (by omega)]

/-- LEN is missing: the pad bits have been skipped. -/
theorem decodeStoredHdr_of_no_len (hlen : c.len < i + 2) :
    decodeStoredHdr c = .rejected .endOfStream .nothing ⟨c.input, c.len, 8 * i⟩ := by
  rw [decodeStoredHdr, Cursor.alignToByte_eq_ceil, ← hi, withBits_of_sub_lt (by omega)]

end

/-- At a byte boundary a stored byte is a byte of IN. -/
theorem decodeStoredByte_of_aligned {c : Cursor} {i : Nat} (hpos : c.pos = 8 * i) (h : i < c.len) :
    decodeStoredByte c = .instr (.storedByte (c.inByte i)) (c.advance 8) := by
  obtain ⟨-, hbyte⟩ := Certificates.alignedWordIsLittleEndian c i hpos
  rw [decodeStoredByte, withByte, hbyte h]
  rfl

theorem decodeStoredByte_of_remaining_lt {c : Cursor} (h : c.remainingBits < 8) :
    decodeStoredByte c = .rejected .endOfStream .nothing c := by
  rw [decodeStoredByte, withByte, Cursor.nextByte_of_lt h]

end Sys2Proof

namespace Sys2Proof.Machine

open Sys2Proof.Certificates

theorem mode_of_storedHdr {s : State} (h : s.st = .storedHdr) : s.mode = .ok (some .storedHdr) := by
  simp only [State.mode, h]

theorem mode_of_storedCopy {s : State} (h : s.st = .storedCopy) : s.mode = .ok (some .storedByte) := by
  simp only [State.mode, h]

/-! ### STORED_HDR's three outcomes (44_stored.md R190) -/

theorem lengthCheck_iff (len nlen : BitVec 16) : lengthCheck len nlen = true ↔ nlen = ~~~len := beq_iff_eq

theorem exec_storedHdr_of_mismatch {len nlen : BitVec 16} (h : nlen ≠ ~~~len) (s : State) :
    exec (.storedHdr len nlen) s = .next (s.raise .lengthCheckFailed) :=
  if_neg (mt (lengthCheck_iff len nlen).mp h)

theorem exec_storedHdr_of_empty {len nlen : BitVec 16} (h : nlen = ~~~len) (h0 : len = 0) (s : State) :
    exec (.storedHdr len nlen) s = .next (s.setSrem 0).endBlock := by
  subst h0
  exact if_pos ((lengthCheck_iff 0 nlen).mpr h)

theorem exec_storedHdr_of_nonempty {len nlen : BitVec 16} (h : nlen = ~~~len) (h0 : len ≠ 0) (s : State) :
    exec (.storedHdr len nlen) s = .next ((s.setSrem len).goto .storedCopy) :=
  (if_pos ((lengthCheck_iff len nlen).mpr h)).trans (if_neg h0)

/-! ### STORED_BYTE's two outcomes (44_stored.md R191) -/

theorem exec_storedByte_of_srem_ne_zero {s : State} (h : s.srem ≠ 0) (v : Byte) :
    exec (.storedByte v) s = .next ((s.emit v).setSrem (s.srem - 1)).closeStored :=
  if_neg h

theorem exec_storedByte_of_last {s : State} (h : s.srem = 1) (v : Byte) :
    exec (.storedByte v) s = .next ((s.emit v).setSrem 0).endBlock := by
  rw [exec_storedByte_of_srem_ne_zero (by rw [h]; decide), h]
  rfl

theorem exec_storedByte_of_more {s : State} (h0 : s.srem ≠ 0) (h1 : s.srem ≠ 1) (v : Byte) :
    exec (.storedByte v) s = .next ((s.emit v).setSrem (s.srem - 1)) := by
  have hmore : s.srem - 1 ≠ 0 := by bv_omega
  rw [exec_storedByte_of_srem_ne_zero h0, closeStored_eq, State.setSrem_srem, if_neg hmore]

/-- Emit outputs its byte as the statements say it (47_window_copy.md R262). -/
theorem emit_emits (s : State) (v : Byte) : Emits s v (s.emit v) :=
  ⟨rfl, rfl, emit_read_self s v, fun _ => emit_read_ne s v⟩

end Sys2Proof.Machine
end

section
/-! SUPPORT. The statements of 44_stored.md. -/

namespace Sys2Proof.Certificates

open Sys2Proof.Machine

/-- Settles O23, from the three outcomes of the check: `exec_storedHdr_of_nonempty`, `exec_storedHdr_of_empty` and
`exec_storedHdr_of_mismatch`. -/
theorem storedHeaderRow : Obligations.StoredHeaderRow := fun s _ _ =>
  ⟨fun h h0 => exec_storedHdr_of_nonempty h h0 s,
    fun h h0 => ⟨_, exec_storedHdr_of_empty h h0 s, rfl, (endOfBlockClearsTheTrees (s.setSrem 0)).1, rfl⟩,
    fun h => exec_storedHdr_of_mismatch h s⟩

/-- Settles O24: the last byte ends the block (`exec_storedByte_of_last`), an earlier one does not (`exec_storedByte_of_more`); both
are output by Emit (`emit_emits`). -/
theorem storedByteRow : Obligations.StoredByteRow := by
  intro s v h0
  by_cases h1 : s.srem = 1
  · obtain ⟨hended, -⟩ := endOfBlockClearsTheTrees ((s.emit v).setSrem 0)
    refine ⟨_, exec_storedByte_of_last h1 v, emit_emits s v, ?_, fun _ => hended, fun h => absurd h1 h, ?_⟩
    · rw [h1]
      rfl
    · cases s
      rfl
  · have hpred : (s.srem - 1).toNat + 1 = s.srem.toNat := by bv_omega
    refine ⟨_, exec_storedByte_of_more h0 h1 v, emit_emits s v, hpred, fun h => absurd h h1, fun _ => ⟨rfl, rfl, rfl, rfl⟩, ?_⟩
    cases s
    rfl

/-- Settles O22: the decode by the number of bytes left after the boundary, then the check's three outcomes. -/
theorem storedHeaderStep : Obligations.StoredHeaderStep := by
  intro s hc hst _ i hi word s4
  have hm := mode_of_storedHdr hst
  have hstep (h : i + 4 ≤ s.inLen) : step s = exec (.storedHdr (word i) (word (i + 2))) s4 :=
    step_of_decode_instr hc hm (decodeStoredHdr_of_both_words hi h)
  refine ⟨fun h => ?_, fun h2 h4 => ?_, fun h hne => ?_, fun h heq => ⟨fun h0 => ?_, fun h0 => ?_⟩⟩
  · exact step_of_decode_rejected hc hm (decodeStoredHdr_of_no_len hi h) rfl
  · exact step_of_decode_rejected hc hm (decodeStoredHdr_of_no_nlen hi h2 h4) rfl
  · exact (hstep h).trans (exec_storedHdr_of_mismatch hne s4)
  · rw [hstep h, exec_storedHdr_of_empty heq h0, endBlock_eq, afterBlock_eq]
    rfl
  · exact (hstep h).trans (exec_storedHdr_of_nonempty heq h0 s4)

/-- Settles O25: at the byte boundary the step reads IN's byte and executes STORED_BYTE on it (`storedByteRow`), with POS after it. -/
theorem storedCopyStep : Obligations.StoredCopyStep := by
  intro s i hc hst h0 hpos
  have hm := mode_of_storedCopy hst
  refine ⟨fun hend => ?_, fun hlt => ?_⟩
  · have hbits : s.cursor.remainingBits < 8 := show 8 * s.inLen - s.pos < 8 by omega
    exact step_of_decode_rejected hc hm (decodeStoredByte_of_remaining_lt hbits) rfl
  · have hstep : step s = exec (.storedByte (s.cursor.inByte i)) { s with pos := s.pos + 8 } :=
      step_of_decode_instr hc hm (decodeStoredByte_of_aligned hpos hlt)
    obtain ⟨t, hexec, hemits, hsrem, hlast, hmore, hframe⟩ := storedByteRow { s with pos := s.pos + 8 } (s.cursor.inByte i) h0
    have htpos : t.pos = s.pos + 8 := congrArg State.pos hframe
    refine ⟨t, hstep.trans hexec, hemits, htpos, hsrem, hlast, fun h1 => ?_, by rw [htpos]; exact hframe⟩
    obtain ⟨hclt, hllt, hdt, hst'⟩ := hmore h1
    exact ⟨hclt, hllt, hdt, hst'.trans hst⟩

end Sys2Proof.Certificates
end

section
/-! SUPPORT. The decodes of a dynamic block's header (45_dynamic.md R200, R201) by the number of bits that are left, and of a code-length
symbol (R203 to R207) by its number. -/

namespace Sys2Proof

theorem withBits_of_nextBits {n v : Nat} {c c' : Cursor} (h : c.nextBits n = some (v, c')) (kept : Kept)
    (k : Nat → Cursor → DecodeResult) : withBits n kept c k = k v c' := by
  rw [withBits, h]

/-- A field that is read has its width, and moves POS by it (40_bitcursor.md R102). -/
theorem Cursor.lt_and_eq_of_nextBits {n v : Nat} {c c' : Cursor} (h : c.nextBits n = some (v, c')) :
    v < 2 ^ n ∧ c' = c.advance n := by
  rcases c.nextBits_cases n with ⟨-, e⟩ | ⟨-, e⟩
  · cases e.symm.trans h
  · cases e.symm.trans h
    exact ⟨c.packed_lt n c.pos, rfl⟩

/-! ### the header's counts and the code-length code's lengths -/

theorem decodeDynHdr_of_no_hlit {c : Cursor} (h : c.remainingBits < 5) :
    decodeDynHdr c = .rejected .endOfStream .nothing c :=
  withBits_of_remaining_lt h

/-- HDIST is missing: HLIT has been read. -/
theorem decodeDynHdr_of_no_hdist {c : Cursor} (h5 : 5 ≤ c.remainingBits) (h10 : c.remainingBits < 10) :
    decodeDynHdr c = .rejected .endOfStream (.hlit (BitVec.ofNat 5 (c.packed 5 c.pos))) (c.advance 5) := by
  have hrest : (c.advance 5).remainingBits < 5 := by rw [remaining_advance]; omega
  rw [decodeDynHdr, withBits_of_le_remaining h5, withBits_of_remaining_lt hrest]

/-- HCLEN is missing: HLIT and HDIST have been read. -/
theorem decodeDynHdr_of_no_hclen {c : Cursor} (h10 : 10 ≤ c.remainingBits) (h14 : c.remainingBits < 14) :
    decodeDynHdr c = .rejected .endOfStream
      (.hlitHdist (BitVec.ofNat 5 (c.packed 5 c.pos)) (BitVec.ofNat 5 (c.packed 5 (c.pos + 5)))) (c.advance 10) := by
  have hhdist : 5 ≤ (c.advance 5).remainingBits := by rw [remaining_advance]; omega
  have hrest : ((c.advance 5).advance 5).remainingBits < 4 := by rw [remaining_advance, remaining_advance]; omega
  rw [decodeDynHdr, withBits_of_le_remaining (by omega), withBits_of_le_remaining hhdist, withBits_of_remaining_lt hrest,
    Cursor.packed_advance]
  rfl

theorem decodeDynClcl_of_remaining_lt {c : Cursor} (h : c.remainingBits < 3) :
    decodeDynClcl c = .rejected .endOfStream .nothing c :=
  withBits_of_remaining_lt h

theorem decodeDynClcl_of_nextBits {c c' : Cursor} {v : Nat} (h : c.nextBits 3 = some (v, c')) :
    decodeDynClcl c = .instr (.dynClcl (BitVec.ofNat 3 v)) c' :=
  withBits_of_nextBits h _ _

/-! ### the code-length symbols -/

section
variable {t : Tree} {c c' : Cursor} {n : Nat}

theorem withSymbol_of_decode (h : Huffman.decode t c = .symbol n c') (k : Nat → Cursor → DecodeResult) :
    withSymbol t c k = k n c' := by
  rw [withSymbol, h]

theorem decodeClSymbol_of_endOfStream (h : Huffman.decode t c = .endOfStream c') (noneYet : Bool) :
    decodeClSymbol t noneYet c = .rejected .endOfStream .nothing c' := by
  rw [decodeClSymbol, withSymbol, h]

theorem decodeClSymbol_of_incomplete (h : Huffman.decode t c = .incomplete c') (noneYet : Bool) :
    decodeClSymbol t noneYet c = .rejected .incompleteTree .nothing c' := by
  rw [decodeClSymbol, withSymbol, h]

theorem decodeClSymbol_of_length (h : Huffman.decode t c = .symbol n c') (hn : n ≤ 15) (noneYet : Bool) :
    decodeClSymbol t noneYet c = .instr (.clLen (BitVec.ofNat 4 n)) c' :=
  (withSymbol_of_decode h _).trans (if_pos hn)

/-- Symbol 16 with no previous length is rejected before its extra bits are read (R205). -/
theorem decodeClSymbol_of_repPrev_noneYet (h : Huffman.decode t c = .symbol 16 c') :
    decodeClSymbol t true c = .rejected .noPreviousLength .nothing c' :=
  withSymbol_of_decode h _

theorem decodeClSymbol_of_repPrev (h : Huffman.decode t c = .symbol 16 c') :
    decodeClSymbol t false c = withBits 2 .nothing c' fun e c => .instr (.clRepPrev (BitVec.ofNat 2 e)) c :=
  withSymbol_of_decode h _

theorem decodeClSymbol_of_repZero3 (h : Huffman.decode t c = .symbol 17 c') (noneYet : Bool) :
    decodeClSymbol t noneYet c = withBits 3 .nothing c' fun e c => .instr (.clRepZero3 (BitVec.ofNat 3 e)) c :=
  withSymbol_of_decode h _

theorem decodeClSymbol_of_repZero11 (h : Huffman.decode t c = .symbol 18 c') (noneYet : Bool) :
    decodeClSymbol t noneYet c = withBits 7 .nothing c' fun e c => .instr (.clRepZero11 (BitVec.ofNat 7 e)) c :=
  withSymbol_of_decode h _

theorem decodeClSymbol_of_unknown (h : Huffman.decode t c = .symbol n c') (hn : 18 < n) (noneYet : Bool) :
    decodeClSymbol t noneYet c = .rejected .noSuchSymbol .nothing c' := by
  rw [decodeClSymbol, withSymbol_of_decode h, if_neg (by omega), if_neg (by omega), if_neg (by omega), if_neg (by omega)]

end

end Sys2Proof
end

section
/-! SUPPORT. What the steps of a dynamic block's header do (45_dynamic.md): the counts, the code-length code, the run of code lengths,
and the two steps that build trees. -/

namespace Sys2Proof.Machine

open Sys2Proof.Certificates

theorem mode_of_dynHdr {s : State} (h : s.st = .dynHdr) : s.mode = .ok (some .dynHdr) := by
  simp only [State.mode, h]

theorem mode_of_dynClcl {s : State} (h : s.st = .dynClcl) : s.mode = .ok (some .dynClcl) := by
  simp only [State.mode, h]

theorem mode_of_dynLens {s : State} {tree : Tree} (h : s.st = .dynLens) (ht : s.clt = some tree) :
    s.mode = .ok (some (.clSymbol tree (s.li == 0))) := by
  simp only [State.mode, h, ht]

theorem step_of_dynClTree {s : State} (hc : s.coreStarted = true) (h : s.st = .dynClTree) : step s = stepDynClTree s := by
  rw [step_of_started hc]
  simp only [coreStep, State.mode, internalStep, h]

theorem step_of_dynTrees {s : State} (hc : s.coreStarted = true) (h : s.st = .dynTrees) : step s = stepDynTrees s := by
  rw [step_of_started hc]
  simp only [coreStep, State.mode, internalStep, h]

/-! ### the counts (30_encoding.md R74) -/

@[simp] theorem hlitOf_toNat (field : BitVec 5) : (hlitOf field).toNat = field.toNat + 257 := by
  rw [hlitOf, BitVec.toNat_ofNat, Nat.mod_eq_of_lt (by omega)]

@[simp] theorem hdistOf_toNat (field : BitVec 5) : (hdistOf field).toNat = field.toNat + 1 := by
  rw [hdistOf, BitVec.toNat_ofNat, Nat.mod_eq_of_lt (by omega)]

@[simp] theorem hclenOf_toNat (field : BitVec 4) : (hclenOf field).toNat = field.toNat + 4 := by
  rw [hclenOf, BitVec.toNat_ofNat, Nat.mod_eq_of_lt (by omega)]

/-- A field of the stream fills its operand exactly. -/
theorem toNat_ofNat_packed (c : Cursor) (n p : Nat) : (BitVec.ofNat n (c.packed n p)).toNat = c.packed n p := by
  rw [BitVec.toNat_ofNat, Nat.mod_eq_of_lt (c.packed_lt n p)]

/-! ### the code-length code (R201) -/

theorem exec_dynClcl_of_permAt {s : State} {k : Nat} (h : Rom.permAt s.ci.toNat = some k) (v : BitVec 3) :
    exec (.dynClcl v) s = .next (s.putClcl k v).closeClcl := by
  simp only [exec, execDynClcl, h]

/-- PERM has no entry past 18 (30_encoding.md R78; log 7). -/
theorem exec_dynClcl_of_ci_gt {s : State} (h : 18 < s.ci.toNat) (v : BitVec 3) :
    exec (.dynClcl v) s = .fault .permIndex := by
  have hnone : Rom.permAt s.ci.toNat = none := List.getElem?_eq_none h
  simp only [exec, execDynClcl, hnone]

/-- One length is put in its place, and ST moves on with the last of them. -/
theorem closeClcl_putsLength {s : State} {k : Nat} (h : Rom.permAt s.ci.toNat = some k) (hci : s.ci.toNat ≤ 18)
    (v : BitVec 3) : PutsLength s v (s.putClcl k v).closeClcl := by
  have hnext : (s.ci + 1).toNat = s.ci.toNat + 1 := by bv_omega
  have hlast : s.ci + 1 = s.hclen ↔ s.ci.toNat + 1 = s.hclen.toNat := by rw [← BitVec.toNat_inj, hnext]
  rw [closeClcl_eq]
  refine ⟨⟨k, h, fun j hj => ?_⟩, hnext, ?_⟩
  · simp only [State.putClcl_clcl, Vector.getElem_setIfInBounds, eq_comm (a := k)]
  · simp only [State.putClcl_ci, State.putClcl_hclen, State.putClcl_st, hlast]

/-! ### the run of code lengths (R209) -/

/-- fill does what the statements say of it: it writes its run, or raises where the run has no room. -/
theorem fillLens_fills (v : BitVec 4) (r : Nat) (s : State) : Fills (fillLens v r s) s v r := by
  refine ⟨fun hroom h320 => ?_, fun hpast => if_pos hpast⟩
  have hli : (s.writeLens v r).li.toNat = s.li.toNat + r := writeLens_li_toNat (by omega)
  have hfits : ¬ Config.lensEntries < s.li.toNat + r := Nat.not_lt.mpr (Nat.le_trans hroom h320)
  have hfill : fillLens v r s = .next (s.writeLens v r).closeLens :=
    (if_neg (Nat.not_lt.mpr hroom)).trans (if_neg hfits)
  rw [closeLens_eq] at hfill
  exact ⟨_, hfill, hli, fun _ => writeLens_getElem s v r, by rw [hli]; rfl, rfl⟩

theorem exec_clLen_fills (s : State) (v : BitVec 4) : Fills (exec (.clLen v) s) s v 1 :=
  fillLens_fills v 1 s

theorem exec_clRepZero3_fills (s : State) (e : BitVec 3) : Fills (exec (.clRepZero3 e) s) s 0 (3 + e.toNat) :=
  fillLens_fills 0 (3 + e.toNat) s

theorem exec_clRepZero11_fills (s : State) (e : BitVec 7) : Fills (exec (.clRepZero11 e) s) s 0 (11 + e.toNat) :=
  fillLens_fills 0 (11 + e.toNat) s

theorem exec_clRepPrev_fills {s : State} (h : s.li ≠ 0) (e : BitVec 2) :
    Fills (exec (.clRepPrev e) s) s (lastEntry s) (3 + e.toNat) := by
  have hexec : exec (.clRepPrev e) s = fillLens (lastEntry s) (3 + e.toNat) s := if_neg h
  rw [hexec]
  exact fillLens_fills _ _ s

/-- The step at a repeat symbol with n extra bits: where they are not all there the error is raised before them (40_bitcursor.md R103),
and else the symbol's row fills with POS after them. -/
theorem step_fills_of_extraBits {s : State} {m : Mode} {n base : Nat} {c : Cursor} {row : BitVec n → Instr} {v : BitVec 4}
    (hc : s.coreStarted = true) (hm : s.mode = .ok (some m))
    (hrow : ∀ x p, Fills (exec (row x) { s with pos := p }) { s with pos := p } v (base + x.toNat))
    (hd : decode m s.cursor = withBits n .nothing c fun e c => .instr (row (BitVec.ofNat n e)) c) :
    (c.nextBits n = none → step s = .next (raisedState { s with pos := c.pos } .unexpectedEndOfStream)) ∧
    (∀ e c', c.nextBits n = some (e, c') → Fills (step s) { s with pos := c'.pos } v (base + e)) := by
  refine ⟨fun h => ?_, fun e c' h => ?_⟩
  · rw [withBits, h] at hd
    exact step_of_decode_rejected hc hm hd rfl
  · obtain ⟨hlt, -⟩ := Cursor.lt_and_eq_of_nextBits h
    rw [withBits_of_nextBits h] at hd
    have hfills := hrow (BitVec.ofNat n e) c'.pos
    rwa [BitVec.toNat_ofNat, Nat.mod_eq_of_lt hlt, ← step_of_decode_instr hc hm hd] at hfills

/-! ### the trees (R202, R208) -/

theorem stepDynClTree_of_ok {s : State} {tree : Tree} (h : Huffman.build (s.clcl.toList.map BitVec.toNat) = .ok tree) :
    stepDynClTree s = .next { s with clt := some tree, lens := Vector.replicate 320 0, li := 0, st := .dynLens } := by
  rw [stepDynClTree, h]

theorem stepDynClTree_of_error {s : State} {e : BuildError}
    (h : Huffman.build (s.clcl.toList.map BitVec.toNat) = .error e) :
    stepDynClTree s = .next (raisedState s (buildErrKind e)) := by
  rw [stepDynClTree, h]
  rfl

theorem lensSlice_length {s : State} {i n : Nat} (h : i + n ≤ 320) : (s.lensSlice i n).length = n := by
  simp only [State.lensSlice, List.length_map, List.length_take, List.length_drop, Vector.length_toList]
  omega

theorem lensSlice_getElem {s : State} {i n j : Nat} (h : i + n ≤ 320) (hj : j < (s.lensSlice i n).length) :
    (s.lensSlice i n)[j] = (s.lens[i + j]'(by rw [lensSlice_length h] at hj; omega)).toNat := by
  simp only [State.lensSlice, List.getElem_map, List.getElem_take, List.getElem_drop, Vector.getElem_toList]

/-- A list with the entries LENS[i .. i + n) is what build takes (R208). -/
theorem eq_lensSlice {s : State} {i n : Nat} {l : List Nat} (h320 : i + n ≤ 320) (hlen : l.length = n)
    (hget : ∀ k, (h : k < 320) → i ≤ k → k < i + n → l[k - i]? = some (s.lens[k]).toNat) : l = s.lensSlice i n := by
  refine List.ext_getElem (hlen.trans (lensSlice_length h320).symm) fun j hj hj' => ?_
  have hentry := hget (i + j) (by omega) (by omega) (by omega)
  rw [Nat.add_sub_cancel_left, List.getElem?_eq_getElem hj] at hentry
  rw [lensSlice_getElem h320]
  exact Option.some.inj hentry

section
variable {s : State} (h320 : s.lensTotal ≤ Config.lensEntries)
include h320

theorem stepDynTrees_of_ok {l d : Tree} (hl : Huffman.build (s.lensSlice 0 s.hlit.toNat) = .ok l)
    (hd : Huffman.build (s.lensSlice s.hlit.toNat s.hdist.toNat) = .ok d) :
    stepDynTrees s = .next { s with llt := some l, dt := some d, clt := none, st := .sym } := by
  rw [stepDynTrees, if_neg (Nat.not_lt.mpr h320), hl]
  simp only [hd]
  rfl

/-- LLT has been written when the distance build fails (log 14). -/
theorem stepDynTrees_of_dist_error {l : Tree} {e : BuildError} (hl : Huffman.build (s.lensSlice 0 s.hlit.toNat) = .ok l)
    (hd : Huffman.build (s.lensSlice s.hlit.toNat s.hdist.toNat) = .error e) :
    stepDynTrees s = .next (raisedState { s with llt := some l } (buildErrKind e)) := by
  rw [stepDynTrees, if_neg (Nat.not_lt.mpr h320), hl]
  simp only [hd]
  rfl

theorem stepDynTrees_of_litLen_error {e : BuildError} (hl : Huffman.build (s.lensSlice 0 s.hlit.toNat) = .error e) :
    stepDynTrees s = .next (raisedState s (buildErrKind e)) := by
  rw [stepDynTrees, if_neg (Nat.not_lt.mpr h320), hl]
  rfl

end

end Sys2Proof.Machine
end

section
/-! SUPPORT. The statements of 45_dynamic.md. -/

namespace Sys2Proof.Certificates

open Sys2Proof.Machine

/-- Settles O26: each count is its field plus its offset, without wrapping (`hlitOf_toNat`, `hdistOf_toNat`, `hclenOf_toNat`). -/
theorem dynamicHeaderRow : Obligations.DynamicHeaderRow := fun s a b d =>
  ⟨{ s with hlit := hlitOf a, hdist := hdistOf b, hclen := hclenOf d, clcl := Vector.replicate 19 0, ci := 0, st := .dynClcl },
    rfl, hlitOf_toNat a, hdistOf_toNat b, hclenOf_toNat d, fun _ hk => Vector.getElem_replicate hk, rfl, rfl, rfl⟩

/-- Settles O27: the header's decode by the number of bits left, and the counts that its rejection keeps. -/
theorem dynamicHeaderMissingFields : Obligations.DynamicHeaderMissingFields := by
  intro s hc hst
  have hm := mode_of_dynHdr hst
  refine ⟨fun h => ?_, fun h5 h10 => ⟨hlitOf _, ?_, step_of_decode_rejected hc hm (decodeDynHdr_of_no_hdist h5 h10) rfl⟩,
    fun h10 h14 => ⟨hlitOf _, hdistOf _, ?_, ?_, step_of_decode_rejected hc hm (decodeDynHdr_of_no_hclen h10 h14) rfl⟩⟩
  · exact step_of_decode_rejected hc hm (decodeDynHdr_of_no_hlit h) rfl
  · rw [hlitOf_toNat, toNat_ofNat_packed]
    rfl
  · rw [hlitOf_toNat, toNat_ofNat_packed]
    rfl
  · rw [hdistOf_toNat, toNat_ofNat_packed]
    rfl

/-- The instruction's half of O28: PERM has the entry (`permAt_of_le`), and it takes the length (`closeClcl_putsLength`). -/
theorem exec_dynClcl_puts {s : State} (h : s.ci.toNat ≤ 18) (v : BitVec 3) : ∃ t : State, exec (.dynClcl v) s = .next t ∧
    PutsLength s v t ∧ t = { s with clcl := t.clcl, ci := t.ci, st := t.st } := by
  obtain ⟨k, hk⟩ := permAt_of_le h
  exact ⟨_, exec_dynClcl_of_permAt hk v, closeClcl_putsLength hk h v, by rw [closeClcl_eq]; rfl⟩

/-- Settles O28: the instruction (`exec_dynClcl_puts`), run by the step on the 3 bits it reads; the stop for CI above 18 is the model's
(log 7). -/
theorem codeLengthCodeRow : Obligations.CodeLengthCodeRow := by
  refine ⟨fun s v => ⟨fun h => exec_dynClcl_puts h v, fun h => exec_dynClcl_of_ci_gt h v⟩, fun s hc hst => ?_⟩
  have hm := mode_of_dynClcl hst
  refine ⟨fun h => step_of_decode_rejected hc hm (decodeDynClcl_of_remaining_lt h) rfl, fun v c hv hci => ?_⟩
  obtain ⟨-, rfl⟩ := Cursor.lt_and_eq_of_nextBits hv
  have hstep : step s = exec (.dynClcl (BitVec.ofNat 3 v)) { s with pos := s.pos + 3 } :=
    step_of_decode_instr hc hm (decodeDynClcl_of_nextBits hv)
  obtain ⟨t, hexec, hputs, hframe⟩ := exec_dynClcl_puts (s := { s with pos := s.pos + 3 }) hci (BitVec.ofNat 3 v)
  have hpos : t.pos = s.pos + 3 := congrArg State.pos hframe
  exact ⟨t, hstep.trans hexec, hputs, hpos, by rw [hpos]; exact hframe⟩

/-- Settles O29, from the two outcomes of the build: `stepDynClTree_of_ok` and `stepDynClTree_of_error`. -/
theorem codeLengthTreeStep : Obligations.CodeLengthTreeStep := by
  intro s hc hst
  rw [step_of_dynClTree hc hst]
  exact ⟨fun tree h => ⟨_, stepDynClTree_of_ok h, rfl, fun _ hk => Vector.getElem_replicate hk, rfl, rfl, rfl⟩,
    stepDynClTree_of_error, stepDynClTree_of_error⟩

/-- Settles O30: each symbol is a fill of its own value and count (`fillLens_fills`). That CL_REP_PREV by itself raises at LI = 0 is the
model's choice (log 6). -/
theorem codeLengthRows : Obligations.CodeLengthRows := fun s =>
  ⟨exec_clLen_fills s, exec_clRepZero3_fills s, exec_clRepZero11_fills s, fun e h => exec_clRepPrev_fills h e, fun _ h => if_pos h⟩

/-- Settles O31: the decode by the symbol's number, then its row with POS after the element (`step_fills_of_extraBits` for the repeats).
That a symbol above 18 stops is the model's choice (log 7). -/
theorem codeLengthSymbolStep : Obligations.CodeLengthSymbolStep := by
  intro s tree hc hst ht
  have hm := mode_of_dynLens hst ht
  refine ⟨fun c hd => step_of_decode_rejected hc hm (decodeClSymbol_of_endOfStream hd _) rfl,
    fun c hd => step_of_decode_rejected hc hm (decodeClSymbol_of_incomplete hd _) rfl, fun n c hd => ?_⟩
  refine ⟨fun hn => ?length, fun hn h0 => ?noneYet, fun hn h0 => ?prev, fun hn => ?zero3, fun hn => ?zero11, fun hn => ?unknown⟩
  case length =>
    rw [step_of_decode_instr hc hm (decodeClSymbol_of_length hd hn _)]
    exact exec_clLen_fills _ _
  case noneYet =>
    subst hn
    rw [h0] at hm
    exact step_of_decode_rejected hc hm (decodeClSymbol_of_repPrev_noneYet hd) rfl
  case prev =>
    subst hn
    rw [beq_false_of_ne h0] at hm
    exact step_fills_of_extraBits hc hm (fun x p => exec_clRepPrev_fills (s := { s with pos := p }) h0 x)
      (decodeClSymbol_of_repPrev hd)
  case zero3 =>
    subst hn
    exact step_fills_of_extraBits hc hm (fun x p => exec_clRepZero3_fills { s with pos := p } x) (decodeClSymbol_of_repZero3 hd _)
  case zero11 =>
    subst hn
    exact step_fills_of_extraBits hc hm (fun x p => exec_clRepZero11_fills { s with pos := p } x) (decodeClSymbol_of_repZero11 hd _)
  case unknown =>
    rw [step_of_mode hc hm, fetch, decode, decodeClSymbol_of_unknown hd hn]
    rfl

/-- Settles O32: the lists are the two parts of LENS (`eq_lensSlice`), and the step is read off their builds. That LLT is kept when the
distance build fails rests on log 14. -/
theorem treesStep : Obligations.TreesStep := by
  intro s hc hst h320 litLens distLens hlitLen hlit hdistLen hdist
  obtain rfl : litLens = s.lensSlice 0 s.hlit.toNat :=
    eq_lensSlice (by omega) hlitLen fun k hk _ hlt => hlit k hk (by omega)
  obtain rfl : distLens = s.lensSlice s.hlit.toNat s.hdist.toNat := eq_lensSlice h320 hdistLen hdist
  rw [step_of_dynTrees hc hst]
  exact ⟨fun _ _ => stepDynTrees_of_ok h320, fun _ => stepDynTrees_of_dist_error h320,
    fun _ => stepDynTrees_of_dist_error h320, stepDynTrees_of_litLen_error h320, stepDynTrees_of_litLen_error h320⟩

end Sys2Proof.Certificates
end

section
/-! SUPPORT. The decodes of a literal/length symbol (46_symbol_loop.md R230) and of a distance symbol (R236) by the symbol's number. -/

namespace Sys2Proof

variable {t : Tree} {c c' : Cursor} {n d : Nat}

theorem withSymbol_of_endOfStream (h : Huffman.decode t c = .endOfStream c') (k : Nat → Cursor → DecodeResult) :
    withSymbol t c k = .rejected .endOfStream .nothing c' := by
  rw [withSymbol, h]

theorem withSymbol_of_incomplete (h : Huffman.decode t c = .incomplete c') (k : Nat → Cursor → DecodeResult) :
    withSymbol t c k = .rejected .incompleteTree .nothing c' := by
  rw [withSymbol, h]

theorem decodeLitLen_of_literal (h : Huffman.decode t c = .symbol n c') (hn : n ≤ 255) :
    decodeLitLen t c = .instr (.lit (BitVec.ofNat 8 n)) c' :=
  (withSymbol_of_decode h _).trans (if_pos hn)

theorem decodeLitLen_of_eob (h : Huffman.decode t c = .symbol 256 c') : decodeLitLen t c = .instr .eob c' :=
  withSymbol_of_decode h _

theorem decodeLitLen_of_length (h : Huffman.decode t c = .symbol n c') (h257 : 257 ≤ n) (h285 : n ≤ 285) :
    decodeLitLen t c = withBits (Rom.lengthExtra n) .nothing c' fun e c => .instr (lengthInstr n e) c := by
  rw [decodeLitLen, withSymbol_of_decode h, if_neg (by omega), if_neg (by omega), if_pos h285]

/-- A reserved symbol is known before any extra bit is read (R234). -/
theorem decodeLitLen_of_reserved (h : Huffman.decode t c = .symbol n c') (hn : 285 < n) :
    decodeLitLen t c = .instr (.lenReserved n) c' := by
  rw [decodeLitLen, withSymbol_of_decode h, if_neg (by omega), if_neg (by omega), if_neg (by omega)]

theorem decodeDist_of_distance (h : Huffman.decode t c = .symbol d c') (hd : d < 30) :
    decodeDist t c = withBits (Rom.distanceExtra d) .nothing c' fun e c => .instr (distanceInstr d e) c :=
  (withSymbol_of_decode h _).trans (if_neg (Nat.not_le.mpr hd))

/-- A reserved symbol is known before any extra bit is read (R238). -/
theorem decodeDist_of_reserved (h : Huffman.decode t c = .symbol d c') (hd : 30 ≤ d) :
    decodeDist t c = .instr (.distReserved d) c' :=
  (withSymbol_of_decode h _).trans (if_pos hd)

end Sys2Proof
end

section
/-! SUPPORT. What the literal/length and distance symbols do (46_symbol_loop.md): the rows of the two base tables (30_encoding.md R84,
R85), and the step at a symbol with extra bits. -/

namespace Sys2Proof.Machine

open Sys2Proof.Certificates

theorem mode_of_sym {s : State} {tree : Tree} (h : s.st = .sym) (ht : s.llt = some tree) : s.mode = .ok (some (.litLen tree)) := by
  simp only [State.mode, h, ht]

theorem mode_of_dist {s : State} {tree : Tree} (h : s.st = .dist) (ht : s.dt = some tree) : s.mode = .ok (some (.dist tree)) := by
  simp only [State.mode, h, ht]

/-! ### the step at an element with extra bits (30_encoding.md R82) -/

section
variable {s : State} {m : Mode} {n : Nat} {c : Cursor} {row : Nat → Instr} (hc : s.coreStarted = true)
  (hm : s.mode = .ok (some m)) (hd : decode m s.cursor = withBits n .nothing c fun e c => .instr (row e) c)
include hc hm hd

/-- Where the extra bits are not all there, the error is raised before them (40_bitcursor.md R103). -/
theorem step_of_missing_extraBits (h : c.nextBits n = none) :
    step s = .next (raisedState { s with pos := c.pos } .unexpectedEndOfStream) := by
  rw [withBits, h] at hd
  exact step_of_decode_rejected hc hm hd rfl

theorem step_of_extraBits {e : Nat} {c' : Cursor} (h : c.nextBits n = some (e, c')) :
    step s = exec (row e) { s with pos := c'.pos } :=
  step_of_decode_instr hc hm (hd.trans (withBits_of_nextBits h _ _))

end

/-! ### the length rows (R233) -/

/-- The instruction of a length symbol starts a match of its base plus its extra bits, none of which its operand cuts off:
a row has no extra bits (cases 1 to 8 and 29), or an operand as wide as they are; case 30 is no length symbol. -/
theorem exec_lengthInstr {n e : Nat} (h257 : 257 ≤ n) (h285 : n ≤ 285) (he : e < 2 ^ Rom.lengthExtra n) (s : State) :
    exec (lengthInstr n e) s = .next (startMatch n e s) := by
  have hoperand : e % 2 ^ Rom.lengthExtra n = e := Nat.mod_eq_of_lt he
  fun_cases lengthInstr n e
  case case1 | case2 | case3 | case4 | case5 | case6 | case7 | case8 | case29 =>
    obtain rfl : e = 0 := Nat.lt_one_iff.mp he
    rfl
  case case30 =>
    simp only [imp_false] at *
    omega
  all_goals exact congrArg (Host.Outcome.next <| startMatch _ · s) hoperand

theorem lengthRow_lengthInstr {n e : Nat} (h257 : 257 ≤ n) (h285 : n ≤ 285) (he : e < 2 ^ Rom.lengthExtra n) :
    LengthRow (lengthInstr n e) (matchLength n e) := by
  intro s
  obtain ⟨-, h258⟩ := matchLength_range h257 h285 rfl he
  refine ⟨_, exec_lengthInstr h257 h285 he s, ?_, rfl, rfl⟩
  rw [startMatch_cplen, BitVec.toNat_ofNat, Nat.mod_eq_of_lt (by omega)]

/-- The row of an instruction that is coded as symbol c with extra bits e (30_encoding.md R84). -/
theorem lengthRow_of_coded {i : Instr} {c w e length : Nat} (hx : i.litLenCoded = some ⟨c, w, e⟩) (hi : i.wf = true)
    (hc : 257 ≤ c ∧ c ≤ 285) (hlen : matchLength c e = length) : LengthRow i length := by
  obtain ⟨h257, h285⟩ := hc
  rcases litLenCoded_cases hx hi with ⟨v, -, hv⟩ | ⟨-, heob⟩ | ⟨n, -, hn, hres⟩ | ⟨-, -, hwidth, he, rfl⟩
  · cases hv
    omega
  · cases heob
    omega
  · cases hn
    omega
  · rw [hwidth] at he
    exact hlen ▸ lengthRow_lengthInstr h257 h285 he

/-! ### the distance rows (R236, R237) -/

/-- The instruction of a distance symbol accepts its base plus its extra bits, none of which its operand cuts off:
a row has no extra bits (cases 1 to 4), or an operand as wide as they are; case 31 is no distance symbol. -/
theorem exec_distanceInstr {d e : Nat} (hd : d < 30) (he : e < 2 ^ Rom.distanceExtra d) (s : State) :
    exec (distanceInstr d e) s = .next (acceptDistance d e s) := by
  have hoperand : e % 2 ^ Rom.distanceExtra d = e := Nat.mod_eq_of_lt he
  fun_cases distanceInstr d e
  case case1 | case2 | case3 | case4 =>
    obtain rfl : e = 0 := Nat.lt_one_iff.mp he
    rfl
  case case31 =>
    simp only [imp_false] at *
    omega
  all_goals exact congrArg (Host.Outcome.next <| acceptDistance _ · s) hoperand

theorem acceptDistance_of_le {d e : Nat} {s : State} (h : matchDistance d e ≤ s.emitted) :
    acceptDistance d e s = { s with cpdist := BitVec.ofNat 16 (matchDistance d e), st := .copy } :=
  if_neg (Nat.not_lt.mpr h)

theorem acceptDistance_of_lt {d e : Nat} {s : State} (h : s.emitted < matchDistance d e) :
    acceptDistance d e s = raisedState s .invalidDistance :=
  if_pos h

theorem distanceRow_distanceInstr {d e : Nat} (hd : d < 30) (he : e < 2 ^ Rom.distanceExtra d) :
    DistanceRow (distanceInstr d e) (matchDistance d e) := by
  intro s
  obtain ⟨-, h32768⟩ := matchDistance_range (Nat.le_of_lt_succ hd) rfl he
  rw [exec_distanceInstr hd he]
  refine ⟨fun h => ⟨_, congrArg _ (acceptDistance_of_le h), ?_, rfl, rfl⟩, fun h => congrArg _ (acceptDistance_of_lt h)⟩
  rw [BitVec.toNat_ofNat, Nat.mod_eq_of_lt (by omega)]

/-- The row of an instruction that is coded as symbol d with extra bits e (30_encoding.md R85). -/
theorem distanceRow_of_coded {i : Instr} {d w e dist : Nat} (hx : i.distCoded = some ⟨d, w, e⟩) (hi : i.wf = true)
    (hd : d < 30) (hdist : matchDistance d e = dist) : DistanceRow i dist := by
  rcases distCoded_cases hx hi with ⟨n, -, hn, hres⟩ | ⟨-, hwidth, he, rfl⟩
  · cases hn
    omega
  · rw [hwidth] at he
    exact hdist ▸ distanceRow_distanceInstr hd he

end Sys2Proof.Machine
end

section
/-! SUPPORT. The statements of 46_symbol_loop.md. -/

namespace Sys2Proof.Certificates

open Sys2Proof.Machine

/-- Settles O36: in every state the reserved rows raise. -/
theorem reservedSymbolRows : Obligations.ReservedSymbolRows := fun _ _ => ⟨rfl, rfl⟩

/-- Settles O33: LIT is Emit (`emit_emits`), and EOB is endBlock (`endOfBlockClearsTheTrees`). -/
theorem literalAndEndOfBlockRows : Obligations.LiteralAndEndOfBlockRows :=
  ⟨fun s v => ⟨s.emit v, rfl, emit_emits s v, rfl⟩, fun s => ⟨s.endBlock, rfl, (endOfBlockClearsTheTrees s).1, rfl⟩⟩

/-- Settles O34: each row is that of its symbol in the length table (`lengthRow_of_coded`). -/
theorem lengthRows : Obligations.LengthRows := by
  unfold Obligations.LengthRows
  and_intros <;> intros <;> exact lengthRow_of_coded rfl rfl (by decide) rfl

/-- Settles O35: each row is that of its symbol in the distance table (`distanceRow_of_coded`). -/
theorem distanceRows : Obligations.DistanceRows := by
  unfold Obligations.DistanceRows
  and_intros <;> intros <;> exact distanceRow_of_coded rfl rfl (by decide) rfl

/-- Settles O37: the decode by the symbol's number, then its row with POS after the element (`literalAndEndOfBlockRows`,
`lengthRow_lengthInstr`, `reservedSymbolRows`). -/
theorem symbolStep : Obligations.SymbolStep := by
  intro s tree hc hst ht
  have hm := mode_of_sym hst ht
  refine ⟨fun c hd => step_of_decode_rejected hc hm (withSymbol_of_endOfStream hd _) rfl,
    fun c hd => step_of_decode_rejected hc hm (withSymbol_of_incomplete hd _) rfl, fun n c hd => ?_⟩
  obtain ⟨literal, eob⟩ := literalAndEndOfBlockRows
  refine ⟨fun hn => ?literal, fun hn => ?eob, fun h257 h285 => ⟨fun e c' h => ?length, fun h => ?missing⟩, fun hn => ?reserved⟩
  case literal =>
    rw [step_of_decode_instr hc hm (decodeLitLen_of_literal hd hn)]
    exact literal _ _
  case eob =>
    subst hn
    rw [step_of_decode_instr hc hm (decodeLitLen_of_eob hd)]
    exact eob _
  case length =>
    obtain ⟨he, -⟩ := Cursor.lt_and_eq_of_nextBits h
    obtain ⟨t, hexec, hlen, hdist, hframe⟩ := lengthRow_lengthInstr h257 h285 he { s with pos := c'.pos }
    rw [hdist] at hframe
    exact ⟨t, (step_of_extraBits hc hm (decodeLitLen_of_length hd h257 h285) h).trans hexec, hlen, hframe⟩
  case missing =>
    exact step_of_missing_extraBits hc hm (decodeLitLen_of_length hd h257 h285) h
  case reserved =>
    exact (step_of_decode_instr hc hm (decodeLitLen_of_reserved hd hn)).trans (reservedSymbolRows _ n).1

/-- Settles O38: the decode by the symbol's number, then its row with POS after the element (`distanceRow_distanceInstr`,
`reservedSymbolRows`). -/
theorem distanceStep : Obligations.DistanceStep := by
  intro s tree hc hst ht
  have hm := mode_of_dist hst ht
  refine ⟨fun c hd => step_of_decode_rejected hc hm (withSymbol_of_endOfStream hd _) rfl,
    fun c hd => step_of_decode_rejected hc hm (withSymbol_of_incomplete hd _) rfl, fun d c hd => ?_⟩
  refine ⟨fun h30 => ?reserved, fun h30 h => ?missing, fun h30 e c' h => ?distance⟩
  case reserved =>
    exact (step_of_decode_instr hc hm (decodeDist_of_reserved hd h30)).trans (reservedSymbolRows _ d).2
  case missing =>
    exact step_of_missing_extraBits hc hm (decodeDist_of_distance hd h30) h
  case distance =>
    obtain ⟨he, -⟩ := Cursor.lt_and_eq_of_nextBits h
    obtain ⟨hwithin, hbeyond⟩ := distanceRow_distanceInstr h30 he { s with pos := c'.pos }
    rw [step_of_extraBits hc hm (decodeDist_of_distance hd h30) h]
    refine ⟨hbeyond, fun hle => ?_⟩
    obtain ⟨t, hexec, hdist, hcopy, hframe⟩ := hwithin hle
    rw [hcopy] at hframe
    exact ⟨t, hexec, hdist, hframe⟩

end Sys2Proof.Certificates
end

section
/-! SUPPORT. The COPY step (47_window_copy.md R264) and what a match of several steps leaves in OUT (R267). -/

namespace Sys2Proof.Machine

open Sys2Proof.Certificates

theorem step_of_copy {s : State} (hc : s.coreStarted = true) (h : s.st = .copy) : step s = stepCopy s := by
  rw [step_of_started hc]
  simp only [coreStep, State.mode, internalStep, h]

theorem stepCopy_of_read {s : State} {v : Byte} (h0 : s.cplen ≠ 0)
    (hv : s.winRead (windowIndex s.emitted s.cpdist.toNat) = some v) :
    stepCopy s = .next ((s.emit v).setCplen (s.cplen - 1)).closeCopy := by
  rw [stepCopy, if_neg h0, hv]

theorem run_succ_of_step {n : Nat} {s t : State} (h : step s = .next t) :
    Host.Core.run core (n + 1) s = Host.Core.run core n t := by
  have hcore : core.step s = .next t := h
  simp only [Host.Core.run, hcore]

/-! ### the bytes of a match (R267) -/

/-- new is old and n more bytes, each of which equals the byte d before it in new. -/
def Copies (d n : Nat) (old new : List Byte) : Prop :=
  new.length = old.length + n ∧ (∀ k, k < old.length → new[k]? = old[k]?) ∧
  ∀ k, old.length ≤ k → k < old.length + n → new[k]? = new[k - d]?

theorem Copies.refl (d : Nat) (out : List Byte) : Copies d 0 out out :=
  ⟨rfl, fun _ _ => rfl, fun _ hle hlt => absurd hlt (Nat.not_lt.mpr hle)⟩

/-- A copy may begin with one byte: the later ones may read it, since they copy from the list that ends in it. -/
theorem Copies.cons {d n : Nat} {old new : List Byte} {v : Byte} (h1 : 1 ≤ d) (hd : d ≤ old.length)
    (hv : old[old.length - d]? = some v) (h : Copies d n (old ++ [v]) new) : Copies d (n + 1) old new := by
  obtain ⟨hlen, hkept, hcopied⟩ := h
  rw [List.length_append, List.length_singleton] at hlen hkept hcopied
  have hold (k : Nat) (hk : k < old.length) : new[k]? = old[k]? :=
    (hkept k (by omega)).trans (List.getElem?_append_left hk)
  refine ⟨by omega, hold, fun k hle hlt => ?_⟩
  rcases Nat.eq_or_lt_of_le hle with rfl | hlater
  · calc new[old.length]?
      _ = (old ++ [v])[old.length]? := hkept _ (Nat.lt_succ_self _)
      _ = some v := List.getElem?_concat_length
      _ = new[old.length - d]? := ((hold _ (by omega)).trans hv).symm
  · exact hcopied k hlater (by omega)

end Sys2Proof.Machine
end

section
/-! SUPPORT. The statements of 47_window_copy.md. -/

namespace Sys2Proof.Certificates

open Sys2Proof.Machine

/-- Settles O39, by `emit_emits`; the equation is Emit's frame. -/
theorem emitWritesOneByte : Obligations.EmitWritesOneByte := fun s v => ⟨emit_emits s v, rfl⟩

/-- Settles O41: the byte d back is read from the window (`windowOk_read`), within the bounds of OUT. -/
theorem windowHoldsTheRecentOutput : Obligations.WindowHoldsTheRecentOutput := by
  intro s d hs hc h1 hle hsize
  have hwindow := (hs.core hc).window
  obtain ⟨hlt, hread⟩ := windowOk_read hwindow h1 hle hsize
  obtain ⟨-, -, hemitted, -⟩ := hwindow
  have hbyte := List.getElem?_eq_getElem hlt
  rw [windowIndex_of_le hle] at hread
  exact ⟨hemitted, hread.trans hbyte.symm, Option.isSome_of_eq_some hbyte⟩

/-- Settles O40: the byte read (`stepCopy_of_read`) is output by Emit (`emit_emits`), and CPLEN comes down to 0 exactly from 1. -/
theorem copyStep : Obligations.CopyStep := by
  intro s v hc hst h0 hle hv
  rw [step_of_copy hc hst, stepCopy_of_read h0 (windowIndex_of_le hle ▸ hv), closeCopy_eq]
  have hpred : (s.cplen - 1).toNat + 1 = s.cplen.toNat := by bv_omega
  have hlast : s.cplen - 1 = 0 ↔ s.cplen = 1 := sub_eq_zero
  refine ⟨_, rfl, emit_emits s v, hpred, ?_, ?_⟩
  · simp only [State.setCplen_cplen, State.setCplen_st, State.emit_st, hlast, hst]
  · cases s
    rfl

/-- A COPY step of a legal state appends the byte CPDIST back in OUT: it is in the window (`windowHoldsTheRecentOutput`), and the step
outputs it (`copyStep`). -/
theorem step_copies_byte {s : State} (hs : Inv s) (hc : s.coreStarted = true) (hst : s.st = .copy) :
    ∃ (t : State) (v : Byte), step s = .next t ∧ s.out[s.out.length - s.cpdist.toNat]? = some v ∧ t.out = s.out ++ [v] ∧
      t.cplen.toNat + 1 = s.cplen.toNat ∧ t.st = (if s.cplen = 1 then .sym else .copy) ∧
      t.coreStarted = true ∧ t.pos = s.pos ∧ t.cpdist = s.cpdist := by
  obtain ⟨-, hcopy⟩ := (hs.core hc).copying
  obtain ⟨hlen, -, h1, hle, hsize⟩ := hcopy hst
  obtain ⟨hemitted, hread, hsome⟩ := windowHoldsTheRecentOutput s s.cpdist.toNat hs hc h1 hle hsize
  obtain ⟨v, hv⟩ := Option.isSome_iff_exists.mp hsome
  have h0 : s.cplen ≠ 0 := by bv_omega
  obtain ⟨t, hstep, ⟨hout, -⟩, hcplen, hst', hframe⟩ := copyStep s v hc hst h0 hle (hread.trans hv)
  exact ⟨t, v, hstep, hemitted ▸ hv, hout, hcplen, hst', (congrArg State.coreStarted hframe).trans hc,
    (congrArg State.pos hframe).trans rfl, (congrArg State.cpdist hframe).trans rfl⟩

/-- The steps of a match with n bytes to go, by induction on n; with none to go it has ended, in SYM. -/
theorem run_copies {n : Nat} {s : State} (hs : Inv s) (hc : s.coreStarted = true) (hn : s.cplen.toNat = n)
    (hst : s.st = if n = 0 then .sym else .copy) :
    ∃ t : State, Host.Core.run core n s = .next t ∧ t.st = .sym ∧ t.pos = s.pos ∧ Copies s.cpdist.toNat n s.out t.out := by
  induction n generalizing s with
  | zero => exact ⟨s, rfl, hst, rfl, Copies.refl _ _⟩
  | succ n ih =>
    obtain ⟨-, hcopy⟩ := (hs.core hc).copying
    obtain ⟨-, -, h1, hle, -⟩ := hcopy hst
    obtain ⟨-, -, hemitted, -⟩ := (hs.core hc).window
    obtain ⟨t, v, hstep, hv, hout, hcplen, hst', hc', hpos, hdist⟩ := step_copies_byte hs hc hst
    have hlast : s.cplen = 1 ↔ n = 0 := by bv_omega
    obtain ⟨u, hrun, hsym, hupos, hcopies⟩ := ih (hs.step hstep) hc' (by omega) (by simp only [hst', hlast])
    rw [hdist, hout] at hcopies
    exact ⟨u, (run_succ_of_step hstep).trans hrun, hsym, hupos.trans hpos, hcopies.cons h1 (hemitted ▸ hle) hv⟩

/-- Settles O42: a legal match has at least one byte to go, and is copied byte by byte (`run_copies`). -/
theorem matchCopiesFromTheDistanceBack : Obligations.MatchCopiesFromTheDistanceBack := by
  intro s hs hc hst
  obtain ⟨-, hcopy⟩ := (hs.core hc).copying
  obtain ⟨hlen, -⟩ := hcopy hst
  exact run_copies hs hc rfl (by rw [hst, if_neg (by omega)])

end Sys2Proof.Certificates
end

section
/-! SUPPORT. How a step comes to raise (60_exceptions.md R284), and what reset gives (70_reset_and_hazards.md R310). -/

namespace Sys2Proof.Machine

theorem endBlock_st_ne_error (s : State) : s.endBlock.st ≠ .error := by
  rcases afterBlock_cases s.bfinal with h | h <;> simp [h]

theorem ite_ne_error {p : Prop} [Decidable p] {c d : Ctrl} (hc : c ≠ .error) (hd : d ≠ .error) :
    (if p then c else d) ≠ .error := by
  split <;> assumption

/-- A step into ERROR stops at an element, keeping the fields latched by then, or at the second build of DYN_TREES, keeping LLT
(60_exceptions.md R284). -/
theorem Stepped.raise_cases {s t : State} (h : Stepped s t) (hs : s.st ≠ .error) (ht : t.st = .error) :
    (∃ kept k p, t = ((s.keep kept).atPos p).raise k) ∨ ∃ l k, t = (s.setLlt l).raise k := by
  cases h with
  | stopped kept k p => exact .inl ⟨kept, k, p, rfl⟩
  | treesHalf l e => exact .inr ⟨l, buildErrKind e, rfl⟩
  | idle | lit => exact absurd ht hs
  | storedEmpty | eob => exact absurd ht (endBlock_st_ne_error _)
  | storedByte v =>
    rw [closeStored_eq] at ht
    split at ht
    · exact absurd ht (endBlock_st_ne_error _)
    · exact absurd ht hs
  | dynClcl v k p => rw [closeClcl_eq] at ht; exact absurd ht (ite_ne_error (by decide) hs)
  | fill v r p => rw [closeLens_eq] at ht; exact absurd ht (ite_ne_error (by decide) hs)
  | copy v => rw [closeCopy_eq] at ht; exact absurd ht (ite_ne_error (by decide) hs)
  | blkStored | blkFixed | blkDynamic | storedHdr | dynHdr | dynClTree | trees | length | distance => cases ht

theorem hostReset_of_le (input : Memory) {len start : Nat} (h : start ≤ len) :
    hostReset input len start = .next (State.atReset input len start) := if_pos h

theorem hostReset_of_lt (input : Memory) {len start : Nat} (h : len < start) :
    hostReset input len start = .refused .startBeyondInput := if_neg (Nat.not_le.mpr h)

theorem winRead_atReset (input : Memory) (len start a : Nat) : (State.atReset input len start).winRead a = none := rfl

end Sys2Proof.Machine
end

section
/-! SUPPORT. The statements of 60_exceptions.md and 70_reset_and_hazards.md. -/

namespace Sys2Proof.Certificates

open Sys2Proof.Machine

/-- Settles O44: raise writes the three registers alone, and the codes are read off in order. -/
theorem raiseSavesKindAndPosition : Obligations.RaiseSavesKindAndPosition := ⟨fun _ _ => rfl, rfl⟩

/-- Settles O45, from the three ways a step can move ST (`Stepped.st_cases`), of which only a raise leads to ERROR. -/
theorem onlyListedErrorsAreRaised : Obligations.OnlyListedErrorsAreRaised := by
  intro s t hc hs h ht
  rcases (step_cases hc h).st_cases with ⟨-, rfl⟩ | ⟨hst, -⟩ | ⟨-, hk, hpos⟩
  · exact absurd ht hs
  · exact absurd (ht ▸ hst) (error_not_allowedNext _)
  · exact ⟨hk, hpos⟩

/-- Settles O46, from the two ways a step comes to raise (`Stepped.raise_cases`): neither writes any other register. -/
theorem raisingStepWritesNoOutput : Obligations.RaisingStepWritesNoOutput := by
  intro s t hc hs h ht
  rcases (step_cases hc h).raise_cases hs ht with ⟨kept, k, p, rfl⟩ | ⟨l, k, rfl⟩
  · rw [keep_eq]
    rfl
  · rfl

/-- Settles O49. That frontEnd is unused after reset (log 4) and that S > N is refused (log 9) are the model's choices. -/
theorem resetValues : Obligations.ResetValues := by
  intro input len start
  refine ⟨fun h => ⟨_, hostReset_of_le input h, ?_⟩, hostReset_of_lt input⟩
  have hclcl (k : Nat) (hk : k < 19) : (State.atReset input len start).clcl[k] = 0 := Vector.getElem_replicate hk
  have hlens (k : Nat) (hk : k < 320) : (State.atReset input len start).lens[k] = 0 := Vector.getElem_replicate hk
  exact ⟨rfl, rfl, rfl, rfl, rfl, rfl, rfl, rfl, rfl, rfl, rfl, hclcl, rfl, hlens, rfl, rfl, rfl, rfl, rfl, rfl, rfl,
    winRead_atReset input len start, rfl, rfl, rfl, rfl⟩

end Sys2Proof.Certificates
end
